-- ==== Sys2Proof/Word.lean ====
section
/-! DEFINITION. The word types of the hardware: `u8`, `u32` and the 33-bit cursors (spec/00_scope.md R11,
spec/10_state.md R23, R24, R27, R28). -/

namespace Sys2Proof

/-- A `u8` (R11): one byte of the flash array, of a command, of the host's buffer. -/
abbrev Byte := BitVec 8

/-- A `u32` (R11): the request operands and the response value. -/
abbrev U32 := BitVec 32

/-- A cursor register (R27, R28): 33 bits, because the end of a range can be 2^32. -/
abbrev Cursor := BitVec 33

end Sys2Proof
end

