-- ==== Sys2Proof/Config.lean ====
section
/-! DEFINITION. What is fixed for one machine (the record `CFG`, spec/00_scope.md R8, R9) and what its environment
chooses at each step (spec/10_state.md R20, R21): whose turn it is, how the transport ends a frame, the status bits
that have no name. -/

namespace Sys2Proof

/-- `ERASE_SET`'s smaller size, `SECTOR` (R10). -/
def sectorSize : Nat := 4096

/-- `ERASE_SET`'s larger size, `BLOCK` (R10). -/
def blockSize : Nat := 65536

/-- `CFG.OPC` (R9): the seven opcode bytes. -/
structure Opcodes where
  wren : Byte
  rdsr : Byte
  pp   : Byte
  se   : Byte
  be   : Byte
  rdid : Byte
  ruid : Byte
deriving DecidableEq, Repr

/-- The opcode bytes of spec/opcode_table.json, R9's defaults (PRESUMED by the spec itself: G1). -/
def Opcodes.table : Opcodes :=
  { wren := 0x06, rdsr := 0x05, pp := 0x02, se := 0x20, be := 0xD8, rdid := 0x9F, ruid := 0x4B }

/-- The seven bytes as a list, in R9's order. -/
def Opcodes.toList (o : Opcodes) : List Byte :=
  [o.wren, o.rdsr, o.pp, o.se, o.be, o.rdid, o.ruid]

/-- `CFG` (R9), every field under its own name. It is fixed before reset is released and no rule writes it (R8). -/
structure Cfg where
  capacity  : Nat
  addrBytes : Nat
  pageSize  : Nat
  eraseSet  : List Nat
  opc       : Opcodes
  pollMax   : Nat
  busyMask  : Byte
  welMask   : Byte
  idLen     : Nat
  uidLen    : Nat
  uidDummy  : Nat
deriving DecidableEq, Repr

/-- The legal values of `CFG` (R9's third column, R61, R284). -/
abbrev Cfg.Legal (c : Cfg) : Prop :=
  (4096 ≤ c.capacity ∧ c.capacity ≤ 2 ^ 32 ∧ c.capacity % 4096 = 0 ∧ c.capacity ≤ 2 ^ (8 * c.addrBytes)) ∧
  (c.addrBytes = 3 ∨ c.addrBytes = 4) ∧
  c.pageSize ∈ (List.range 17).map (2 ^ ·) ∧
  c.eraseSet = [sectorSize, blockSize] ∧
  c.opc.toList.Nodup ∧
  1 ≤ c.pollMax ∧
  (c.busyMask ≠ 0 ∧ c.welMask ≠ 0 ∧ c.busyMask &&& c.welMask = 0) ∧
  (1 ≤ c.idLen ∧ c.idLen ≤ 4) ∧
  (c.uidLen = 8 ∨ c.uidLen = 16) ∧
  c.uidDummy ≤ 8

/-- The check of R284: a model refuses a configuration it answers `false` for. -/
def Cfg.wf (c : Cfg) : Bool := decide c.Legal

/-- CFG0 of spec/95_test_vectors.md: the bracketed test defaults of R9 where R9 leaves a field OPEN
(DESIGN CHOICE, notes/assumptions/2.md). -/
def Cfg.cfg0 : Cfg :=
  { capacity := 0x1000000, addrBytes := 3, pageSize := 256, eraseSet := [sectorSize, blockSize],
    opc := Opcodes.table, pollMax := 4, busyMask := 0x01, welMask := 0x02, idLen := 3, uidLen := 8, uidDummy := 4 }

/-- The transport's own error value, opaque to the block (R33, R243): a token it only copies. -/
structure TransportError where
  token : Nat
deriving DecidableEq, Repr, Inhabited

/-- How the transport ends a frame (spec/20_memory.md R88): it succeeds, or it fails with an error value, the device
having received the frame or not. -/
inductive Transport where
  | ok
  | fail (e : TransportError) (received : Bool)
deriving DecidableEq, Repr, Inhabited

/-- Whose step comes next (R20): the controller's, the device's completion of an operation (R72, R73), or the reset
event from outside (spec/70_reset_and_hazards.md R280). -/
inductive Turn where
  | controller
  | device
  | reset
deriving DecidableEq, Repr, Inhabited

/-- What the environment chooses for one step (R21). -/
structure EnvInput where
  turn       : Turn
  transport  : Transport
  statusBits : Byte
deriving DecidableEq, Repr, Inhabited

/-- The environment's choice at a step for which no choice stands in the state: a free value, drawn by number.
Nothing constrains it (notes/assumptions/4.md). -/
opaque Config.freeInput : Nat → EnvInput

end Sys2Proof
end

