-- ==== Sys2Proof/Syntax.lean ====
section
/-! DEFINITION. The instructions: one constructor per row of spec/opcode_table.json (spec/30_encoding.md R110, R116,
R117), the encoder's logical operations (spec/40_command_encoder.md R131) and the transaction descriptor (R101). -/

namespace Sys2Proof

/-- The rows of spec/opcode_table.json. The table has a row for each address width of page-program, sector-erase and
block-erase; the request rows carry the word's address and length fields, which every accept step latches (R25). -/
inductive Instr where
  | wren
  | rdsr
  | pp3 (a : BitVec 24) (data : List Byte)
  | se3 (a : BitVec 24)
  | be3 (a : BitVec 24)
  | pp4 (a : BitVec 32) (data : List Byte)
  | se4 (a : BitVec 32)
  | be4 (a : BitVec 32)
  | rdid
  | ruid
  | writeStream (a l : U32)
  | readId (a l : U32)
  | readUniqueId (a l : U32)
  | reservedOp0 (a l : U32)
deriving DecidableEq, Repr

/-- The encoder's logical operations (R131). An erase carries its size, which the encoder checks (R139). -/
inductive LogicalOp where
  | writeEnable
  | readStatus
  | pageProgram (a : Nat) (data : List Byte)
  | erase (size a : Nat)
  | readId
  | readUniqueId
deriving DecidableEq, Repr

/-- The transaction descriptor (R101), in the transport primitive's argument order. -/
structure Descriptor where
  commandBytes : List Byte
  writePayload : List Byte
  readLen      : Nat
deriving DecidableEq, Repr

/-- The two encoding levels (R100): a frame toward the bus, a request word from the host. -/
inductive Encoded where
  | frame (d : Descriptor)
  | request (w : BitVec 66)
deriving DecidableEq, Repr

/-- Why bytes are no command. -/
inductive DecodeError where
  /-- no byte at all -/
  | emptyFrame
  /-- a first byte that is none of the seven (R112, U5) -/
  | unknownOpcode (b : Byte)
  /-- a length that is not the one its opcode and the configuration give (R109) -/
  | wrongLength
  /-- an `expected_read_len` that is not the command's (R105) -/
  | wrongReadLength
deriving DecidableEq, Repr

end Sys2Proof
end

