-- ==== Sys2Proof/WellFormed.lean ====
section
/-! DEFINITION. The preconditions of the Command Encoder (spec/40_command_encoder.md R134 to R136, R140): the check that
refuses, by name, an instruction the encoder must not be asked for (spec/93_implementation_defined.md U7). -/

namespace Sys2Proof

/-- What is wrong with an instruction, or with a call of the encoder, under a configuration. -/
inductive IllFormed where
  /-- the row's address width is not `CFG.ADDR_BYTES` (R106) -/
  | addressWidth
  /-- an address that `CFG.ADDR_BYTES` bytes cannot carry (R106, R140): of a call of the encoder only, since an
  instruction's address has its row's width -/
  | addressTooLarge
  /-- an erase address not aligned to its size (R65, R135, R136) -/
  | eraseMisaligned
  /-- an erase unit that ends beyond `CFG.CAPACITY` (R135, R136) -/
  | eraseBeyondCapacity
  /-- a page-program without data (R134) -/
  | payloadEmpty
  /-- a page-program of more than `CFG.PAGE_SIZE` bytes (R134) -/
  | payloadTooLong
  /-- a page-program that crosses a page boundary (R108, R134) -/
  | payloadCrossesPage
  /-- a page-program that ends beyond `CFG.CAPACITY` (R134) -/
  | programBeyondCapacity
deriving DecidableEq, Repr

/-- The preconditions of `SE` and `BE` (R135, R136) for a row of `width` address bytes. -/
def eraseIllFormed (c : Cfg) (width size a : Nat) : Option IllFormed :=
  if c.addrBytes ≠ width then some .addressWidth
  else if a % size ≠ 0 then some .eraseMisaligned
  else if c.capacity < a + size then some .eraseBeyondCapacity
  else none

/-- The preconditions of `PP` (R134) for a row of `width` address bytes and `n` bytes of data. -/
def programIllFormed (c : Cfg) (width a n : Nat) : Option IllFormed :=
  if c.addrBytes ≠ width then some .addressWidth
  else if n = 0 then some .payloadEmpty
  else if c.pageSize < n then some .payloadTooLong
  else if c.pageSize < a % c.pageSize + n then some .payloadCrossesPage
  else if c.capacity < a + n then some .programBeyondCapacity
  else none

/-- What is wrong with `i` under `c`, if anything (R140, U7). -/
def Instr.illFormed? (c : Cfg) : Instr → Option IllFormed
  | .wren => none
  | .rdsr => none
  | .pp3 a data => programIllFormed c 3 a.toNat data.length
  | .se3 a => eraseIllFormed c 3 sectorSize a.toNat
  | .be3 a => eraseIllFormed c 3 blockSize a.toNat
  | .pp4 a data => programIllFormed c 4 a.toNat data.length
  | .se4 a => eraseIllFormed c 4 sectorSize a.toNat
  | .be4 a => eraseIllFormed c 4 blockSize a.toNat
  | .rdid => none
  | .ruid => none
  | .writeStream _ _ => none
  | .readId _ _ => none
  | .readUniqueId _ _ => none
  | .reservedOp0 _ _ => none

/-- `i` is an instruction the encoder may be asked for under `c`. -/
def Instr.wf (c : Cfg) (i : Instr) : Bool := (i.illFormed? c).isNone

end Sys2Proof
end

