-- ==== Sys2Proof/Decode.lean ====
section
/-! DEFINITION. Encodings (spec/30_encoding.md, spec/40_command_encoder.md): the frame formats, the decoder of a command
(total on any bytes, refusing by name), the decoder of a request word, the encoder of both, the Command Encoder
`Encode` of R130, and the host's numbering of spec/opcode_table.json's words. -/

namespace Sys2Proof

/-! ## Byte sequences (spec/00_scope.md R12) -/

/-- `be_N(v)` (R12): the N-byte big-endian sequence of `v mod 2^(8N)`. -/
def beBytes : Nat → Nat → List Byte
  | 0, _ => []
  | n + 1, v => BitVec.ofNat 8 (v / 256 ^ n) :: beBytes n v

/-- `frombe(s)` (R12): the first byte is the most significant. -/
def fromBe : List Byte → Nat
  | [] => 0
  | b :: bs => b.toNat * 256 ^ bs.length + fromBe bs

/-! ## Frame formats (R105) -/

/-- Format `OP`. -/
def frameOp (opc : Byte) : Descriptor := ⟨[opc], [], 0⟩

/-- Format `OP_R`, reading `r` bytes. -/
def frameOpR (opc : Byte) (r : Nat) : Descriptor := ⟨[opc], [], r⟩

/-- Format `OP_A` with `n` address bytes. -/
def frameOpA (n : Nat) (opc : Byte) (a : Nat) : Descriptor := ⟨opc :: beBytes n a, [], 0⟩

/-- Format `OP_A_D` with `n` address bytes. -/
def frameOpAD (n : Nat) (opc : Byte) (a : Nat) (data : List Byte) : Descriptor := ⟨opc :: beBytes n a, data, 0⟩

/-- Format `OP_Z_R` with `z` dummy bytes (R107), reading `r` bytes. -/
def frameOpZR (opc : Byte) (z r : Nat) : Descriptor := ⟨opc :: List.replicate z 0, [], r⟩

/-! ## The command decoder -/

/-- How many bytes the device returns to a command (R105, R109). -/
def replyLen (c : Cfg) : Instr → Nat
  | .rdsr => 1
  | .rdid => c.idLen
  | .ruid => c.uidLen
  | _ => 0

/-- A command that is its opcode alone (formats `OP`, `OP_R`). -/
def decodeBare (i : Instr) (rest : List Byte) : Except DecodeError Instr :=
  match rest with
  | [] => .ok i
  | _ :: _ => .error .wrongLength

/-- An erase command: exactly `CFG.ADDR_BYTES` address bytes, the most significant first (R64, R105). -/
def decodeErase (c : Cfg) (k3 : BitVec 24 → Instr) (k4 : BitVec 32 → Instr) (rest : List Byte) :
    Except DecodeError Instr :=
  if rest.length ≠ c.addrBytes then .error .wrongLength
  else if c.addrBytes = 3 then .ok (k3 (BitVec.ofNat 24 (fromBe rest)))
  else if c.addrBytes = 4 then .ok (k4 (BitVec.ofNat 32 (fromBe rest)))
  else .error .wrongLength

/-- A page-program: `CFG.ADDR_BYTES` address bytes, then payload until chip-select goes inactive (R105, R109). -/
def decodeProgram (c : Cfg) (rest : List Byte) : Except DecodeError Instr :=
  if rest.length < c.addrBytes then .error .wrongLength
  else if c.addrBytes = 3 then .ok (.pp3 (BitVec.ofNat 24 (fromBe (rest.take 3))) (rest.drop 3))
  else if c.addrBytes = 4 then .ok (.pp4 (BitVec.ofNat 32 (fromBe (rest.take 4))) (rest.drop 4))
  else .error .wrongLength

/-- The command in one frame's byte stream (R102, R109): the first byte selects it (R110). The values of the dummy
bytes of read-unique-id are ignored (spec/20_memory.md R76), their number is not. -/
def decodeBytes (c : Cfg) : List Byte → Except DecodeError Instr
  | [] => .error .emptyFrame
  | b :: rest =>
    if b = c.opc.wren then decodeBare .wren rest
    else if b = c.opc.rdsr then decodeBare .rdsr rest
    else if b = c.opc.pp then decodeProgram c rest
    else if b = c.opc.se then decodeErase c .se3 .se4 rest
    else if b = c.opc.be then decodeErase c .be3 .be4 rest
    else if b = c.opc.rdid then decodeBare .rdid rest
    else if b = c.opc.ruid then if rest.length = c.uidDummy then .ok .ruid else .error .wrongLength
    else .error (.unknownOpcode b)

/-- The command of a descriptor: the device sees `command_bytes ++ write_payload` as one byte stream (R102), and the
number of bytes read must be the command's (R105). -/
def decodeFrame (c : Cfg) (d : Descriptor) : Except DecodeError Instr :=
  match decodeBytes c (d.commandBytes ++ d.writePayload) with
  | .error e => .error e
  | .ok i => if d.readLen = replyLen c i then .ok i else .error .wrongReadLength

/-! ## The request word (R115, R116, R117) -/

/-- `REQ[65:64]`. -/
def requestOp (w : BitVec 66) : BitVec 2 := w.extractLsb' 64 2

/-- `REQ[63:32]`. -/
def requestAddr (w : BitVec 66) : U32 := w.extractLsb' 32 32

/-- `REQ[31:0]`. -/
def requestLen (w : BitVec 66) : U32 := w.extractLsb' 0 32

/-- The request word with these three fields. -/
def requestWord (op : BitVec 2) (a l : U32) : BitVec 66 := (op ++ a ++ l : BitVec (2 + 32 + 32))

/-- Every request word names an operation or the reserved code (R116, R117). -/
def decodeRequest (w : BitVec 66) : Instr :=
  if requestOp w = 1 then .writeStream (requestAddr w) (requestLen w)
  else if requestOp w = 2 then .readId (requestAddr w) (requestLen w)
  else if requestOp w = 3 then .readUniqueId (requestAddr w) (requestLen w)
  else .reservedOp0 (requestAddr w) (requestLen w)

/-! ## Both levels -/

/-- The decoder of either level (R100). -/
def decode (c : Cfg) : Encoded → Except DecodeError Instr
  | .frame d => decodeFrame c d
  | .request w => .ok (decodeRequest w)

/-- The encoding of an instruction (R105, R115; the rows of spec/opcode_table.json). -/
def encode (c : Cfg) : Instr → Encoded
  | .wren => .frame (frameOp c.opc.wren)
  | .rdsr => .frame (frameOpR c.opc.rdsr 1)
  | .pp3 a data => .frame (frameOpAD 3 c.opc.pp a.toNat data)
  | .se3 a => .frame (frameOpA 3 c.opc.se a.toNat)
  | .be3 a => .frame (frameOpA 3 c.opc.be a.toNat)
  | .pp4 a data => .frame (frameOpAD 4 c.opc.pp a.toNat data)
  | .se4 a => .frame (frameOpA 4 c.opc.se a.toNat)
  | .be4 a => .frame (frameOpA 4 c.opc.be a.toNat)
  | .rdid => .frame (frameOpR c.opc.rdid c.idLen)
  | .ruid => .frame (frameOpZR c.opc.ruid c.uidDummy c.uidLen)
  | .writeStream a l => .request (requestWord 1 a l)
  | .readId a l => .request (requestWord 2 a l)
  | .readUniqueId a l => .request (requestWord 3 a l)
  | .reservedOp0 a l => .request (requestWord 0 a l)

/-! ## The Command Encoder (R130, R139, R141) -/

/-- `Encode(op, args)` (R130): total, without side effects; its one failure is `UnsupportedOperation(size)` for an erase
size not in `CFG.ERASE_SET` (R139). Violated preconditions raise nothing (R140); the machine refuses such a call
(`LogicalOp.illFormed?`). -/
def encodeOp (c : Cfg) : LogicalOp → Except Nat Descriptor
  | .writeEnable => .ok (frameOp c.opc.wren)
  | .readStatus => .ok (frameOpR c.opc.rdsr 1)
  | .pageProgram a data => .ok (frameOpAD c.addrBytes c.opc.pp a data)
  | .erase size a =>
    if size = sectorSize ∧ sectorSize ∈ c.eraseSet then .ok (frameOpA c.addrBytes c.opc.se a)
    else if size = blockSize ∧ blockSize ∈ c.eraseSet then .ok (frameOpA c.addrBytes c.opc.be a)
    else .error size
  | .readId => .ok (frameOpR c.opc.rdid c.idLen)
  | .readUniqueId => .ok (frameOpZR c.opc.ruid c.uidDummy c.uidLen)

/-- What is wrong with a call `Encode(op, args)` (R140, U7), if anything: an address that the address bytes cannot carry,
or a violated precondition of R134 to R136. An erase size outside `CFG.ERASE_SET` is not one of these: the encoder
answers it with its error (R139). -/
def LogicalOp.illFormed? (c : Cfg) : LogicalOp → Option IllFormed
  | .writeEnable => none
  | .readStatus => none
  | .pageProgram a data =>
    if 2 ^ (8 * c.addrBytes) ≤ a then some .addressTooLarge else programIllFormed c c.addrBytes a data.length
  | .erase size a =>
    if size ∉ c.eraseSet then none
    else if 2 ^ (8 * c.addrBytes) ≤ a then some .addressTooLarge
    else eraseIllFormed c c.addrBytes size a
  | .readId => none
  | .readUniqueId => none

/-! ## The host's numbering of the table's words -/

/-- The configuration under which a table row of `nbits` bits is read: CFG0, with 4 address bytes for the rows of more
than 32 bits (`CFG.ADDR_BYTES = 4` in the table's notes). -/
def tableCfg (nbits : Nat) : Cfg :=
  { Cfg.cfg0 with addrBytes := if nbits ≤ 32 then 3 else 4 }

/-- The length of the shortest frame of a first byte (R109; a page-program carries at least one byte of payload, R105). -/
def tableFrameLen (c : Cfg) (b : Byte) : Nat :=
  if b = c.opc.pp then 1 + c.addrBytes + 1
  else if b = c.opc.se ∨ b = c.opc.be then 1 + c.addrBytes
  else if b = c.opc.ruid then 1 + c.uidDummy
  else 1

/-- `n` bytes of `w`, the least significant first. -/
def bytesOfWord : Nat → Nat → List Byte
  | 0, _ => []
  | n + 1, w => BitVec.ofNat 8 w :: bytesOfWord n (w / 256)

/-- The frame a table word stands for: its bytes, the first in bits 7..0, then zeros up to the command's length. -/
def tableFrame (nbits w : Nat) : List Byte :=
  let bytes := bytesOfWord (nbits / 8) w
  bytes ++ List.replicate (tableFrameLen (tableCfg nbits) (bytes.headD 0) - bytes.length) 0

/-- The instruction the decoder reads from a table word. The rows of at most 40 bits are commands, whose bytes are
numbered from the first; the wider rows are request words, numbered as R115 numbers them. -/
def decodeTableWord (nbits w : Nat) : Option Instr :=
  if nbits ≤ 40 then
    match decodeBytes (tableCfg nbits) (tableFrame nbits w) with
    | .ok i => some i
    | .error _ => none
  else if w < 2 ^ 66 then some (decodeRequest (BitVec.ofNat 66 w))
  else none

end Sys2Proof
end

