-- ==== Sys2Proof/Machine/State.lean ====
section
/-! DEFINITION. The state of the machine: the controller's registers (spec/10_state.md R22 to R34, R41), the device's
state (R36 to R40), the host's side of the request port (R25, spec/20_memory.md R62), the record of what went over the
bus (spec/30_encoding.md R104) and the environment's choices (R21); the state after reset; the reasons a step stops. -/

namespace Sys2Proof.Machine

/-- `PHASE` (R26). Codes 10 to 15 are never written. -/
inductive Phase where
  | idle
  | prePoll
  | eraseWren
  | eraseCmd
  | erasePoll
  | progWren
  | progCmd
  | progPoll
  | idCmd
  | uidCmd
deriving DecidableEq, Repr

/-- The content of an address range of the flash array: the addresses that hold a defined byte, rising. An address that
is not listed is indeterminate (R40). -/
abbrev Memory := List Host.Cell

/-- `DEV_STATE` (R37), with the payloads the completion steps use: the operation in progress and, for a program, the
values the bytes held before it (spec/20_memory.md R71). -/
inductive DevState where
  | idle
  | writeEnabled
  | erasing (start size : Nat)
  | programming (a : Nat) (data : List Byte) (old : List (Option Byte))
deriving DecidableEq, Repr

/-- The outcome of a frame (spec/00_scope.md R15). -/
inductive FrameOutcome where
  | ok (bytes : List Byte)
  | err (e : TransportError)
deriving DecidableEq, Repr

/-- A call of one of the two transport primitives (spec/30_encoding.md R103). -/
inductive BusEvent where
  | chipSelect (active : Bool)
  | transact (d : Descriptor) (outcome : FrameOutcome)
deriving DecidableEq, Repr

/-- A request the host holds on the port: the word `REQ` (R25) and the host's data buffer for it (spec/20_memory.md
R62). -/
structure HostRequest where
  word : BitVec 66
  data : List Byte
deriving DecidableEq, Repr

/-- The four error kinds (spec/60_exceptions.md R240), with the information their `raise` carries. -/
inductive ErrorKind where
  | rangeOutOfBounds
  | deviceTimeout
  | transportError (e : TransportError)
  | unsupportedOperation (info : Nat)
deriving DecidableEq, Repr

/-- The state. The fields from `phase` to `cs` are the controller's registers under R41's names; `flash` to `devUid` are
the device's; `host` and `buf` are the host's; `bus`, `launched`, `inputs` and `draws` are the model's own (INVENTORY.md,
State). -/
structure State where
  /-- `CFG` (spec/00_scope.md R8, R9): no step writes it. -/
  cfg        : Cfg
  /-- `PHASE` (R26). -/
  phase      : Phase
  /-- `REQ_OP` (R22). -/
  reqOp      : BitVec 2
  /-- `REQ_ADDR` (R23). -/
  reqAddr    : U32
  /-- `REQ_LEN` (R24). -/
  reqLen     : U32
  /-- `ECUR` (R27). -/
  ecur       : Cursor
  /-- `EEND` (R27). -/
  eend       : Cursor
  /-- `PCUR` (R28). -/
  pcur       : Cursor
  /-- `PEND` (R28). -/
  pend       : Cursor
  /-- `POLLCNT` (R29): as wide as `CFG.POLL_MAX` needs, so a natural. -/
  pollCnt    : Nat
  /-- `MAYBE_BUSY` (R30). -/
  maybeBusy  : Bool
  /-- `ID_VALID` (R31). -/
  idValid    : Bool
  /-- `ID_CODE` (R31). -/
  idCode     : U32
  /-- `ID_RAW` (R31), `CFG.ID_LEN` bytes. -/
  idRaw      : List Byte
  /-- `UID_VALID` (R32). -/
  uidValid   : Bool
  /-- `UID` (R32), `CFG.UID_LEN` bytes. -/
  uid        : List Byte
  /-- `RSP_VALID` (R33). -/
  rspValid   : Bool
  /-- `RSP_STATUS` (R33). -/
  rspStatus  : BitVec 3
  /-- `RSP_VALUE` (R33). -/
  rspValue   : U32
  /-- `RSP_INFO` (R33): the transport's error value, opaque. -/
  rspInfo    : TransportError
  /-- `CS` (R34); `true` is active. -/
  cs         : Bool
  /-- `FLASH` (R36, R40). -/
  flash      : Memory
  /-- `DEV_STATE` (R37). -/
  devState   : DevState
  /-- `DEV_ID` (R39): a constant of the device. -/
  devId      : List Byte
  /-- `DEV_UID` (R39): a constant of the device. -/
  devUid     : List Byte
  /-- The requests the host presents, one at a time; the first is on the port: `REQ_VALID` is that there is one, `REQ`
  is its word (R25). -/
  host       : List HostRequest
  /-- The host's data buffer of the request in progress (spec/20_memory.md R62). -/
  buf        : List Byte
  /-- The transport primitives called so far (spec/30_encoding.md R103, R104), the latest first. -/
  bus        : List BusEvent
  /-- A request has been accepted since reset (spec/70_reset_and_hazards.md R285 speaks of the first one). -/
  launched   : Bool
  /-- The environment's choices for the coming steps (R21), the next first. -/
  inputs     : List EnvInput
  /-- How many steps have been taken: numbers the free choice of a step for which `inputs` holds none. -/
  draws      : Nat
deriving DecidableEq, Repr

/-- What the device was sent that the source gives it no behaviour for (spec/20_memory.md R77, whose letters stand in
brackets). -/
inductive DeviceFault where
  /-- (a) a command other than read-status while an erase or program runs -/
  | commandWhileBusy
  /-- (b) an erase or program without a write-enable before it -/
  | notWriteEnabled
  /-- (c) a page-program with an empty payload -/
  | programEmpty
  /-- (c) a page-program longer than `CFG.PAGE_SIZE` -/
  | programTooLong
  /-- (c) a page-program that would cross a page boundary -/
  | programCrossesPage
  /-- (d) an erase address not aligned to its size -/
  | eraseMisaligned
  /-- (e) an address at or beyond `CFG.CAPACITY` -/
  | beyondCapacity
  /-- (f) an opcode byte that is none of the seven, or a frame that is no command of it -/
  | unknownCommand
deriving DecidableEq, Repr

/-- Why the machine stops. -/
inductive Fault where
  /-- The device fault of R77: raised by every command's meaning when the device receives a frame that R77 lists, and
  by the controller's step when the frame is no command. Safe: the spec calls such a run bad and never final. -/
  | device (f : DeviceFault)
deriving DecidableEq, Repr

/-- Why the model gives a step no meaning. -/
inductive Refusal where
  /-- An instruction without a meaning: raised by no arm of this model. Safe. -/
  | notModelled (mnemonic : String)
  /-- An ill-formed `CFG`, or identification constants whose lengths are not `CFG`'s (spec/70_reset_and_hazards.md
  R284, U13): raised by `step`. Safe. -/
  | illFormedConfig
  /-- A request accepted after reset while the device is not `Idle` (R281, R285, U10): raised by the controller's step.
  Safe. -/
  | deviceNotIdleAtLaunch
  /-- The host's buffer does not hold the bytes of the chunk to program (R286, U11): raised by the controller's step.
  Safe. -/
  | hostBufferTooShort
  /-- A call of the Command Encoder that violates its preconditions (spec/40_command_encoder.md R140,
  spec/93_implementation_defined.md U7): raised by the controller's step. Safe. -/
  | encoderPrecondition (why : IllFormed)
  /-- A frame with another number of address bytes than `CFG.ADDR_BYTES` (spec/30_encoding.md R106): raised by the
  meanings of `SE`, `BE` and `PP`, each row under the other addressing mode. Safe. -/
  | addressingMode
deriving DecidableEq, Repr

/-- The machine right after reset (spec/70_reset_and_hazards.md R280, spec/10_state.md R41): every register at R41's
value; the registers R282 leaves unspecified at zero (DESIGN CHOICE, notes/assumptions/1.md); CFG0 of
spec/95_test_vectors.md (notes/assumptions/2.md); no flash byte known (R283, notes/assumptions/3.md); the device `Idle`
(R285); no request on the port. -/
def State.reset : State :=
  { cfg := Cfg.cfg0
    phase := .idle
    reqOp := 0, reqAddr := 0, reqLen := 0
    ecur := 0, eend := 0, pcur := 0, pend := 0
    pollCnt := 0, maybeBusy := false
    idValid := false, idCode := 0, idRaw := [0, 0, 0]
    uidValid := false, uid := [0, 0, 0, 0, 0, 0, 0, 0]
    rspValid := false, rspStatus := 0, rspValue := 0, rspInfo := ⟨0⟩
    cs := false
    flash := []
    devState := .idle
    devId := [0xEF, 0x40, 0x18]
    devUid := [0xD1, 0x64, 0x38, 0x5B, 0x23, 0x12, 0x34, 0x56]
    host := [], buf := []
    bus := [], launched := false, inputs := [], draws := 0 }

end Sys2Proof.Machine
end

