-- ==== Sys2Proof/Machine/Flags.lean ====
section
/-! DEFINITION. The flags: the device's status byte (spec/10_state.md R38, spec/20_memory.md R74), the controller's test
of it (spec/42_stream_writer.md R193), and the codes of the response registers (spec/60_exceptions.md R240). -/

namespace Sys2Proof.Machine

/-- An erase or program is in progress (R37, R38: what BUSY reads). -/
def DevState.busy : DevState → Bool
  | .idle => false
  | .writeEnabled => false
  | .erasing _ _ => true
  | .programming _ _ _ => true

/-- The write-enable latch (R38: what WEL reads): set in every state but `Idle`. -/
def DevState.latch : DevState → Bool
  | .idle => false
  | .writeEnabled => true
  | .erasing _ _ => true
  | .programming _ _ _ => true

/-- The byte read-status returns (R74); `free` supplies the bits outside the two masks (R38, U6). -/
def statusByte (c : Cfg) (d : DevState) (free : Byte) : Byte :=
  (if d.busy then c.busyMask else 0) ||| (if d.latch then c.welMask else 0) ||| (free &&& ~~~(c.busyMask ||| c.welMask))

/-- A status byte means busy when any bit of `CFG.BUSY_MASK` is set in it (R193). -/
def statusBusy (c : Cfg) (b : Byte) : Bool := b &&& c.busyMask != 0

/-- `RSP_STATUS` codes of the error kinds (R240); 0 is success. -/
def ErrorKind.code : ErrorKind → BitVec 3
  | .rangeOutOfBounds => 1
  | .deviceTimeout => 2
  | .transportError _ => 3
  | .unsupportedOperation _ => 4

/-- The code of a phase (R26). -/
def Phase.code : Phase → BitVec 4
  | .idle => 0
  | .prePoll => 1
  | .eraseWren => 2
  | .eraseCmd => 3
  | .erasePoll => 4
  | .progWren => 5
  | .progCmd => 6
  | .progPoll => 7
  | .idCmd => 8
  | .uidCmd => 9

end Sys2Proof.Machine
end

