-- ==== Sys2Proof/Machine/Operands.lean ====
section
/-! DEFINITION. The operands of the sequencers: rounding (spec/00_scope.md R11), the next erase unit and the next program
chunk (spec/41_erase_unit_planner.md R173), the host's buffer (spec/00_scope.md R14). -/

namespace Sys2Proof.Machine

/-- `floor_k(x)` (R11). -/
def floorTo (k x : Nat) : Nat := x / k * k

/-- `ceil_k(x)` (R11). -/
def ceilTo (k x : Nat) : Nat := (x + k - 1) / k * k

/-- The size of `NextUnit(c, hi)` (R173): a block when `c` is block-aligned and the whole block lies below `hi`. -/
def nextUnitSize (c hi : Nat) : Nat :=
  if c % blockSize = 0 ∧ c + blockSize ≤ hi then blockSize else sectorSize

/-- `NextUnit(c, hi)` (R173), a pair (start, size). -/
def nextUnit (c hi : Nat) : Nat × Nat := (c, nextUnitSize c hi)

/-- The length of `NextChunk(c, e)` (R173) for a page size `p`. -/
def nextChunkLen (p c e : Nat) : Nat := min (e - c) (p - c % p)

/-- `NextChunk(c, e)` (R173), a pair (address, length). -/
def nextChunk (p c e : Nat) : Nat × Nat := (c, nextChunkLen p c e)

/-- `BufRead(a − REQ_ADDR, n)` (R14, R190) for the chunk at flash address `a`: none when those bytes are not in the
host's buffer. -/
def State.bufRead (s : State) (a n : Nat) : Option (List Byte) :=
  if s.reqAddr.toNat ≤ a ∧ a - s.reqAddr.toNat + n ≤ s.buf.length then
    some ((s.buf.drop (a - s.reqAddr.toNat)).take n)
  else none

end Sys2Proof.Machine
end

