-- ==== Sys2Proof/Machine/Ops.lean ====
section
/-! DEFINITION. The shared operations: the flash array, the environment's choice, the bus and its frame
(spec/30_encoding.md R104), the device's reaction to a frame and its completion step (spec/20_memory.md R66 to R77), the
abort and completion sequences (spec/60_exceptions.md R252, R253), the accept step's latch (spec/10_state.md R25) and
the reset event (spec/70_reset_and_hazards.md R280). -/

namespace Sys2Proof

/-! ## How the transport ends a frame -/

/-- The device received the frame (R88): on success always, on failure at the transport's choice. -/
def Transport.received : Transport → Bool
  | .ok => true
  | .fail _ r => r

/-- The frame's outcome when the device would answer `bytes` (R82, R88): the bytes of a failed frame are discarded. -/
def Transport.outcome : Transport → List Byte → Machine.FrameOutcome
  | .ok, bytes => .ok bytes
  | .fail e _, _ => .err e

end Sys2Proof

namespace Sys2Proof.Machine

/-! ## The flash array -/

/-- What an address reads as that memory does not list: no value (R40, R283; notes/assumptions/3.md). -/
def Memory.unlisted : Option Byte := none

/-- One byte of the array: `FLASH[x]` (R14), none while it is indeterminate. -/
def Memory.read : Memory → Nat → Option Byte
  | [], _ => Memory.unlisted
  | (k, v) :: m, x => if k = x then some v else Memory.read m x

/-- The canonical form: addresses strictly rising. No entry can equal what an unlisted address reads as, since that is
no value. -/
abbrev Memory.wf (m : Memory) : Prop := m.Pairwise (fun x y => x.1 < y.1)

/-- The entries below `a`. -/
def Memory.below (m : Memory) (a : Nat) : Memory := m.filter (fun c => decide (c.1 < a))

/-- The entries at or above `a`. -/
def Memory.above (m : Memory) (a : Nat) : Memory := m.filter (fun c => decide (a ≤ c.1))

/-- `MemRead(a, n)` (R14), byte by byte; only the entries of the range are searched. -/
def Memory.readRange (m : Memory) (a n : Nat) : List (Option Byte) :=
  (List.range' a n).map ((m.above a).below (a + n)).read

/-- The entries that give the addresses from `a` on these values. -/
def cellsFrom : Nat → List (Option Byte) → Memory
  | _, [] => []
  | a, none :: vs => cellsFrom (a + 1) vs
  | a, some b :: vs => (a, b) :: cellsFrom (a + 1) vs

/-- `MemWrite(a, len(vs), vs)` (R14), an absent value making its byte indeterminate. -/
def Memory.write (m : Memory) (a : Nat) (vs : List (Option Byte)) : Memory :=
  m.below a ++ (cellsFrom a vs ++ m.above (a + vs.length))

/-- The bytes `[a, a+n)` become indeterminate (R40). -/
def Memory.forget (m : Memory) (a n : Nat) : Memory := m.below a ++ m.above (a + n)

/-! ## The environment's choice -/

/-- What the environment chooses for this step: the next choice that stands in the state, else a free value. -/
def State.input (s : State) : EnvInput :=
  match s.inputs with
  | e :: _ => e
  | [] => Config.freeInput s.draws

/-- One step has passed: its choice is used up. -/
def State.tick (s : State) : State := { s with inputs := s.inputs.tail, draws := s.draws + 1 }

/-! ## The abort and completion sequences, and the accept step's latch -/

/-- `raise K(info)` (R252). -/
def raise (k : ErrorKind) (s : State) : State :=
  { s with
    rspStatus := k.code
    rspValue := 0
    rspInfo := match k with
      | .transportError e => e
      | _ => s.rspInfo
    rspValid := true
    phase := .idle }

/-- `respond Ok(v)` (R253). -/
def respond (v : U32) (s : State) : State :=
  { s with rspStatus := 0, rspValue := v, rspValid := true, phase := .idle }

/-- What every accept step does first (R25): latch the word, clear `RSP_VALID`. -/
def latchRequest (op : BitVec 2) (a l : U32) (s : State) : State :=
  { s with reqOp := op, reqAddr := a, reqLen := l, rspValid := false }

/-- The reset event (R280): every controller register at its reset value, R282's at the value `State.reset` names for
them (notes/assumptions/1.md), the identification registers as wide as `CFG` says; the configuration, the device and
the host are not touched (R283). -/
def controllerReset (s : State) : State :=
  { State.reset with
    cfg := s.cfg
    idRaw := List.replicate s.cfg.idLen 0
    uid := List.replicate s.cfg.uidLen 0
    flash := s.flash, devState := s.devState, devId := s.devId, devUid := s.devUid
    host := s.host, buf := s.buf, bus := s.bus, inputs := s.inputs, draws := s.draws }

/-! ## The device's reaction to a frame -/

/-- What the device does on a frame it accepts: its next state, the array, the bytes it returns. -/
structure DeviceReply where
  devState : DevState
  flash    : Memory
  bytes    : List Byte

/-- Write-enable (R69). -/
def devWriteEnable (s : State) : Except DeviceFault DeviceReply :=
  match s.devState with
  | .idle => .ok ⟨.writeEnabled, s.flash, []⟩
  | .writeEnabled => .ok ⟨.writeEnabled, s.flash, []⟩
  | .erasing _ _ => .error .commandWhileBusy
  | .programming _ _ _ => .error .commandWhileBusy

/-- An erase of the unit at `a` (R70). -/
def devErase (size a : Nat) (s : State) : Except DeviceFault DeviceReply :=
  match s.devState with
  | .idle => .error .notWriteEnabled
  | .writeEnabled =>
    if a % size ≠ 0 then .error .eraseMisaligned
    else if s.cfg.capacity < a + size then .error .beyondCapacity
    else .ok ⟨.erasing a size, s.flash.forget a size, []⟩
  | .erasing _ _ => .error .commandWhileBusy
  | .programming _ _ _ => .error .commandWhileBusy

/-- A page-program of `data` at `a` (R71): the device remembers the old bytes. -/
def devProgram (a : Nat) (data : List Byte) (s : State) : Except DeviceFault DeviceReply :=
  match s.devState with
  | .idle => .error .notWriteEnabled
  | .writeEnabled =>
    if data.length = 0 then .error .programEmpty
    else if s.cfg.pageSize < data.length then .error .programTooLong
    else if s.cfg.pageSize < a % s.cfg.pageSize + data.length then .error .programCrossesPage
    else if s.cfg.capacity < a + data.length then .error .beyondCapacity
    else .ok ⟨.programming a data (s.flash.readRange a data.length), s.flash.forget a data.length, []⟩
  | .erasing _ _ => .error .commandWhileBusy
  | .programming _ _ _ => .error .commandWhileBusy

/-- Read-status (R74): accepted in every device state. -/
def devReadStatus (s : State) : Except DeviceFault DeviceReply :=
  .ok ⟨s.devState, s.flash, [statusByte s.cfg s.devState s.input.statusBits]⟩

/-- Read-id and read-unique-id (R75, R76): the device answers its constant `ident`. -/
def devIdentify (ident : List Byte) (s : State) : Except DeviceFault DeviceReply :=
  if s.devState.busy then .error .commandWhileBusy else .ok ⟨s.devState, s.flash, ident⟩

/-! ## The device's own step -/

/-- The program law (R67, R73): a byte keeps only the bits that both the old value and the data have; over an
indeterminate byte the result is indeterminate. -/
def programByte (old : Option Byte) (d : Byte) : Option Byte := old.map (· &&& d)

/-- The completion of the operation in progress (R72, R73), a step of the device. -/
def deviceComplete (s : State) : State :=
  match s.devState with
  | .idle => s
  | .writeEnabled => s
  | .erasing a size => { s with flash := s.flash.write a (List.replicate size (some 0xFF)), devState := .idle }
  | .programming a data old => { s with flash := s.flash.write a (List.zipWith programByte old data), devState := .idle }

/-! ## The frame -/

/-- `chip_select(active)` (R34, R103). -/
def chipSelect (active : Bool) (s : State) : State := { s with cs := active, bus := .chipSelect active :: s.bus }

/-- The call of `transact` as it stands on the bus (R103). -/
def recordTransact (d : Descriptor) (o : FrameOutcome) (s : State) : State := { s with bus := .transact d o :: s.bus }

/-- The controller's side of a frame (R104): select, transact, release, the release on error too. -/
def busFrame (d : Descriptor) (o : FrameOutcome) (s : State) : State :=
  chipSelect false (recordTransact d o (chipSelect true s))

/-- The device's side of a frame it accepts: it acts if it received it (R88). -/
def deliver (r : DeviceReply) (s : State) : State :=
  { s with
    devState := if s.input.transport.received then r.devState else s.devState
    flash := if s.input.transport.received then r.flash else s.flash }

/-- `Frame(d)` (R104) followed by what the sending step does with the outcome (`after`). A frame that R77 lists, if the
device receives it, is a device fault. -/
def sendFrame (d : Descriptor) (reply : Except DeviceFault DeviceReply) (after : FrameOutcome → State → State)
    (s : State) : Host.Outcome State Fault Refusal :=
  match reply with
  | .ok r =>
    .next (after (s.input.transport.outcome r.bytes) (busFrame d (s.input.transport.outcome r.bytes) (deliver r s)))
  | .error f =>
    if s.input.transport.received then .fault (.device f)
    else .next (after (s.input.transport.outcome []) (busFrame d (s.input.transport.outcome []) s))

/-- Apply a function to the state of a step that goes on. -/
def onNext (f : State → State) : Host.Outcome State Fault Refusal → Host.Outcome State Fault Refusal
  | .next t => .next (f t)
  | .fault r => .fault r
  | .refused r => .refused r

end Sys2Proof.Machine
end

