-- ==== Sys2Proof/Machine/StreamWriter.lean ====
section
/-! DEFINITION. The Stream Writer's instructions (spec/42_stream_writer.md): the accept steps of WRITE_STREAM and of the
reserved code, and the commands its sequencers and its arbiter send: WREN, SE, BE, PP, RDSR. -/

namespace Sys2Proof.Machine

/-! ## What the sending steps do with the outcome -/

/-- R186, R189: after a write-enable the sequencer goes on to the command it enables. -/
def afterWriteEnable (o : FrameOutcome) (s : State) : State :=
  match o with
  | .err e => raise (.transportError e) s
  | .ok _ =>
    match s.phase with
    | .eraseWren => { s with phase := .eraseCmd }
    | .progWren => { s with phase := .progCmd }
    | _ => s

/-- R187: `MAYBE_BUSY` is set on either outcome. -/
def afterErase (size : Nat) (o : FrameOutcome) (s : State) : State :=
  match o with
  | .err e => raise (.transportError e) { s with maybeBusy := true }
  | .ok _ =>
    { s with maybeBusy := true, ecur := s.ecur + BitVec.ofNat 33 size, pollCnt := 0, phase := .erasePoll }

/-- R190: `MAYBE_BUSY` is set on either outcome. -/
def afterProgram (n : Nat) (o : FrameOutcome) (s : State) : State :=
  match o with
  | .err e => raise (.transportError e) { s with maybeBusy := true }
  | .ok _ =>
    { s with maybeBusy := true, pcur := s.pcur + BitVec.ofNat 33 n, pollCnt := 0, phase := .progPoll }

/-- How an episode that ended not busy goes on (R188, R191, R195). -/
def leaveEpisode (s : State) : State :=
  match s.phase with
  | .erasePoll => { s with phase := if s.ecur < s.eend then .eraseWren else .progWren }
  | .progPoll => if s.pcur < s.pend then { s with phase := .progWren } else respond s.reqLen s
  | .prePoll =>
    if s.reqOp = 1 then { s with phase := .eraseWren }
    else if s.reqOp = 2 then { s with phase := .idCmd }
    else if s.reqOp = 3 then { s with phase := .uidCmd }
    else s
  | _ => s

/-- The poll step on a status byte (R193, R194). -/
def pollByte (b : Byte) (s : State) : State :=
  if statusBusy s.cfg b then
    if s.pollCnt + 1 = s.cfg.pollMax then raise .deviceTimeout s else { s with pollCnt := s.pollCnt + 1 }
  else leaveEpisode { s with maybeBusy := false, pollCnt := 0 }

/-- R193: a failed status frame is a TransportError whatever the count (R247). A successful one carries one byte
(R15, R74). -/
def afterStatus (o : FrameOutcome) (s : State) : State :=
  match o with
  | .err e => raise (.transportError e) s
  | .ok bytes => pollByte (bytes.headD 0) s

/-! ## The commands -/

/-- An erase of `size` bytes at `a` with an address of `n` bytes (R70, R135, R136, R187). -/
def eraseCommand (n : Nat) (opc : Byte) (size a : Nat) (s : State) : Host.Outcome State Fault Refusal :=
  if s.cfg.addrBytes = n then sendFrame (frameOpA n opc a) (devErase size a s) (afterErase size) s
  else .refused .addressingMode

/-- A page-program of `data` at `a` with an address of `n` bytes (R71, R134, R190). -/
def programCommand (n a : Nat) (data : List Byte) (s : State) : Host.Outcome State Fault Refusal :=
  if s.cfg.addrBytes = n then
    sendFrame (frameOpAD n s.cfg.opc.pp a data) (devProgram a data s) (afterProgram data.length) s
  else .refused .addressingMode

/-- WREN (R132): the steps of R186 and R189. -/
def execWren (s : State) : Host.Outcome State Fault Refusal :=
  sendFrame (frameOp s.cfg.opc.wren) (devWriteEnable s) afterWriteEnable s

/-- RDSR (R133): the poll step of R193. -/
def execRdsr (s : State) : Host.Outcome State Fault Refusal :=
  sendFrame (frameOpR s.cfg.opc.rdsr 1) (devReadStatus s) afterStatus s

/-- PP with 3 address bytes (R134): the step of R190. -/
def execPp3 (a : BitVec 24) (data : List Byte) (s : State) : Host.Outcome State Fault Refusal :=
  programCommand 3 a.toNat data s

/-- SE with 3 address bytes (R135): the step of R187 for a 4096-byte unit. -/
def execSe3 (a : BitVec 24) (s : State) : Host.Outcome State Fault Refusal :=
  eraseCommand 3 s.cfg.opc.se sectorSize a.toNat s

/-- BE with 3 address bytes (R136): the step of R187 for a 65536-byte unit. -/
def execBe3 (a : BitVec 24) (s : State) : Host.Outcome State Fault Refusal :=
  eraseCommand 3 s.cfg.opc.be blockSize a.toNat s

/-- PP with 4 address bytes (R134): the step of R190. -/
def execPp4 (a : BitVec 32) (data : List Byte) (s : State) : Host.Outcome State Fault Refusal :=
  programCommand 4 a.toNat data s

/-- SE with 4 address bytes (R135): the step of R187 for a 4096-byte unit. -/
def execSe4 (a : BitVec 32) (s : State) : Host.Outcome State Fault Refusal :=
  eraseCommand 4 s.cfg.opc.se sectorSize a.toNat s

/-- BE with 4 address bytes (R136): the step of R187 for a 65536-byte unit. -/
def execBe4 (a : BitVec 32) (s : State) : Host.Outcome State Fault Refusal :=
  eraseCommand 4 s.cfg.opc.be blockSize a.toNat s

/-! ## The requests -/

/-- The accept step of WRITE_STREAM (R181, R182), after the latch: the bound check first, in naturals; then the empty
request; then the cursors, and the pre-poll if the device may be busy. -/
def acceptWrite (a l : U32) (s : State) : State :=
  if s.cfg.capacity < a.toNat + l.toNat then raise .rangeOutOfBounds s
  else if l = 0 then respond 0 s
  else
    { s with
      ecur := BitVec.ofNat 33 (floorTo sectorSize a.toNat)
      eend := BitVec.ofNat 33 (ceilTo sectorSize (a.toNat + l.toNat))
      pcur := BitVec.ofNat 33 a.toNat
      pend := BitVec.ofNat 33 (a.toNat + l.toNat)
      pollCnt := 0
      phase := if s.maybeBusy then .prePoll else .eraseWren }

/-- A request is accepted in `IDLE` only; elsewhere it is held and changes nothing (R25). -/
def whenIdle (accept : State → State) (s : State) : Host.Outcome State Fault Refusal :=
  if s.phase = .idle then .next (accept s) else .next s

/-- WRITE_STREAM (R181). -/
def execWriteStream (a l : U32) (s : State) : Host.Outcome State Fault Refusal :=
  whenIdle (fun s => acceptWrite a l (latchRequest 1 a l s)) s

/-- The reserved request code 0 (R117). -/
def execReservedOp0 (a l : U32) (s : State) : Host.Outcome State Fault Refusal :=
  whenIdle (fun s => raise (.unsupportedOperation 0) (latchRequest 0 a l s)) s

end Sys2Proof.Machine
end

