-- ==== Sys2Proof/Machine/Identification.lean ====
section
/-! DEFINITION. The Identification Module's instructions (spec/43_identification.md): the accept steps of READ_ID and
READ_UNIQUE_ID, and the commands RDID and RUID. -/

namespace Sys2Proof.Machine

/-- The ID code of the bytes received (R223): big-endian, zero-extended. -/
def idCodeOf (bytes : List Byte) : U32 := BitVec.ofNat 32 (fromBe bytes)

/-- R222: a failed exchange leaves the cache as it is; a successful one fills it and ends the request. -/
def afterReadId (o : FrameOutcome) (s : State) : State :=
  match o with
  | .err e => raise (.transportError e) s
  | .ok bytes => respond (idCodeOf bytes) { s with idRaw := bytes, idCode := idCodeOf bytes, idValid := true }

/-- R225: the identifier is delivered in `UID`, the response value is 0. -/
def afterReadUniqueId (o : FrameOutcome) (s : State) : State :=
  match o with
  | .err e => raise (.transportError e) s
  | .ok bytes => respond 0 { s with uid := bytes, uidValid := true }

/-- RDID (R137): the step of R222. -/
def execRdid (s : State) : Host.Outcome State Fault Refusal :=
  sendFrame (frameOpR s.cfg.opc.rdid s.cfg.idLen) (devIdentify s.devId s) afterReadId s

/-- RUID (R138): the step of R225. -/
def execRuid (s : State) : Host.Outcome State Fault Refusal :=
  sendFrame (frameOpZR s.cfg.opc.ruid s.cfg.uidDummy s.cfg.uidLen) (devIdentify s.devUid s) afterReadUniqueId s

/-- A query accepted with no cached answer (R221, R224): it starts in `cmd`, after a pre-poll if the device may be
busy. -/
def startQuery (cmd : Phase) (s : State) : State :=
  { s with pollCnt := 0, phase := if s.maybeBusy then .prePoll else cmd }

/-- READ_ID (R221): a cached code is answered without a frame. -/
def execReadId (a l : U32) (s : State) : Host.Outcome State Fault Refusal :=
  whenIdle (fun s =>
    if s.idValid then respond s.idCode (latchRequest 2 a l s) else startQuery .idCmd (latchRequest 2 a l s)) s

/-- READ_UNIQUE_ID (R224): a cached identifier is answered without a frame. -/
def execReadUniqueId (a l : U32) (s : State) : Host.Outcome State Fault Refusal :=
  whenIdle (fun s =>
    if s.uidValid then respond 0 (latchRequest 3 a l s) else startQuery .uidCmd (latchRequest 3 a l s)) s

end Sys2Proof.Machine
end

