-- ==== Sys2Proof/Machine/Dispatch.lean ====
section
/-! DEFINITION. The meaning of every instruction of spec/opcode_table.json, one arm each. -/

namespace Sys2Proof.Machine

def exec (i : Instr) (s : State) : Host.Outcome State Fault Refusal :=
  match i with
  | .wren => Sys2Proof.Machine.execWren s
  | .rdsr => Sys2Proof.Machine.execRdsr s
  | .pp3 a data => Sys2Proof.Machine.execPp3 a data s
  | .se3 a => Sys2Proof.Machine.execSe3 a s
  | .be3 a => Sys2Proof.Machine.execBe3 a s
  | .pp4 a data => Sys2Proof.Machine.execPp4 a data s
  | .se4 a => Sys2Proof.Machine.execSe4 a s
  | .be4 a => Sys2Proof.Machine.execBe4 a s
  | .rdid => Sys2Proof.Machine.execRdid s
  | .ruid => Sys2Proof.Machine.execRuid s
  | .writeStream a l => Sys2Proof.Machine.execWriteStream a l s
  | .readId a l => Sys2Proof.Machine.execReadId a l s
  | .readUniqueId a l => Sys2Proof.Machine.execReadUniqueId a l s
  | .reservedOp0 a l => Sys2Proof.Machine.execReservedOp0 a l s

end Sys2Proof.Machine
end

