-- ==== Sys2Proof/Machine/Planner.lean ====
section
/-! DEFINITION. The two pure functions of spec/41_erase_unit_planner.md: `Plan` (R160 to R169) and `Pages` (R171, R172).
The sequencers evaluate them one element at a time (R173). -/

namespace Sys2Proof.Machine

/-- The loop of R164 from cursor `c`, for at most `fuel` units. -/
def planFrom (hi : Nat) : Nat → Nat → List (Nat × Nat)
  | 0, _ => []
  | fuel + 1, c => if c < hi then nextUnit c hi :: planFrom hi fuel (c + nextUnitSize c hi) else []

/-- The units still to erase from `c` up to `hi`: R164's loop; every unit has at least 4096 bytes. -/
def unitsFrom (c hi : Nat) : List (Nat × Nat) := planFrom hi ((hi - c + sectorSize - 1) / sectorSize) c

/-- `Plan(address, length)` (R164): none is its failure `RangeOutOfBounds` (R162). -/
def plan (c : Cfg) (address length : Nat) : Option (List (Nat × Nat)) :=
  if c.capacity < address + length then none
  else if length = 0 then some []
  else some (unitsFrom (floorTo sectorSize address) (ceilTo sectorSize (address + length)))

/-- The loop of R171 from cursor `c`, for at most `fuel` chunks. -/
def pagesLoop (p e : Nat) : Nat → Nat → List (Nat × Nat)
  | 0, _ => []
  | fuel + 1, c => if c < e then nextChunk p c e :: pagesLoop p e fuel (c + nextChunkLen p c e) else []

/-- The chunks still to program from `c` up to `e`: R171's loop; every chunk has at least one byte. -/
def chunksFrom (p c e : Nat) : List (Nat × Nat) := pagesLoop p e (e - c) c

/-- `Pages(address, length)` (R171). -/
def pages (c : Cfg) (address length : Nat) : List (Nat × Nat) := chunksFrom c.pageSize address (address + length)

end Sys2Proof.Machine
end

