-- ==== Sys2Proof/Machine/Controller.lean ====
section
/-! DEFINITION. The sequencer: which instruction the controller runs next (the request on the port in `IDLE`, else the
command of the phase; spec/10_state.md R25, R26, spec/42_stream_writer.md R186 to R195, spec/43_identification.md R222,
R225), who takes the next step (R20), and where a table word is placed so that the sequencer fetches it. -/

namespace Sys2Proof

/-- The configuration that makes the sequencer send the table's bytes: the table's opcodes and its number of dummy
bytes. -/
def Cfg.forTable (c : Cfg) : Cfg := { c with opc := Opcodes.table, uidDummy := Cfg.cfg0.uidDummy }

/-- The configuration that makes the sequencer send a table row with an address of `n` bytes: its addressing mode, and a
device that has every address of that mode. -/
def Cfg.forAddress (c : Cfg) (n : Nat) : Cfg := { c.forTable with addrBytes := n, capacity := 2 ^ (8 * n) }

end Sys2Proof

namespace Sys2Proof.Machine

/-- The logical operation the sequencer hands to the Command Encoder in a phase; in `IDLE` there is none. -/
def State.phaseOp (s : State) : Except Refusal (Option LogicalOp) :=
  match s.phase with
  | .idle => .ok none
  | .prePoll => .ok (some .readStatus)
  | .eraseWren => .ok (some .writeEnable)
  | .eraseCmd =>
    .ok (some (.erase (nextUnit s.ecur.toNat s.eend.toNat).2 (nextUnit s.ecur.toNat s.eend.toNat).1))
  | .erasePoll => .ok (some .readStatus)
  | .progWren => .ok (some .writeEnable)
  | .progCmd =>
    match s.bufRead s.pcur.toNat (nextChunkLen s.cfg.pageSize s.pcur.toNat s.pend.toNat) with
    | some data => .ok (some (.pageProgram (nextChunk s.cfg.pageSize s.pcur.toNat s.pend.toNat).1 data))
    | none => .error .hostBufferTooShort
  | .progPoll => .ok (some .readStatus)
  | .idCmd => .ok (some .readId)
  | .uidCmd => .ok (some .readUniqueId)

/-- The host's request leaves the port when it is accepted; its buffer is the buffer of the request in progress (R25,
spec/20_memory.md R62). -/
def takeRequest (r : HostRequest) (rest : List HostRequest) (s : State) : State :=
  { s with host := rest, buf := r.data, launched := true }

/-- The accept step (R25), enabled when a request is on the port in `IDLE`; without one the block waits (R280). The
first request after reset needs an idle device (R285). -/
def acceptStep (s : State) : Host.Outcome State Fault Refusal :=
  match s.host with
  | [] => .next s
  | r :: rest =>
    if !s.launched && s.devState != .idle then .refused .deviceNotIdleAtLaunch
    else exec (decodeRequest r.word) (takeRequest r rest s)

/-- The operation is encoded, and the frame's bytes are the instruction that runs. An encoder failure issues no frame
(R187, R247). -/
def sendOp (op : LogicalOp) (s : State) : Host.Outcome State Fault Refusal :=
  match encodeOp s.cfg op with
  | .error size => .next (raise (.unsupportedOperation size) s)
  | .ok d =>
    match decodeFrame s.cfg d with
    | .error _ => .fault (.device .unknownCommand)
    | .ok i => exec i s

/-- A phase step: a call of the encoder that violates its preconditions is refused (R140, U7), any other is sent. -/
def commandStep (op : LogicalOp) (s : State) : Host.Outcome State Fault Refusal :=
  match op.illFormed? s.cfg with
  | some why => .refused (.encoderPrecondition why)
  | none => sendOp op s

/-- The controller's step (R20). -/
def controllerStep (s : State) : Host.Outcome State Fault Refusal :=
  match s.phaseOp with
  | .error r => .refused r
  | .ok none => acceptStep s
  | .ok (some op) => commandStep op s

/-- Who takes the next step: as the environment chooses (R20, R21), but the device has a step of its own only while an
operation is in progress (R72, R73). -/
def State.agent (s : State) : Turn :=
  match s.input.turn with
  | .reset => .reset
  | .device => if s.devState.busy then .device else .controller
  | .controller => .controller

/-- The step of the agent whose turn it is. -/
def agentStep (s : State) : Host.Outcome State Fault Refusal :=
  match s.agent with
  | .reset => .next (controllerReset s)
  | .device => .next (deviceComplete s)
  | .controller => controllerStep s

/-- The premise R284 of every run: a legal `CFG` that describes the attached device. -/
def State.configOk (s : State) : Bool :=
  s.cfg.wf && decide (s.devId.length = s.cfg.idLen) && decide (s.devUid.length = s.cfg.uidLen)

/-! ## Placing a table word -/

/-- The environment gives the controller the next step; its other choices stand. -/
def State.withControllerTurn (s : State) : State :=
  { s with inputs := { s.input with turn := .controller } :: s.inputs.tail }

/-- In the middle of a request, in phase `p`, under `c`. -/
def State.atPhase (p : Phase) (c : Cfg) (s : State) : State :=
  { s.withControllerTurn with phase := p, cfg := c, launched := true }

/-- The sequencer at an erase of `size` bytes at `a`: the cursors that give that unit (R173), and the write-enable latch
set, as the frame before it left it (R186, R290). -/
def placeErase (addrBytes size a : Nat) (s : State) : State :=
  { s.atPhase .eraseCmd (s.cfg.forAddress addrBytes) with
    ecur := BitVec.ofNat 33 a, eend := BitVec.ofNat 33 (a + size), devState := .writeEnabled }

/-- The sequencer at a page-program of `data` at `a`: the cursors and the buffer that give that chunk (R173, R190), and
the write-enable latch set, as the frame before it left it (R189, R290). -/
def placeProgram (addrBytes a : Nat) (data : List Byte) (s : State) : State :=
  { s.atPhase .progCmd (s.cfg.forAddress addrBytes) with
    reqAddr := BitVec.ofNat 32 a, reqLen := BitVec.ofNat 32 data.length, buf := data
    pcur := BitVec.ofNat 33 a, pend := BitVec.ofNat 33 (a + data.length), devState := .writeEnabled }

/-- A request at the head of the port, the block in `IDLE` and already launched; the host's buffer is the one that
stands. -/
def placeRequest (w : BitVec 66) (s : State) : State :=
  { s.withControllerTurn with phase := .idle, host := ⟨w, s.buf⟩ :: s.host, launched := true }

/-- The state in which the controller's next step runs `i`. -/
def placeInstr (i : Instr) (s : State) : State :=
  match i with
  | .wren => s.atPhase .eraseWren s.cfg.forTable
  | .rdsr => s.atPhase .erasePoll s.cfg.forTable
  | .pp3 a data => placeProgram 3 a.toNat data s
  | .se3 a => placeErase 3 sectorSize a.toNat s
  | .be3 a => placeErase 3 blockSize a.toNat s
  | .pp4 a data => placeProgram 4 a.toNat data s
  | .se4 a => placeErase 4 sectorSize a.toNat s
  | .be4 a => placeErase 4 blockSize a.toNat s
  | .rdid => s.atPhase .idCmd s.cfg.forTable
  | .ruid => s.atPhase .uidCmd s.cfg.forTable
  | .writeStream a l => placeRequest (requestWord 1 a l) s
  | .readId a l => placeRequest (requestWord 2 a l) s
  | .readUniqueId a l => placeRequest (requestWord 3 a l) s
  | .reservedOp0 a l => placeRequest (requestWord 0 a l) s

/-- A table word placed; a word that is no instruction cannot be made the sequencer's next (R112), and changes
nothing. -/
def placeTableWord (nbits w : Nat) (s : State) : State :=
  match decodeTableWord nbits w with
  | some i => placeInstr i s
  | none => s

end Sys2Proof.Machine
end

