-- ==== Sys2Proof/Machine/Step.lean ====
section
/-! DEFINITION. One step of the machine, and the host's way to place an instruction. -/

namespace Sys2Proof.Machine

/-- One step (spec/10_state.md R20): of the agent whose turn it is, under a legal configuration
(spec/70_reset_and_hazards.md R284). -/
def step (s : State) : Host.Outcome State Fault Refusal :=
  if s.configOk then onNext State.tick (agentStep s) else .refused .illFormedConfig

/-- `s` with a table word placed where the next step fetches its instruction: the request port, or the sequencer's
position. -/
def State.withFetchWord (s : State) (nbits w : Nat) : State := placeTableWord nbits w s

end Sys2Proof.Machine
end

