-- ==== Sys2Proof/Safety.lean ====
section
/-! DEFINITION. The terms in which the statements speak of runs: where a run starts (spec/70_reset_and_hazards.md R280 to
R285), the invariants of spec/10_state.md R42 and what they rest on, how far a write has come, and how many frames a
request can still send (spec/42_stream_writer.md R201). -/

namespace Sys2Proof.Machine

/-! ## Phases -/

/-- The phases of the erase-unit sequencer. -/
def Phase.inErase : Phase → Bool
  | .eraseWren => true
  | .eraseCmd => true
  | .erasePoll => true
  | _ => false

/-- The phases of the program page sequencer. -/
def Phase.inProgram : Phase → Bool
  | .progWren => true
  | .progCmd => true
  | .progPoll => true
  | _ => false

/-- The phases of a polling episode (R192). -/
def Phase.inPoll : Phase → Bool
  | .prePoll => true
  | .erasePoll => true
  | .progPoll => true
  | _ => false

/-- The phases whose step sends a frame other than read-status. -/
def Phase.inCommand : Phase → Bool
  | .eraseWren => true
  | .eraseCmd => true
  | .progWren => true
  | .progCmd => true
  | .idCmd => true
  | .uidCmd => true
  | _ => false

/-! ## The start of a run -/

/-- A state right after reset (R280), for any legal configuration and any device it describes (R284): the device idle
(R285), the array arbitrary (R283), the registers of R282 arbitrary, any requests of the host, any environment. -/
structure Launch (s : State) : Prop where
  config    : s.configOk = true
  phase     : s.phase = .idle
  reqOp     : s.reqOp = 0
  reqAddr   : s.reqAddr = 0
  reqLen    : s.reqLen = 0
  pollCnt   : s.pollCnt = 0
  maybeBusy : s.maybeBusy = false
  idValid   : s.idValid = false
  uidValid  : s.uidValid = false
  rspValid  : s.rspValid = false
  rspStatus : s.rspStatus = 0
  rspValue  : s.rspValue = 0
  cs        : s.cs = false
  launched  : s.launched = false
  device    : s.devState = .idle
  idWidth   : s.idRaw.length = s.cfg.idLen
  uidWidth  : s.uid.length = s.cfg.uidLen
  flash     : s.flash.wf
  flashEnd  : ∀ c ∈ s.flash, c.1 < s.cfg.capacity

/-- The states of the runs that start in a launch state. -/
inductive Reachable : State → Prop where
  | launch {s : State} (h : Launch s) : Reachable s
  | step {s t : State} (h : Reachable s) (hs : step s = .next t) : Reachable t

/-! ## Invariants -/

/-- The invariants R42 lists, clause by clause. -/
structure ControllerInvariants (s : State) : Prop where
  /-- (a) -/
  selectInactive : s.cs = false
  /-- (b) -/
  eraseCursors : s.phase.inErase = true → s.ecur.toNat ≤ s.eend.toNat ∧ s.ecur.toNat % 4096 = 0 ∧
    s.eend.toNat % 4096 = 0 ∧ s.eend.toNat ≤ s.cfg.capacity
  /-- (b), moreover -/
  eraseLeft : s.phase = .eraseWren ∨ s.phase = .eraseCmd → s.ecur.toNat < s.eend.toNat
  /-- (c) -/
  programCursors : s.phase.inProgram = true → s.reqAddr.toNat ≤ s.pcur.toNat ∧ s.pcur.toNat ≤ s.pend.toNat ∧
    s.pend.toNat = s.reqAddr.toNat + s.reqLen.toNat ∧ s.pend.toNat ≤ s.cfg.capacity ∧ s.ecur = s.eend
  /-- (c), moreover -/
  programLeft : s.phase = .progWren ∨ s.phase = .progCmd → s.pcur.toNat < s.pend.toNat
  /-- (d) -/
  commandNotBusy : s.phase.inCommand = true → s.maybeBusy = false
  /-- (e) -/
  pollBound : s.pollCnt < s.cfg.pollMax
  /-- (f) -/
  idCache : s.idValid = true → s.idRaw = s.devId
  /-- (f) -/
  uidCache : s.uidValid = true → s.uid = s.devUid

/-- The first address of the rounded range of the request in progress (R163). -/
def State.roundedStart (s : State) : Nat := floorTo sectorSize s.reqAddr.toNat

/-- The cursors of a write in progress, before its first program and after: R181's, moved on by whole units and chunks. -/
structure WriteCursors (s : State) : Prop where
  nonempty : 0 < s.reqLen.toNat
  bound    : s.reqAddr.toNat + s.reqLen.toNat ≤ s.cfg.capacity
  ends     : s.pend.toNat = s.reqAddr.toNat + s.reqLen.toNat
  eraseEnd : s.eend.toNat = ceilTo sectorSize (s.reqAddr.toNat + s.reqLen.toNat)
  eraseLow : s.roundedStart ≤ s.ecur.toNat
  eraseTop : s.ecur.toNat ≤ s.eend.toNat
  aligned  : s.ecur.toNat % 4096 = 0
  progLow  : s.reqAddr.toNat ≤ s.pcur.toNat
  progTop  : s.pcur.toNat ≤ s.pend.toNat

/-- A legal operation in progress: what the device accepted (R70, R71). -/
def DevState.legal (c : Cfg) : DevState → Prop
  | .idle => True
  | .writeEnabled => True
  | .erasing a size => (size = sectorSize ∨ size = blockSize) ∧ a % size = 0 ∧ a + size ≤ c.capacity
  | .programming a data old => 1 ≤ data.length ∧ data.length ≤ c.pageSize ∧
      a % c.pageSize + data.length ≤ c.pageSize ∧ a + data.length ≤ c.capacity ∧ old.length = data.length

/-- What every step of the machine keeps: R42's invariants, and what they rest on: the configuration, the canonical
form of the array, the latch before a command, the arbiter's knowledge of the device (R196). -/
structure Invariant (s : State) : Prop where
  controller : ControllerInvariants s
  config     : s.configOk = true
  idWidth    : s.idRaw.length = s.cfg.idLen
  uidWidth   : s.uid.length = s.cfg.uidLen
  idCode     : s.idValid = true → s.idCode = idCodeOf s.idRaw
  flash      : s.flash.wf
  flashEnd   : ∀ c ∈ s.flash, c.1 < s.cfg.capacity
  device     : s.devState.legal s.cfg
  /-- Before the first request the block is as reset left it. -/
  unlaunched : s.launched = false → s.phase = .idle ∧ s.maybeBusy = false
  /-- A device that may be busy is known to the arbiter. -/
  arbiter    : s.launched = true → s.maybeBusy = false → s.devState.busy = false
  /-- A write-enable stands right before every erase and program (R290). -/
  latched    : s.phase = .eraseCmd ∨ s.phase = .progCmd → s.devState = .writeEnabled
  /-- While an episode follows an operation, the device is busy or idle, never write-enabled. -/
  polled     : s.phase = .erasePoll ∨ s.phase = .progPoll → s.devState ≠ .writeEnabled
  /-- The request whose phase it is (R22). -/
  writeOp    : s.phase.inErase = true ∨ s.phase.inProgram = true → s.reqOp = 1
  idOp       : s.phase = .idCmd → s.reqOp = 2
  uidOp      : s.phase = .uidCmd → s.reqOp = 3
  pollOp     : s.phase = .prePoll → s.reqOp ≠ 0
  cursors    : s.phase ≠ .idle → s.reqOp = 1 → WriteCursors s
  unerased   : s.phase = .prePoll → s.reqOp = 1 → s.ecur.toNat = s.roundedStart
  unwritten  : s.phase = .prePoll ∨ s.phase.inErase = true → s.reqOp = 1 → s.pcur.toNat = s.reqAddr.toNat

/-! ## How far a write has come -/

/-- The bytes the device is working on: indeterminate until it completes (R40). -/
def DevState.covers : DevState → Nat → Bool
  | .idle, _ => false
  | .writeEnabled, _ => false
  | .erasing a size, x => decide (a ≤ x ∧ x < a + size)
  | .programming a data _, x => decide (a ≤ x ∧ x < a + data.length)

/-- The device's state without what it remembers of the array: a program's old bytes (R71). -/
def DevState.withoutOld : DevState → DevState
  | .idle => .idle
  | .writeEnabled => .writeEnabled
  | .erasing a size => .erasing a size
  | .programming a data old => .programming a data (old.map fun _ => none)

/-- What a byte of an erased unit holds when the device is not working on it: the host's byte where a chunk has been
programmed, else 0xFF (R66, R67, R202). -/
def State.intended (s : State) (x : Nat) : Option Byte :=
  if s.reqAddr.toNat ≤ x ∧ x < s.pcur.toNat then s.buf[x - s.reqAddr.toNat]? else some 0xFF

/-- A write in progress in `s`, accepted in `s₀`: outside the rounded range the array is as it was, but for what the
device was already working on; inside, every erased byte is as intended, but for what the device is working on now. -/
structure WriteProgress (s₀ s : State) : Prop where
  active   : s.phase = .prePoll ∨ s.phase.inErase = true ∨ s.phase.inProgram = true
  write    : s.reqOp = 1
  before   : s.phase = .prePoll → s.devState = s₀.devState ∨ s.devState.busy = false
  outside  : ∀ x, x < s.roundedStart ∨ s.eend.toNat ≤ x → s₀.devState.covers x = false →
    s.flash.read x = s₀.flash.read x
  inside   : s.phase ≠ .prePoll → ∀ x, s.roundedStart ≤ x → x < s.ecur.toNat → s.devState.covers x = false →
    s.flash.read x = s.intended x
  erase    : s.phase ≠ .prePoll → ∀ a size, s.devState = .erasing a size →
    s.phase = .erasePoll ∧ s.roundedStart ≤ a ∧ a + size = s.ecur.toNat
  program  : s.phase ≠ .prePoll → ∀ a data old, s.devState = .programming a data old →
    s.phase = .progPoll ∧ s.reqAddr.toNat ≤ a ∧ a + data.length = s.pcur.toNat ∧
    old = List.replicate data.length (some 0xFF) ∧
    data = (s.buf.drop (a - s.reqAddr.toNat)).take data.length

/-- `t` comes after `s` by steps that stay inside the request. -/
inductive WithinRequest : State → State → Prop where
  | refl (s : State) : WithinRequest s s
  | step {s t u : State} (h : WithinRequest s t) (hs : step t = .next u) (hp : u.phase ≠ .idle) : WithinRequest s u

/-- The host presents a WRITE_STREAM request of `l` bytes of `data` at `a` in `s`, and the controller takes the next
step (R25). -/
structure Presents (a l : U32) (data : List Byte) (s : State) : Prop where
  start : s.phase = .idle
  turn  : s.agent = .controller
  port  : ∃ rest, s.host = ⟨requestWord 1 a l, data⟩ :: rest

/-- The request presented in `s` ended with `Ok` in `t` (R197): the accept step starts the sequencers, and the step that
returns to `IDLE` leaves a valid response of success. -/
structure WriteCompletes (a l : U32) (data : List Byte) (s t : State) : Prop where
  presented : Presents a l data s
  steps     : ∃ m n, step s = .next m ∧ m.phase ≠ .idle ∧ WithinRequest m n ∧ step n = .next t
  done      : t.phase = .idle
  valid     : t.rspValid = true
  success   : t.rspStatus = 0

/-! ## How many frames are left -/

/-- The units and chunks a write in progress has still to send (R173). -/
def State.operationsLeft (s : State) : Nat :=
  (unitsFrom s.ecur.toNat s.eend.toNat).length + (chunksFrom s.cfg.pageSize s.pcur.toNat s.pend.toNat).length

/-- The frames an operation can need: write-enable, command, and an episode of at most `POLL_MAX` status reads (R201). -/
def State.framesPerOperation (s : State) : Nat := 2 + s.cfg.pollMax

/-- A bound on the frames the request in progress can still send (R201). -/
def State.framesLeft (s : State) : Nat :=
  match s.phase with
  | .idle => 0
  | .prePoll =>
    s.cfg.pollMax - s.pollCnt + (if s.reqOp = 1 then s.operationsLeft * s.framesPerOperation else 1)
  | .eraseWren => s.operationsLeft * s.framesPerOperation
  | .eraseCmd => s.operationsLeft * s.framesPerOperation - 1
  | .erasePoll => s.cfg.pollMax - s.pollCnt + s.operationsLeft * s.framesPerOperation
  | .progWren => s.operationsLeft * s.framesPerOperation
  | .progCmd => s.operationsLeft * s.framesPerOperation - 1
  | .progPoll => s.cfg.pollMax - s.pollCnt + s.operationsLeft * s.framesPerOperation
  | .idCmd => 1
  | .uidCmd => 1

/-- How many frames stand on the bus. -/
def frameCount : List BusEvent → Nat
  | [] => 0
  | .chipSelect _ :: es => frameCount es
  | .transact _ _ :: es => 1 + frameCount es

/-! ## Which instruction a phase sends -/

/-- The opcode of an erase of this size (R139). -/
def eraseOpcode (c : Cfg) (size : Nat) : Byte := if size = blockSize then c.opc.be else c.opc.se

/-- The erase of the unit at `a` (R135, R136) in the addressing mode of `c`. -/
def eraseInstr (c : Cfg) (size a : Nat) : Instr :=
  if c.addrBytes = 3 then if size = blockSize then .be3 (BitVec.ofNat 24 a) else .se3 (BitVec.ofNat 24 a)
  else if size = blockSize then .be4 (BitVec.ofNat 32 a) else .se4 (BitVec.ofNat 32 a)

/-- The page-program of `data` at `a` (R134) in the addressing mode of `c`. -/
def programInstr (c : Cfg) (a : Nat) (data : List Byte) : Instr :=
  if c.addrBytes = 3 then .pp3 (BitVec.ofNat 24 a) data else .pp4 (BitVec.ofNat 32 a) data

/-! ## What stands on the bus -/

/-- What one frame leaves on the bus (R104), the latest first. -/
def frameEvents (d : Descriptor) (o : FrameOutcome) : List BusEvent :=
  [.chipSelect false, .transact d o, .chipSelect true]

/-- The frames other than status reads that stand on the bus, in the order they were sent. -/
def commandsOn (c : Cfg) : List BusEvent → List Descriptor
  | [] => []
  | .chipSelect _ :: es => commandsOn c es
  | .transact d _ :: es =>
    if d.commandBytes.head? = some c.opc.rdsr then commandsOn c es else commandsOn c es ++ [d]

/-- The frames of one erase: its write-enable and its command (R121, R290). -/
def eraseFrames (c : Cfg) (u : Nat × Nat) : List Descriptor :=
  [frameOp c.opc.wren, frameOpA c.addrBytes (eraseOpcode c u.2) u.1]

/-- The frames of one page-program of a request for `data` at `a`: its write-enable and its command (R121, R290). -/
def programFrames (c : Cfg) (a : Nat) (data : List Byte) (p : Nat × Nat) : List Descriptor :=
  [frameOp c.opc.wren, frameOpAD c.addrBytes c.opc.pp p.1 ((data.drop (p.1 - a)).take p.2)]

/-- The frames of a write of `l` bytes of `data` at `a`, its status reads left out: all erases before the first program
(R184). -/
def writeFrames (c : Cfg) (a l : Nat) (data : List Byte) : List Descriptor :=
  (unitsFrom (floorTo sectorSize a) (ceilTo sectorSize (a + l))).flatMap (eraseFrames c) ++
    (pages c a l).flatMap (programFrames c a data)

/-! ## Partitions of a range (spec/41_erase_unit_planner.md) -/

/-- Pairs (start, size) in ascending order that abut, from `lo` up to `hi` (R166, R172). -/
def Abut : List (Nat × Nat) → Nat → Nat → Prop
  | [], lo, hi => lo = hi
  | u :: us, lo, hi => u.1 = lo ∧ Abut us (lo + u.2) hi

/-- Erase units that cover exactly `[lo, hi)`, each of a legal size and aligned to it (R160, R166). -/
def Tiles (us : List (Nat × Nat)) (lo hi : Nat) : Prop :=
  Abut us lo hi ∧ ∀ u ∈ us, (u.2 = sectorSize ∨ u.2 = blockSize) ∧ u.1 % u.2 = 0

/-! ## What the address commands do -/

/-- The device takes an erase of `size` bytes at `a` (R70). -/
def State.takesErase (s : State) (size a : Nat) : Prop :=
  s.devState = .writeEnabled ∧ a % size = 0 ∧ a + size ≤ s.cfg.capacity

/-- The device takes a page-program of `n` bytes at `a` (R71). -/
def State.takesProgram (s : State) (a n : Nat) : Prop :=
  s.devState = .writeEnabled ∧ 1 ≤ n ∧ n ≤ s.cfg.pageSize ∧ a % s.cfg.pageSize + n ≤ s.cfg.pageSize ∧
    a + n ≤ s.cfg.capacity

/-- What the erase command `i` of `size` bytes at `a` does in `s`, in each outcome of its frame: it starts the erase
(R70, R187); it fails, received or not (R88, R187, R252); the device has no behaviour for it (R70, R77). -/
def EraseOutcomes (i : Instr) (opc : Byte) (size a : Nat) (s : State) : Prop :=
  (s.input.transport = .ok → s.takesErase size a → ∃ t, exec i s = .next t ∧
    t = { s with
      cs := false, bus := frameEvents (frameOpA s.cfg.addrBytes opc a) (.ok []) ++ s.bus
      devState := .erasing a size, flash := t.flash
      maybeBusy := true, ecur := s.ecur + BitVec.ofNat 33 size, pollCnt := 0, phase := .erasePoll } ∧
    ∀ x, t.flash.read x = if a ≤ x ∧ x < a + size then none else s.flash.read x) ∧
  (∀ e r, s.input.transport = .fail e r → (r = true → s.takesErase size a) → ∃ t, exec i s = .next t ∧
    t = { s with
      cs := false, bus := frameEvents (frameOpA s.cfg.addrBytes opc a) (.err e) ++ s.bus
      devState := if r then .erasing a size else s.devState, flash := t.flash
      maybeBusy := true, rspStatus := 3, rspValue := 0, rspInfo := e, rspValid := true, phase := .idle } ∧
    ∀ x, t.flash.read x = if r = true ∧ a ≤ x ∧ x < a + size then none else s.flash.read x) ∧
  (s.input.transport.received = true → ¬ s.takesErase size a → ∃ f, exec i s = .fault (.device f))

/-- What the page-program `i` of `data` at `a` does in `s`, in each outcome of its frame: it starts the program (R71,
R190); it fails, received or not (R88, R190, R252); the device has no behaviour for it (R71, R77). -/
def ProgramOutcomes (i : Instr) (a : Nat) (data : List Byte) (s : State) : Prop :=
  (s.input.transport = .ok → s.takesProgram a data.length → ∃ t, exec i s = .next t ∧
    t = { s with
      cs := false, bus := frameEvents (frameOpAD s.cfg.addrBytes s.cfg.opc.pp a data) (.ok []) ++ s.bus
      devState := .programming a data ((List.range' a data.length).map s.flash.read), flash := t.flash
      maybeBusy := true, pcur := s.pcur + BitVec.ofNat 33 data.length, pollCnt := 0, phase := .progPoll } ∧
    ∀ x, t.flash.read x = if a ≤ x ∧ x < a + data.length then none else s.flash.read x) ∧
  (∀ e r, s.input.transport = .fail e r → (r = true → s.takesProgram a data.length) → ∃ t, exec i s = .next t ∧
    t = { s with
      cs := false, bus := frameEvents (frameOpAD s.cfg.addrBytes s.cfg.opc.pp a data) (.err e) ++ s.bus
      devState :=
        if r then .programming a data ((List.range' a data.length).map s.flash.read) else s.devState
      flash := t.flash
      maybeBusy := true, rspStatus := 3, rspValue := 0, rspInfo := e, rspValid := true, phase := .idle } ∧
    ∀ x, t.flash.read x = if r = true ∧ a ≤ x ∧ x < a + data.length then none else s.flash.read x) ∧
  (s.input.transport.received = true → ¬ s.takesProgram a data.length → ∃ f, exec i s = .fault (.device f))

end Sys2Proof.Machine
end

