-- ==== Sys2Proof/Certificates/Slice0/Obligations.lean ====
section
/-! DEFINITION. The statements for the provers. Each docstring names the rules of spec/ the statement formalises, or says
which decision of the model (notes/assumptions/) it rests on. `frameEvents d o ++ s.bus` is the bus after the frame `d`
with outcome `o`; a record update says that every field it does not name keeps its value. -/

section
open Sys2Proof Sys2Proof.Machine

/-! ## Encodings -/

/-- Decoding what the encoder writes gives the instruction back, for every legal configuration, every instruction and
every operand the encoder may be asked for (R100, R105, R106, R109, R115). -/
def Obligations.DecodeEncodeRoundTrip : Prop :=
  ∀ (c : Cfg) (i : Instr), c.Legal → i.wf c = true → decode c (encode c i) = .ok i

/-- A frame that decodes is the encoding of what it decodes to, byte for byte, except that the values of
read-unique-id's dummy bytes are free (R76, R105, R109). -/
def Obligations.DecodedFrameReencodes : Prop :=
  ∀ (c : Cfg) (d : Descriptor) (i : Instr), c.Legal → decodeFrame c d = .ok i →
    ∃ e, encode c i = .frame e ∧ d.readLen = e.readLen ∧
      (d.commandBytes ++ d.writePayload).length = (e.commandBytes ++ e.writePayload).length ∧
      (d.commandBytes ++ d.writePayload).head? = (e.commandBytes ++ e.writePayload).head? ∧
      (i ≠ .ruid → d.commandBytes ++ d.writePayload = e.commandBytes ++ e.writePayload)

/-- The request word: its fields stand where R115 puts them, its operation code names the instruction (R116, R117), and
every word is the encoding of what it decodes to. -/
def Obligations.RequestWordRoundTrip : Prop :=
  (∀ (op : BitVec 2) (a l : U32),
    (requestWord op a l).toNat = op.toNat * 2 ^ 64 + a.toNat * 2 ^ 32 + l.toNat ∧
    decodeRequest (requestWord op a l) =
      match op.toNat with
      | 1 => .writeStream a l
      | 2 => .readId a l
      | 3 => .readUniqueId a l
      | _ => .reservedOp0 a l) ∧
  ∀ (c : Cfg) (w : BitVec 66), encode c (decodeRequest w) = .request w

/-- R114: the worked encodings, from the logical operation to the bytes and back to the instruction, with 3 address bytes
and, for the last, with 4. -/
def Obligations.WorkedEncodings : Prop :=
  let c := Cfg.cfg0
  let c4 := { Cfg.cfg0 with addrBytes := 4 }
  (encodeOp c .writeEnable = .ok ⟨[0x06], [], 0⟩ ∧ decodeFrame c ⟨[0x06], [], 0⟩ = .ok .wren) ∧
  (encodeOp c .readStatus = .ok ⟨[0x05], [], 1⟩ ∧ decodeFrame c ⟨[0x05], [], 1⟩ = .ok .rdsr) ∧
  (encodeOp c (.erase 4096 0x012000) = .ok ⟨[0x20, 0x01, 0x20, 0x00], [], 0⟩ ∧
    decodeFrame c ⟨[0x20, 0x01, 0x20, 0x00], [], 0⟩ = .ok (.se3 0x012000)) ∧
  (encodeOp c (.erase 65536 0x7F0000) = .ok ⟨[0xD8, 0x7F, 0x00, 0x00], [], 0⟩ ∧
    decodeFrame c ⟨[0xD8, 0x7F, 0x00, 0x00], [], 0⟩ = .ok (.be3 0x7F0000)) ∧
  (encodeOp c (.pageProgram 0x0000F0 [0xAA, 0xBB]) = .ok ⟨[0x02, 0x00, 0x00, 0xF0], [0xAA, 0xBB], 0⟩ ∧
    decodeFrame c ⟨[0x02, 0x00, 0x00, 0xF0], [0xAA, 0xBB], 0⟩ = .ok (.pp3 0x0000F0 [0xAA, 0xBB])) ∧
  (encodeOp c .readId = .ok ⟨[0x9F], [], 3⟩ ∧ decodeFrame c ⟨[0x9F], [], 3⟩ = .ok .rdid) ∧
  (encodeOp c .readUniqueId = .ok ⟨[0x4B, 0x00, 0x00, 0x00, 0x00], [], 8⟩ ∧
    decodeFrame c ⟨[0x4B, 0x00, 0x00, 0x00, 0x00], [], 8⟩ = .ok .ruid) ∧
  (encodeOp c4 (.erase 4096 0x012000) = .ok ⟨[0x20, 0x00, 0x01, 0x20, 0x00], [], 0⟩ ∧
    decodeFrame c4 ⟨[0x20, 0x00, 0x01, 0x20, 0x00], [], 0⟩ = .ok (.se4 0x012000))

/-- A first byte that is none of the seven opcodes is no command, and bytes are a command only by one of the seven
(R110, R112, R113). -/
def Obligations.SevenOpcodesOnly : Prop :=
  ∀ (c : Cfg) (b : Byte) (rest : List Byte),
    (b ∉ c.opc.toList → decodeBytes c (b :: rest) = .error (.unknownOpcode b)) ∧
    (∀ i, decodeBytes c (b :: rest) = .ok i → b ∈ c.opc.toList)

/-- The encoder's table (R132 to R138, R141; read-unique-id's dummy bytes are the spec's decision D19, R107); its one error
is an erase size that is neither 4096 nor 65536 (R139). -/
def Obligations.EncoderTable : Prop :=
  ∀ c : Cfg, c.Legal →
    encodeOp c .writeEnable = .ok ⟨[c.opc.wren], [], 0⟩ ∧
    encodeOp c .readStatus = .ok ⟨[c.opc.rdsr], [], 1⟩ ∧
    (∀ a data, encodeOp c (.pageProgram a data) = .ok ⟨c.opc.pp :: beBytes c.addrBytes a, data, 0⟩) ∧
    (∀ a, encodeOp c (.erase 4096 a) = .ok ⟨c.opc.se :: beBytes c.addrBytes a, [], 0⟩) ∧
    (∀ a, encodeOp c (.erase 65536 a) = .ok ⟨c.opc.be :: beBytes c.addrBytes a, [], 0⟩) ∧
    (∀ size a, size ≠ 4096 → size ≠ 65536 → encodeOp c (.erase size a) = .error size) ∧
    encodeOp c .readId = .ok ⟨[c.opc.rdid], [], c.idLen⟩ ∧
    encodeOp c .readUniqueId = .ok ⟨c.opc.ruid :: List.replicate c.uidDummy 0, [], c.uidLen⟩

/-- R140: which calls of the encoder are refused, spelled out; all other calls are encoded, and read back as an
instruction the encoder may be asked for whose encoding is that frame, or end in the encoder's own error (R139). The
refusal is what R140 recommends (U7, notes/assumptions/37.md). -/
def Obligations.EncoderCallsRefused : Prop :=
  ∀ s : State, s.cfg.Legal →
    (∀ size a, size = 4096 ∨ size = 65536 →
      ((∃ why, commandStep (.erase size a) s = .refused (.encoderPrecondition why)) ↔
        ¬ (a % size = 0 ∧ a + size ≤ s.cfg.capacity))) ∧
    (∀ a data,
      ((∃ why, commandStep (.pageProgram a data) s = .refused (.encoderPrecondition why)) ↔
        ¬ (1 ≤ data.length ∧ data.length ≤ s.cfg.pageSize ∧ a % s.cfg.pageSize + data.length ≤ s.cfg.pageSize ∧
          a + data.length ≤ s.cfg.capacity))) ∧
    ∀ op : LogicalOp,
      (∃ why, commandStep op s = .refused (.encoderPrecondition why)) ∨
      (∃ size, encodeOp s.cfg op = .error size ∧ size ≠ 4096 ∧ size ≠ 65536 ∧
        commandStep op s = .next (raise (.unsupportedOperation size) s)) ∨
      ∃ d i, encodeOp s.cfg op = .ok d ∧ decodeFrame s.cfg d = .ok i ∧ i.wf s.cfg = true ∧
        encode s.cfg i = .frame d ∧ commandStep op s = exec i s

/-! ## A step runs the decoded instruction -/

/-- In `IDLE`, on the controller's turn, a step runs the request that its word decodes to; the word leaves the port and
its buffer becomes the buffer in use (R25, spec/20_memory.md R62). Before the first request the device must be idle
(R285). `onNext State.tick` uses up the environment's choice of this step (notes/assumptions/4.md). -/
def Obligations.StepRunsTheRequest : Prop :=
  ∀ (s : State) (r : HostRequest) (rest : List HostRequest),
    s.configOk = true → s.agent = .controller → s.phase = .idle → s.host = r :: rest →
    (s.launched = true ∨ s.devState = .idle → step s =
      onNext State.tick (exec (decodeRequest r.word) { s with host := rest, buf := r.data, launched := true })) ∧
    (s.launched = false → s.devState ≠ .idle → step s = .refused .deviceNotIdleAtLaunch)

/-- In any other phase, on the controller's turn, a step runs the instruction that the frame of the phase's logical
operation decodes to, and nothing else (R20, R26, R100, R104); but a call that violates the encoder's preconditions is
refused (R140, U7, notes/assumptions/37.md). -/
def Obligations.StepRunsTheCommand : Prop :=
  ∀ (s : State) (op : LogicalOp), s.configOk = true → s.agent = .controller → s.phaseOp = .ok (some op) →
    (∀ (d : Descriptor) (i : Instr), op.illFormed? s.cfg = none → encodeOp s.cfg op = .ok d →
      decodeFrame s.cfg d = .ok i → step s = onNext State.tick (exec i s)) ∧
    ∀ why : IllFormed, op.illFormed? s.cfg = some why → step s = .refused (.encoderPrecondition why)

/-- Which instruction each phase runs, in every state that meets the invariant: R26's table with R186 to R190, R192,
R195, R222, R225 and R173. -/
def Obligations.EachPhaseRunsItsCommand : Prop :=
  ∀ s : State, Invariant s → s.agent = .controller →
    (s.phase = .eraseWren ∨ s.phase = .progWren → step s = onNext State.tick (exec .wren s)) ∧
    (s.phase = .prePoll ∨ s.phase = .erasePoll ∨ s.phase = .progPoll → step s = onNext State.tick (exec .rdsr s)) ∧
    (s.phase = .idCmd → step s = onNext State.tick (exec .rdid s)) ∧
    (s.phase = .uidCmd → step s = onNext State.tick (exec .ruid s)) ∧
    (s.phase = .eraseCmd → step s = onNext State.tick
      (exec (eraseInstr s.cfg (nextUnitSize s.ecur.toNat s.eend.toNat) s.ecur.toNat) s)) ∧
    (s.phase = .progCmd → ∀ data,
      s.bufRead s.pcur.toNat (nextChunkLen s.cfg.pageSize s.pcur.toNat s.pend.toNat) = some data →
      step s = onNext State.tick (exec (programInstr s.cfg s.pcur.toNat data) s))

/-- With no request on the port the controller waits in `IDLE`: a step changes nothing but the environment's place
(R25, R280; that such a step exists is the model's choice, notes/assumptions/5.md). -/
def Obligations.EmptyPortWaits : Prop :=
  ∀ s : State, s.configOk = true → s.agent = .controller → s.phase = .idle → s.host = [] →
    step s = .next { s with inputs := s.inputs.tail, draws := s.draws + 1 }

/-! ## Requests -/

/-- R181, R182: the accept step of WRITE_STREAM: the bound first, the sum in naturals; then the empty request; then the
cursors and the first phase. No frame, no other change. -/
def Obligations.WriteStreamAccepted : Prop :=
  ∀ (s : State) (a l : U32), s.phase = .idle →
    (s.cfg.capacity < a.toNat + l.toNat → exec (.writeStream a l) s = .next { s with
      reqOp := 1, reqAddr := a, reqLen := l
      rspStatus := 1, rspValue := 0, rspValid := true, phase := .idle }) ∧
    (a.toNat + l.toNat ≤ s.cfg.capacity → l = 0 → exec (.writeStream a l) s = .next { s with
      reqOp := 1, reqAddr := a, reqLen := l
      rspStatus := 0, rspValue := 0, rspValid := true, phase := .idle }) ∧
    (a.toNat + l.toNat ≤ s.cfg.capacity → l ≠ 0 → exec (.writeStream a l) s = .next { s with
      reqOp := 1, reqAddr := a, reqLen := l, rspValid := false
      ecur := BitVec.ofNat 33 (a.toNat / 4096 * 4096)
      eend := BitVec.ofNat 33 ((a.toNat + l.toNat + 4095) / 4096 * 4096)
      pcur := BitVec.ofNat 33 a.toNat
      pend := BitVec.ofNat 33 (a.toNat + l.toNat)
      pollCnt := 0
      phase := if s.maybeBusy then .prePoll else .eraseWren })

/-- R221: the accept step of READ_ID: a cached code is the answer, else the exchange starts. No frame. -/
def Obligations.ReadIdAccepted : Prop :=
  ∀ (s : State) (a l : U32), s.phase = .idle →
    (s.idValid = true → exec (.readId a l) s = .next { s with
      reqOp := 2, reqAddr := a, reqLen := l
      rspStatus := 0, rspValue := s.idCode, rspValid := true, phase := .idle }) ∧
    (s.idValid = false → exec (.readId a l) s = .next { s with
      reqOp := 2, reqAddr := a, reqLen := l, rspValid := false
      pollCnt := 0, phase := if s.maybeBusy then .prePoll else .idCmd })

/-- R224: the accept step of READ_UNIQUE_ID: a cached identifier is the answer, else the exchange starts. No frame. -/
def Obligations.ReadUniqueIdAccepted : Prop :=
  ∀ (s : State) (a l : U32), s.phase = .idle →
    (s.uidValid = true → exec (.readUniqueId a l) s = .next { s with
      reqOp := 3, reqAddr := a, reqLen := l
      rspStatus := 0, rspValue := 0, rspValid := true, phase := .idle }) ∧
    (s.uidValid = false → exec (.readUniqueId a l) s = .next { s with
      reqOp := 3, reqAddr := a, reqLen := l, rspValid := false
      pollCnt := 0, phase := if s.maybeBusy then .prePoll else .uidCmd })

/-- R117: the reserved request code is latched and answered UnsupportedOperation, without a frame. -/
def Obligations.ReservedCodeRaises : Prop :=
  ∀ (s : State) (a l : U32), s.phase = .idle →
    exec (.reservedOp0 a l) s = .next { s with
      reqOp := 0, reqAddr := a, reqLen := l
      rspStatus := 4, rspValue := 0, rspValid := true, phase := .idle }

/-- A request that meets a block not in `IDLE` changes nothing (R25; that the meaning of a held request is a step without
effect is the model's choice, notes/assumptions/7.md). -/
def Obligations.RequestHeldUntilIdle : Prop :=
  ∀ (s : State) (a l : U32), s.phase ≠ .idle →
    exec (.writeStream a l) s = .next s ∧ exec (.readId a l) s = .next s ∧
    exec (.readUniqueId a l) s = .next s ∧ exec (.reservedOp0 a l) s = .next s

/-- Outside `IDLE` no step but reset takes a request from the port or writes the latched operands, the ends of the
cursors' ranges or the buffer (R22, R23, R24, R25, R27, R28, spec/20_memory.md R62). -/
def Obligations.OperandsWrittenByAcceptOnly : Prop :=
  ∀ s t : State, step s = .next t → s.phase ≠ .idle → s.agent ≠ .reset →
    t.host = s.host ∧ t.buf = s.buf ∧ t.reqOp = s.reqOp ∧ t.reqAddr = s.reqAddr ∧ t.reqLen = s.reqLen ∧
    t.eend = s.eend ∧ t.pend = s.pend

/-! ## Commands -/

/-- R186, R189, and R69 for the device: write-enable in its two phases. It sets the latch and the sequencer goes on; it
fails, received or not (R88, notes/assumptions/17.md), and the request ends with TransportError; it is a device fault
while the device is busy (R77, notes/assumptions/15.md). -/
def Obligations.WriteEnableCommand : Prop :=
  ∀ s : State, s.phase = .eraseWren ∨ s.phase = .progWren →
    (s.input.transport = .ok → s.devState.busy = false → exec .wren s = .next { s with
      cs := false, bus := frameEvents ⟨[s.cfg.opc.wren], [], 0⟩ (.ok []) ++ s.bus
      devState := .writeEnabled
      phase := if s.phase = .eraseWren then .eraseCmd else .progCmd }) ∧
    (∀ e r, s.input.transport = .fail e r → (r = true → s.devState.busy = false) → exec .wren s = .next { s with
      cs := false, bus := frameEvents ⟨[s.cfg.opc.wren], [], 0⟩ (.err e) ++ s.bus
      devState := if r then .writeEnabled else s.devState
      rspStatus := 3, rspValue := 0, rspInfo := e, rspValid := true, phase := .idle }) ∧
    (s.input.transport.received = true → s.devState.busy = true →
      exec .wren s = .fault (.device .commandWhileBusy))

/-- The erase commands in both addressing modes (R70, R187). A device that takes the erase has the unit indeterminate from
then on, and the sequencer's cursor moves on by the size; else see `EraseOutcomes` (a failed frame: R88,
notes/assumptions/17.md; a device fault: R77, notes/assumptions/15.md). Outside `ERASE_CMD`, where no step of the machine
sends one, what the sequencer's registers do is the model's choice, notes/assumptions/8.md. -/
def Obligations.EraseCommands : Prop :=
  ∀ s : State,
    (s.cfg.addrBytes = 3 → ∀ a : BitVec 24,
      EraseOutcomes (.se3 a) s.cfg.opc.se 4096 a.toNat s ∧ EraseOutcomes (.be3 a) s.cfg.opc.be 65536 a.toNat s) ∧
    (s.cfg.addrBytes = 4 → ∀ a : BitVec 32,
      EraseOutcomes (.se4 a) s.cfg.opc.se 4096 a.toNat s ∧ EraseOutcomes (.be4 a) s.cfg.opc.be 65536 a.toNat s)

/-- Page-program in both addressing modes (R71, R190). A device that takes the program remembers the old bytes and has the
chunk indeterminate from then on, and the sequencer's cursor moves on by its length; else see `ProgramOutcomes` (a failed
frame: R88, notes/assumptions/17.md; a device fault: R77, notes/assumptions/15.md). Outside `PROG_CMD`, where no step of
the machine sends one, what the sequencer's registers do is the model's choice, notes/assumptions/8.md. -/
def Obligations.ProgramCommands : Prop :=
  ∀ (s : State) (data : List Byte),
    (s.cfg.addrBytes = 3 → ∀ a : BitVec 24, ProgramOutcomes (.pp3 a data) a.toNat data s) ∧
    (s.cfg.addrBytes = 4 → ∀ a : BitVec 32, ProgramOutcomes (.pp4 a data) a.toNat data s)

/-- R74: read-status is accepted in every device state, changes nothing in the device, and returns one byte: the busy bits
and the write-enable bits as the device state says, the other bits as the environment chooses. That it answers a next
state outside the polling phases too is the model's choice, notes/assumptions/8.md. -/
def Obligations.StatusByteRead : Prop :=
  ∀ s : State, s.cfg.Legal → s.input.transport = .ok → ∃ t b, exec .rdsr s = .next t ∧
    t.bus = frameEvents ⟨[s.cfg.opc.rdsr], [], 1⟩ (.ok [b]) ++ s.bus ∧
    t.devState = s.devState ∧ t.flash = s.flash ∧
    b &&& s.cfg.busyMask = (if s.devState.busy then s.cfg.busyMask else 0) ∧
    b &&& s.cfg.welMask = (if s.devState = .idle then 0 else s.cfg.welMask) ∧
    b &&& ~~~(s.cfg.busyMask ||| s.cfg.welMask) = s.input.statusBits &&& ~~~(s.cfg.busyMask ||| s.cfg.welMask)

/-- What a status read does in each polling phase: R188, R191, the poll step R193 (decision D8), the bound R194 (D6), the
pre-poll R195 (D20), a failed read R243. `b` is the byte that was read (`StatusByteRead`). -/
def Obligations.PollOutcomes : Prop :=
  ∀ s : State, s.cfg.Legal → s.phase.inPoll = true →
    (s.input.transport = .ok → ∃ b, (b &&& s.cfg.busyMask = 0 ↔ s.devState.busy = false) ∧
      ∀ u, u = { s with cs := false, bus := frameEvents ⟨[s.cfg.opc.rdsr], [], 1⟩ (.ok [b]) ++ s.bus } →
        (s.devState.busy = false → s.phase = .erasePoll → exec .rdsr s = .next { u with
          maybeBusy := false, pollCnt := 0
          phase := if s.ecur.toNat < s.eend.toNat then .eraseWren else .progWren }) ∧
        (s.devState.busy = false → s.phase = .progPoll → s.pcur.toNat < s.pend.toNat → exec .rdsr s = .next { u with
          maybeBusy := false, pollCnt := 0, phase := .progWren }) ∧
        (s.devState.busy = false → s.phase = .progPoll → ¬ s.pcur.toNat < s.pend.toNat →
          exec .rdsr s = .next { u with
            maybeBusy := false, pollCnt := 0
            rspStatus := 0, rspValue := s.reqLen, rspValid := true, phase := .idle }) ∧
        (s.devState.busy = false → s.phase = .prePoll → s.reqOp ≠ 0 → exec .rdsr s = .next { u with
          maybeBusy := false, pollCnt := 0
          phase := if s.reqOp = 1 then .eraseWren else if s.reqOp = 2 then .idCmd else .uidCmd }) ∧
        (s.devState.busy = true → s.pollCnt + 1 = s.cfg.pollMax → exec .rdsr s = .next { u with
          rspStatus := 2, rspValue := 0, rspValid := true, phase := .idle }) ∧
        (s.devState.busy = true → s.pollCnt + 1 ≠ s.cfg.pollMax → exec .rdsr s = .next { u with
          pollCnt := s.pollCnt + 1 })) ∧
    (∀ e r, s.input.transport = .fail e r → exec .rdsr s = .next { s with
      cs := false, bus := frameEvents ⟨[s.cfg.opc.rdsr], [], 1⟩ (.err e) ++ s.bus
      rspStatus := 3, rspValue := 0, rspInfo := e, rspValid := true, phase := .idle })

/-- R193: the poll step on any status byte, whatever its other bits: busy means any bit of the mask; a failed frame is a
TransportError whatever the count. -/
def Obligations.PollStep : Prop :=
  ∀ (s : State) (b : Byte) (e : TransportError),
    (b &&& s.cfg.busyMask = 0 →
      afterStatus (.ok [b]) s = leaveEpisode { s with maybeBusy := false, pollCnt := 0 }) ∧
    (b &&& s.cfg.busyMask ≠ 0 → s.pollCnt + 1 = s.cfg.pollMax → afterStatus (.ok [b]) s = { s with
      rspStatus := 2, rspValue := 0, rspValid := true, phase := .idle }) ∧
    (b &&& s.cfg.busyMask ≠ 0 → s.pollCnt + 1 ≠ s.cfg.pollMax →
      afterStatus (.ok [b]) s = { s with pollCnt := s.pollCnt + 1 }) ∧
    afterStatus (.err e) s = { s with
      rspStatus := 3, rspValue := 0, rspInfo := e, rspValid := true, phase := .idle }

/-- R222, R223: read-id in its phase fills the cache and ends the request with the code, the first byte received the most
significant; it fails, received or not (R88, notes/assumptions/17.md), and leaves the cache; it is a device fault while the
device is busy (R75, R77, notes/assumptions/15.md). -/
def Obligations.ReadIdCommand : Prop :=
  ∀ s : State, s.configOk = true → s.phase = .idCmd →
    (s.input.transport = .ok → s.devState.busy = false → ∃ code : U32, code.toNat = fromBe s.devId ∧
      exec .rdid s = .next { s with
        cs := false, bus := frameEvents ⟨[s.cfg.opc.rdid], [], s.cfg.idLen⟩ (.ok s.devId) ++ s.bus
        idRaw := s.devId, idCode := code, idValid := true
        rspStatus := 0, rspValue := code, rspValid := true, phase := .idle }) ∧
    (∀ e r, s.input.transport = .fail e r → (r = true → s.devState.busy = false) → exec .rdid s = .next { s with
      cs := false, bus := frameEvents ⟨[s.cfg.opc.rdid], [], s.cfg.idLen⟩ (.err e) ++ s.bus
      rspStatus := 3, rspValue := 0, rspInfo := e, rspValid := true, phase := .idle }) ∧
    (s.input.transport.received = true → s.devState.busy = true →
      exec .rdid s = .fault (.device .commandWhileBusy))

/-- R225: read-unique-id in its phase fills the cache, in the order received, and ends the request with 0; it fails,
received or not (R88, notes/assumptions/17.md), and leaves the cache; it is a device fault while the device is busy (R76,
R77, notes/assumptions/15.md). -/
def Obligations.ReadUniqueIdCommand : Prop :=
  ∀ s : State, s.phase = .uidCmd →
    (s.input.transport = .ok → s.devState.busy = false → exec .ruid s = .next { s with
      cs := false
      bus := frameEvents ⟨s.cfg.opc.ruid :: List.replicate s.cfg.uidDummy 0, [], s.cfg.uidLen⟩ (.ok s.devUid) ++ s.bus
      uid := s.devUid, uidValid := true
      rspStatus := 0, rspValue := 0, rspValid := true, phase := .idle }) ∧
    (∀ e r, s.input.transport = .fail e r → (r = true → s.devState.busy = false) → exec .ruid s = .next { s with
      cs := false
      bus := frameEvents ⟨s.cfg.opc.ruid :: List.replicate s.cfg.uidDummy 0, [], s.cfg.uidLen⟩ (.err e) ++ s.bus
      rspStatus := 3, rspValue := 0, rspInfo := e, rspValid := true, phase := .idle }) ∧
    (s.input.transport.received = true → s.devState.busy = true →
      exec .ruid s = .fault (.device .commandWhileBusy))

/-- The commands outside the phases that send them (the spec has no such step, and a step of the machine never does it:
what is stated here is the model's choice, notes/assumptions/8.md): a write-enable, a status read, read-id and
read-unique-id have the effect they have in their phases, but that the sequencer goes on only from them. -/
def Obligations.CommandsOutsideTheirPhases : Prop :=
  ∀ s : State,
    (s.phase ≠ .eraseWren → s.phase ≠ .progWren →
      (s.input.transport = .ok → s.devState.busy = false → exec .wren s = .next { s with
        cs := false, bus := frameEvents ⟨[s.cfg.opc.wren], [], 0⟩ (.ok []) ++ s.bus, devState := .writeEnabled }) ∧
      (∀ e r, s.input.transport = .fail e r → (r = true → s.devState.busy = false) → exec .wren s = .next { s with
        cs := false, bus := frameEvents ⟨[s.cfg.opc.wren], [], 0⟩ (.err e) ++ s.bus
        devState := if r then .writeEnabled else s.devState
        rspStatus := 3, rspValue := 0, rspInfo := e, rspValid := true, phase := .idle })) ∧
    (s.phase.inPoll = false ∨ s.phase = .prePoll ∧ s.reqOp = 0 → s.cfg.Legal →
      (s.input.transport = .ok → ∃ b, ∀ u,
        u = { s with cs := false, bus := frameEvents ⟨[s.cfg.opc.rdsr], [], 1⟩ (.ok [b]) ++ s.bus } →
        (s.devState.busy = false → exec .rdsr s = .next { u with maybeBusy := false, pollCnt := 0 }) ∧
        (s.devState.busy = true → s.pollCnt + 1 = s.cfg.pollMax → exec .rdsr s = .next { u with
          rspStatus := 2, rspValue := 0, rspValid := true, phase := .idle }) ∧
        (s.devState.busy = true → s.pollCnt + 1 ≠ s.cfg.pollMax → exec .rdsr s = .next { u with
          pollCnt := s.pollCnt + 1 })) ∧
      (∀ e r, s.input.transport = .fail e r → exec .rdsr s = .next { s with
        cs := false, bus := frameEvents ⟨[s.cfg.opc.rdsr], [], 1⟩ (.err e) ++ s.bus
        rspStatus := 3, rspValue := 0, rspInfo := e, rspValid := true, phase := .idle })) ∧
    ∀ (p : Phase) (t : State),
      (exec .rdid s = .next t → exec .rdid { s with phase := p } = .next t) ∧
      (exec .ruid s = .next t → exec .ruid { s with phase := p } = .next t)

/-- The rows of the other addressing mode are refused: a configuration sends the number of address bytes it has (R106,
R109; that the model refuses the others is its choice, notes/assumptions/9.md). -/
def Obligations.OtherAddressingModeRefused : Prop :=
  ∀ s : State,
    (s.cfg.addrBytes ≠ 3 → ∀ (a : BitVec 24) (data : List Byte),
      exec (.pp3 a data) s = .refused .addressingMode ∧ exec (.se3 a) s = .refused .addressingMode ∧
      exec (.be3 a) s = .refused .addressingMode) ∧
    (s.cfg.addrBytes ≠ 4 → ∀ (a : BitVec 32) (data : List Byte),
      exec (.pp4 a data) s = .refused .addressingMode ∧ exec (.se4 a) s = .refused .addressingMode ∧
      exec (.be4 a) s = .refused .addressingMode)

/-! ## The phases that send an address -/

/-- R187: the step of `ERASE_CMD` in every state that meets the invariant: the next unit is erased (R70, R173), MAYBE_BUSY
is set on either outcome, and a device may have received a failed frame or not (R88, notes/assumptions/17.md); a size the
encoder refuses would issue no frame and raise UnsupportedOperation (R139). -/
def Obligations.EraseStep : Prop :=
  (∀ s : State, Invariant s → s.agent = .controller → s.phase = .eraseCmd →
    ∀ size d, size = nextUnitSize s.ecur.toNat s.eend.toNat →
      d = (⟨(if size = 65536 then s.cfg.opc.be else s.cfg.opc.se) :: beBytes s.cfg.addrBytes s.ecur.toNat, [], 0⟩ :
        Descriptor) →
      (s.input.transport = .ok → ∃ t, step s = .next t ∧ t = State.tick { s with
          cs := false, bus := frameEvents d (.ok []) ++ s.bus
          devState := .erasing s.ecur.toNat size, flash := t.flash
          maybeBusy := true, ecur := t.ecur, pollCnt := 0, phase := .erasePoll } ∧
        t.ecur.toNat = s.ecur.toNat + size ∧
        ∀ x, t.flash.read x =
          if s.ecur.toNat ≤ x ∧ x < s.ecur.toNat + size then none else s.flash.read x) ∧
      (∀ e r, s.input.transport = .fail e r → ∃ t, step s = .next t ∧ t = State.tick { s with
          cs := false, bus := frameEvents d (.err e) ++ s.bus
          devState := if r then .erasing s.ecur.toNat size else s.devState, flash := t.flash
          maybeBusy := true, rspStatus := 3, rspValue := 0, rspInfo := e, rspValid := true, phase := .idle } ∧
        ∀ x, t.flash.read x =
          if r = true ∧ s.ecur.toNat ≤ x ∧ x < s.ecur.toNat + size then none else s.flash.read x)) ∧
  ∀ (s : State) (size a : Nat), s.cfg.Legal → size ≠ 4096 → size ≠ 65536 →
    commandStep (.erase size a) s = .next { s with
      rspStatus := 4, rspValue := 0, rspValid := true, phase := .idle }

/-- R190: the step of `PROG_CMD` in every state that meets the invariant and has the chunk in the host's buffer: the next
chunk is programmed with the host's bytes (R71, R173), MAYBE_BUSY is set on either outcome, and a device may have received
a failed frame or not (R88, notes/assumptions/17.md). -/
def Obligations.ProgramStep : Prop :=
  ∀ s : State, Invariant s → s.agent = .controller → s.phase = .progCmd →
    ∀ n data d, n = nextChunkLen s.cfg.pageSize s.pcur.toNat s.pend.toNat →
      s.pcur.toNat - s.reqAddr.toNat + n ≤ s.buf.length →
      data = (s.buf.drop (s.pcur.toNat - s.reqAddr.toNat)).take n →
      d = (⟨s.cfg.opc.pp :: beBytes s.cfg.addrBytes s.pcur.toNat, data, 0⟩ : Descriptor) →
      (s.input.transport = .ok → ∃ t, step s = .next t ∧ t = State.tick { s with
          cs := false, bus := frameEvents d (.ok []) ++ s.bus
          devState := .programming s.pcur.toNat data ((List.range' s.pcur.toNat n).map s.flash.read)
          flash := t.flash
          maybeBusy := true, pcur := t.pcur, pollCnt := 0, phase := .progPoll } ∧
        t.pcur.toNat = s.pcur.toNat + n ∧
        ∀ x, t.flash.read x = if s.pcur.toNat ≤ x ∧ x < s.pcur.toNat + n then none else s.flash.read x) ∧
      (∀ e r, s.input.transport = .fail e r → ∃ t, step s = .next t ∧ t = State.tick { s with
          cs := false, bus := frameEvents d (.err e) ++ s.bus
          devState :=
            if r then .programming s.pcur.toNat data ((List.range' s.pcur.toNat n).map s.flash.read) else s.devState
          flash := t.flash
          maybeBusy := true, rspStatus := 3, rspValue := 0, rspInfo := e, rspValid := true, phase := .idle } ∧
        ∀ x, t.flash.read x =
          if r = true ∧ s.pcur.toNat ≤ x ∧ x < s.pcur.toNat + n then none else s.flash.read x)

/-! ## The device's step and the reset event -/

/-- R72, R73: the device's completion step: an erased unit is all 0xFF; a programmed byte keeps the bits that the old
value and the data both have, and stays indeterminate over an indeterminate old value; the device is idle, nothing else
changes. -/
def Obligations.DeviceCompletes : Prop :=
  ∀ s : State, s.configOk = true → s.agent = .device →
    (∀ a size, s.devState = .erasing a size → ∃ t, step s = .next t ∧
      t = State.tick { s with flash := t.flash, devState := .idle } ∧
      ∀ x, t.flash.read x = if a ≤ x ∧ x < a + size then some 0xFF else s.flash.read x) ∧
    (∀ a data old, s.devState = .programming a data old → ∃ t, step s = .next t ∧
      t = State.tick { s with flash := t.flash, devState := .idle } ∧
      (∀ i d v, data[i]? = some d → old[i]? = some (some v) → t.flash.read (a + i) = some (v &&& d)) ∧
      (∀ i, i < data.length → old[i]? = some none → t.flash.read (a + i) = none) ∧
      ∀ x, x < a ∨ a + data.length ≤ x → t.flash.read x = s.flash.read x)

/-- R280, R283: the reset event in any state: the controller's registers at their reset values, no frame, the device, the
array and the configuration untouched; and no other step clears the identification cache. -/
def Obligations.ResetEvent : Prop :=
  (∀ s : State, s.configOk = true → s.agent = .reset → ∃ t, step s = .next t ∧
    t.phase = .idle ∧ t.reqOp = 0 ∧ t.reqAddr = 0 ∧ t.reqLen = 0 ∧ t.pollCnt = 0 ∧ t.maybeBusy = false ∧
    t.idValid = false ∧ t.uidValid = false ∧ t.rspValid = false ∧ t.rspStatus = 0 ∧ t.rspValue = 0 ∧ t.cs = false ∧
    t.bus = s.bus ∧ t.flash = s.flash ∧ t.devState = s.devState ∧ t.cfg = s.cfg) ∧
  ∀ s t : State, step s = .next t → s.agent ≠ .reset →
    (s.idValid = true → t.idValid = true) ∧ (s.uidValid = true → t.uidValid = true)

/-- R227: only reset invalidates the cache, and only the exchange that fills it writes it: outside a reset, a step in any
phase but `ID_CMD` leaves the ID cache, and one in any phase but `UID_CMD` the UID cache. -/
def Obligations.CacheWrittenByExchangeOnly : Prop :=
  ∀ s t : State, step s = .next t → s.agent ≠ .reset →
    (s.idValid = true → t.idValid = true) ∧ (s.uidValid = true → t.uidValid = true) ∧
    (s.phase ≠ .idCmd → t.idValid = s.idValid ∧ t.idRaw = s.idRaw ∧ t.idCode = s.idCode) ∧
    (s.phase ≠ .uidCmd → t.uidValid = s.uidValid ∧ t.uid = s.uid)

/-! ## Invariants -/

/-- The state after reset is the start of a run, and meets the invariant (R280 to R285; its configuration, its device
constants and its empty array are the model's choice, notes/assumptions/1.md to 3.md). -/
def Obligations.ResetIsALaunch : Prop := Launch State.reset ∧ Invariant State.reset

/-- Every launch state meets the invariant: any legal configuration, any array, any identification constants, any
requests (R21, R280 to R285). -/
def Obligations.LaunchHasInvariant : Prop := ∀ s : State, Launch s → Invariant s

/-- Every step of the machine, whoever takes it, keeps the invariant, from every state that meets it (R42 and what it
rests on). -/
def Obligations.StepKeepsInvariant : Prop := ∀ s t : State, Invariant s → step s = .next t → Invariant t

/-- R42: its invariants (a) to (f) hold in every reachable state. -/
def Obligations.ReachableStatesMeetR42 : Prop := ∀ s : State, Reachable s → ControllerInvariants s

/-- The machine goes on from every state that meets the invariant, whatever the environment chooses, and never into a
device fault (R77's last sentences); it stops only by one of two refusals: the host's buffer lacks the bytes of the chunk
(U11, notes/assumptions/10.md), or the device is not idle at the first request after reset (R285, U10,
notes/assumptions/11.md). -/
def Obligations.MachineGoesOn : Prop :=
  ∀ s : State, Invariant s →
    (∃ t, step s = .next t) ∨
    (step s = .refused .hostBufferTooShort ∧ s.phase = .progCmd ∧
      s.bufRead s.pcur.toNat (nextChunkLen s.cfg.pageSize s.pcur.toNat s.pend.toNat) = none) ∨
    (step s = .refused .deviceNotIdleAtLaunch ∧ s.phase = .idle ∧ s.host ≠ [] ∧ s.launched = false ∧
      s.devState ≠ .idle)

/-- R196: in every run, a frame other than read-status is issued only in a state with MAYBE_BUSY = 0, and then the device
is not erasing or programming. -/
def Obligations.NoCommandWhileBusy : Prop :=
  ∀ (s t : State) (d : Descriptor) (o : FrameOutcome), Reachable s → step s = .next t →
    t.bus = frameEvents d o ++ s.bus → d.commandBytes.head? ≠ some s.cfg.opc.rdsr →
    s.maybeBusy = false ∧ s.devState.busy = false

/-- R30: MAYBE_BUSY is set by every step that sends an erase or program frame, whatever its outcome, and cleared, outside
a reset, only by a status read without a busy bit. -/
def Obligations.MaybeBusyFollowsTheFrames : Prop :=
  ∀ s t : State, step s = .next t →
    (∀ d o, t.bus = frameEvents d o ++ s.bus →
      d.commandBytes.head? = some s.cfg.opc.se ∨ d.commandBytes.head? = some s.cfg.opc.be ∨
        d.commandBytes.head? = some s.cfg.opc.pp → t.maybeBusy = true) ∧
    (s.agent ≠ .reset → s.maybeBusy = true → t.maybeBusy = false →
      ∃ b, b &&& s.cfg.busyMask = 0 ∧ t.bus = frameEvents ⟨[s.cfg.opc.rdsr], [], 1⟩ (.ok [b]) ++ s.bus)

/-- No step writes the configuration or the device's identification constants (R8, R39). -/
def Obligations.ConstantsStay : Prop :=
  ∀ s t : State, step s = .next t → t.cfg = s.cfg ∧ t.devId = s.devId ∧ t.devUid = s.devUid

/-- A step adds nothing to the bus, or exactly one frame, which the controller sends outside `IDLE`: select, transact,
release, the release on error too (R25, R103, R104). -/
def Obligations.OneFramePerStep : Prop :=
  ∀ s t : State, step s = .next t →
    t.bus = s.bus ∨
    ∃ d o, t.bus = frameEvents d o ++ s.bus ∧ t.cs = false ∧ s.agent = .controller ∧ s.phase ≠ .idle

/-- R246: a step whose frame has an error outcome aborts the request in the same step: the transport's error value in
RSP_INFO, status 3, value 0, IDLE. -/
def Obligations.EveryFrameErrorAborts : Prop :=
  ∀ (s t : State) (d : Descriptor) (e : TransportError), step s = .next t →
    t.bus = frameEvents d (.err e) ++ s.bus →
    t.phase = .idle ∧ t.rspValid = true ∧ t.rspStatus = 3 ∧ t.rspValue = 0 ∧ t.rspInfo = e

/-- The ways back to `IDLE` (R200): on the controller's turn, success, DeviceTimeout or TransportError, each with a valid
response; the device's turn leaves the phase. -/
def Obligations.WaysBackToIdle : Prop :=
  ∀ s t : State, Invariant s → s.phase ≠ .idle → step s = .next t →
    (s.agent = .device → t.phase = s.phase) ∧
    (s.agent = .controller → t.phase = .idle →
      t.rspValid = true ∧ (t.rspStatus = 0 ∨ t.rspStatus = 2 ∨ t.rspStatus = 3))

/-- R228: the identification requests leave the array and the device as they are, never set MAYBE_BUSY, and send no
write-enable, erase or program. -/
def Obligations.QueriesLeaveTheDevice : Prop :=
  (∀ s t : State, Invariant s → s.phase ≠ .idle → s.reqOp = 2 ∨ s.reqOp = 3 → s.agent = .controller →
    step s = .next t → t.flash = s.flash ∧ t.devState = s.devState ∧ (s.maybeBusy = false → t.maybeBusy = false) ∧
    ∃ d o, t.bus = frameEvents d o ++ s.bus ∧
      (d.commandBytes.head? = some s.cfg.opc.rdsr ∨ d.commandBytes.head? = some s.cfg.opc.rdid ∨
        d.commandBytes.head? = some s.cfg.opc.ruid)) ∧
  ∀ (s t : State) (a l : U32),
    exec (.readId a l) s = .next t ∨ exec (.readUniqueId a l) s = .next t →
    t.flash = s.flash ∧ t.devState = s.devState ∧ t.maybeBusy = s.maybeBusy ∧ t.bus = s.bus

/-- What the controller does depends on the array in nothing (R85, R199): with another array the same step is taken, and
only the array, and the old bytes the device remembers of it, differ: the device's operation, its address, its size and
its data are the same. -/
def Obligations.ControllerNeverReadsTheArray : Prop :=
  ∀ (s t : State) (m : Memory), step s = .next t → ∃ t', step { s with flash := m } = .next t' ∧
    { t' with flash := t.flash, devState := t.devState } = t ∧
    t'.devState.withoutOld = t.devState.withoutOld

/-- The array's laws: a write and a range made indeterminate keep the canonical form and change the bytes of their range
alone, and arrays of that form that read alike are equal (R14, R40, R60). -/
def Obligations.ArrayLaws : Prop :=
  ∀ (m : Memory) (a : Nat), m.wf →
    (∀ vs : List (Option Byte), (m.write a vs).wf ∧
      (∀ i v, vs[i]? = some v → (m.write a vs).read (a + i) = v) ∧
      ∀ x, x < a ∨ a + vs.length ≤ x → (m.write a vs).read x = m.read x) ∧
    (∀ n, (m.forget a n).wf ∧
      ∀ x, (m.forget a n).read x = if a ≤ x ∧ x < a + n then none else m.read x) ∧
    ∀ m' : Memory, m'.wf → (∀ x, m.read x = m'.read x) → m = m'

/-! ## The planner and the pages -/

/-- R162, R163, R164, R166, R169: out of bounds there is no plan; an empty request plans nothing (decision D13); else the
units abut from `lo` to `hi`, each aligned to its size, inside the capacity, pairwise apart, and cover the request. -/
def Obligations.PlanCoversTheRoundedRange : Prop :=
  ∀ (c : Cfg) (a l : Nat), c.Legal →
    (c.capacity < a + l → plan c a l = none) ∧
    (a + l ≤ c.capacity → l = 0 → plan c a l = some []) ∧
    (a + l ≤ c.capacity → 0 < l → ∃ us, plan c a l = some us ∧
      Tiles us (a / 4096 * 4096) ((a + l + 4095) / 4096 * 4096) ∧
      (∀ u ∈ us, u.1 + u.2 ≤ c.capacity) ∧
      us.Pairwise (fun u v => u.1 + u.2 ≤ v.1) ∧
      ∀ x, a ≤ x → x < a + l → ∃ u ∈ us, u.1 ≤ x ∧ x < u.1 + u.2)

/-- R167: a request whose rounded range is exactly one aligned 64 KiB block gets one block erase. -/
def Obligations.PlanOfAWholeBlock : Prop :=
  ∀ (c : Cfg) (a l lo : Nat), a + l ≤ c.capacity → 0 < l →
    lo = a / 4096 * 4096 → lo % 65536 = 0 → (a + l + 4095) / 4096 * 4096 = lo + 65536 →
    plan c a l = some [(lo, 65536)]

/-- Of the abutting units of legal sizes, each aligned to its size, that cover exactly `[lo, hi)`, the planner's are the
fewest, no other are as few, and there are as many as R168 counts. -/
def Obligations.PlanIsTheFewestUnits : Prop :=
  ∀ lo hi : Nat, lo % 4096 = 0 → hi % 4096 = 0 → lo ≤ hi →
    Tiles (unitsFrom lo hi) lo hi ∧
    (∀ us, Tiles us lo hi → (unitsFrom lo hi).length ≤ us.length ∧
      (us.length = (unitsFrom lo hi).length → us = unitsFrom lo hi)) ∧
    ∀ mlo mhi, mlo = min ((lo + 65535) / 65536 * 65536) hi → mhi = max (hi / 65536 * 65536) mlo →
      (unitsFrom lo hi).length = (mlo - lo) / 4096 + (mhi - mlo) / 65536 + (hi - mhi) / 4096

/-- R172: the chunks abut from the request's start to its end; none is empty, longer than a page or across a page
boundary; only the first can start off a boundary, only the first and the last can be short; and their number. -/
def Obligations.PagesCutAtPageBoundaries : Prop :=
  ∀ (c : Cfg) (a l : Nat), c.Legal →
    Abut (pages c a l) a (a + l) ∧
    (∀ p ∈ pages c a l, 1 ≤ p.2 ∧ p.2 ≤ c.pageSize ∧ p.1 % c.pageSize + p.2 ≤ c.pageSize) ∧
    (∀ p ∈ (pages c a l).tail, p.1 % c.pageSize = 0) ∧
    (∀ p ∈ (pages c a l).tail.dropLast, p.2 = c.pageSize) ∧
    (pages c a l).length =
      if l = 0 then 0 else (a + l + c.pageSize - 1) / c.pageSize - a / c.pageSize

/-- R173: the sequencers' incremental form: the units from a cursor are the next unit and the units after it, the chunks
from a cursor the next chunk and the chunks after it, until the cursor reaches the end; from the rounded start they are
the plan, from the request's start the pages. -/
def Obligations.IncrementalForm : Prop :=
  (∀ c hi, unitsFrom c hi =
    if c < hi then
      (if c % 65536 = 0 ∧ c + 65536 ≤ hi then (c, 65536) :: unitsFrom (c + 65536) hi
        else (c, 4096) :: unitsFrom (c + 4096) hi)
    else []) ∧
  (∀ p c e, 0 < p → chunksFrom p c e =
    if c < e then (c, min (e - c) (p - c % p)) :: chunksFrom p (c + min (e - c) (p - c % p)) e else []) ∧
  (∀ (c : Cfg) (a l : Nat), a + l ≤ c.capacity → 0 < l →
    plan c a l = some (unitsFrom (a / 4096 * 4096) ((a + l + 4095) / 4096 * 4096))) ∧
  ∀ (c : Cfg) (a l : Nat), pages c a l = chunksFrom c.pageSize a (a + l)

/-! ## Whole requests -/

/-- R86: the round trip. A WRITE_STREAM request that ends with `Ok`, from any state that meets the invariant, whatever
the array held, leaves exactly the host's bytes at the addresses it names; the host's buffer holds as many (R286). -/
def Obligations.WriteRoundTrip : Prop :=
  ∀ (s t : State) (a l : U32) (data : List Byte), Invariant s → WriteCompletes a l data s t →
    l.toNat ≤ data.length →
    t.flash.readRange a.toNat l.toNat = (data.take l.toNat).map some

/-- The end state after success (R197, R202): the response is the length; the device is idle; the margins of the rounded
range are 0xFF (the spec's own decision D12); outside the rounded range a byte is as it was, unless an operation left
over from an earlier request was still at work on it when this one was accepted. -/
def Obligations.WriteEndState : Prop :=
  ∀ (s t : State) (a l : U32) (data : List Byte), Invariant s → WriteCompletes a l data s t →
    t.rspValue = l ∧ t.devState = .idle ∧ t.maybeBusy = false ∧
    (∀ i, i < l.toNat → t.flash.read (a.toNat + i) = data[i]?) ∧
    (∀ x, a.toNat / 4096 * 4096 ≤ x → x < a.toNat → t.flash.read x = some 0xFF) ∧
    (∀ x, a.toNat + l.toNat ≤ x → x < (a.toNat + l.toNat + 4095) / 4096 * 4096 → t.flash.read x = some 0xFF) ∧
    ∀ x, x < a.toNat / 4096 * 4096 ∨ (a.toNat + l.toNat + 4095) / 4096 * 4096 ≤ x →
      s.devState.covers x = false → t.flash.read x = s.flash.read x

/-- R87: a request applied twice leaves the array as it was after the first time, and both times sends the full sequence of
erases and programs, none skipped: the same frames, status reads apart. -/
def Obligations.WriteIsIdempotent : Prop :=
  ∀ (s t u : State) (a l : U32) (data : List Byte), Invariant s →
    WriteCompletes a l data s t → WriteCompletes a l data t u →
    u.flash = t.flash ∧
    commandsOn s.cfg t.bus = commandsOn s.cfg s.bus ++ writeFrames s.cfg a.toNat l.toNat data ∧
    commandsOn s.cfg u.bus = commandsOn s.cfg t.bus ++ writeFrames s.cfg a.toNat l.toNat data

/-- The frames of a write that ends with `Ok`, status reads apart: a write-enable and the erase for each unit of the plan,
then a write-enable and the program for each chunk, each in ascending order, none left out (R184, R185, R190, R199, R201,
R290). -/
def Obligations.WriteSendsItsPlan : Prop :=
  ∀ (s t : State) (a l : U32) (data : List Byte), Invariant s → WriteCompletes a l data s t →
    commandsOn s.cfg t.bus = commandsOn s.cfg s.bus ++ writeFrames s.cfg a.toNat l.toNat data

/-- The block cannot hang (R201): however the environment chooses, a write sends at most `(E + C) (2 + POLL_MAX) +
POLL_MAX` frames, and each of the controller's turns inside the request sends one. -/
def Obligations.WriteFramesAreBounded : Prop :=
  ∀ (s m n t : State) (a l : U32) (data : List Byte), Invariant s → Presents a l data s → step s = .next m →
    m.phase ≠ .idle → WithinRequest m n → step n = .next t →
    frameCount t.bus ≤ frameCount s.bus +
      ((unitsFrom (a.toNat / 4096 * 4096) ((a.toNat + l.toNat + 4095) / 4096 * 4096)).length +
        (pages s.cfg a.toNat l.toNat).length) * (2 + s.cfg.pollMax) + s.cfg.pollMax ∧
    (n.agent = .controller → frameCount t.bus = frameCount n.bus + 1)

/-- Bytes outside the rounded range are unchanged in every case (R203): at every point of a write and after its end,
however it ends, but for bytes that an operation left over from an earlier request was still at work on. -/
def Obligations.WriteStaysInItsRange : Prop :=
  ∀ (s m n t : State) (a l : U32) (data : List Byte), Invariant s → Presents a l data s → step s = .next m →
    m.phase ≠ .idle → WithinRequest m n → step n = .next t →
    ∀ x, x < a.toNat / 4096 * 4096 ∨ (a.toNat + l.toNat + 4095) / 4096 * 4096 ≤ x →
      s.devState.covers x = false → t.flash.read x = s.flash.read x

end
end

