-- ==== Sys2Proof/Laws/Bytes.lean ====
section
/-! SUPPORT. Big-endian byte sequences (spec/00_scope.md R12) and the fields of the request word. -/

namespace Sys2Proof

@[simp] theorem beBytes_length (n v : Nat) : (beBytes n v).length = n := by
  induction n with
  | zero => rfl
  | succ n ih => simp [beBytes, ih]

/-- Assembling the big-endian bytes of a value gives the value modulo what they hold. -/
theorem fromBe_beBytes_mod (n v : Nat) : fromBe (beBytes n v) = v % 256 ^ n := by
  induction n with
  | zero => simp [beBytes, fromBe, Nat.mod_one]
  | succ n ih =>
    have h : v % (256 ^ n * 256) = v % 256 ^ n + 256 ^ n * (v / 256 ^ n % 256) := Nat.mod_mul
    rw [beBytes, fromBe, ih, beBytes_length, BitVec.toNat_ofNat, pow_succ 256 n, h, Nat.mul_comm, Nat.add_comm]

theorem fromBe_beBytes (n v : Nat) (h : v < 2 ^ (8 * n)) : fromBe (beBytes n v) = v := by
  rw [fromBe_beBytes_mod, Nat.mod_eq_of_lt]
  rwa [show 256 = 2 ^ 8 by rfl, ← pow_mul]

theorem ofNat_fromBe_beBytes_24 (v : Nat) : BitVec.ofNat 24 (fromBe (beBytes 3 v)) = BitVec.ofNat 24 v := by
  rw [fromBe_beBytes_mod]
  apply BitVec.eq_of_toNat_eq
  simp

theorem ofNat_fromBe_beBytes_32 (v : Nat) : BitVec.ofNat 32 (fromBe (beBytes 4 v)) = BitVec.ofNat 32 v := by
  rw [fromBe_beBytes_mod]
  apply BitVec.eq_of_toNat_eq
  simp

theorem requestWord_getLsbD (op : BitVec 2) (a l : U32) (i : Nat) :
    (requestWord op a l).getLsbD i =
      if i < 32 then l.getLsbD i else if i - 32 < 32 then a.getLsbD (i - 32) else op.getLsbD (i - 32 - 32) := by
  show (op ++ a ++ l : BitVec (2 + 32 + 32)).getLsbD i = _
  rw [BitVec.getLsbD_append, BitVec.getLsbD_append]

@[simp] theorem requestOp_word (op : BitVec 2) (a l : U32) : requestOp (requestWord op a l) = op := by
  refine BitVec.eq_of_getLsbD_eq fun i hi => ?_
  rw [requestOp, BitVec.getLsbD_extractLsb', requestWord_getLsbD]
  simp [hi, show ¬ 64 + i < 32 by omega, show ¬ 64 + i - 32 < 32 by omega, show 64 + i - 32 - 32 = i by omega]

@[simp] theorem requestAddr_word (op : BitVec 2) (a l : U32) : requestAddr (requestWord op a l) = a := by
  refine BitVec.eq_of_getLsbD_eq fun i hi => ?_
  rw [requestAddr, BitVec.getLsbD_extractLsb', requestWord_getLsbD]
  simp [hi]

@[simp] theorem requestLen_word (op : BitVec 2) (a l : U32) : requestLen (requestWord op a l) = l := by
  refine BitVec.eq_of_getLsbD_eq fun i hi => ?_
  rw [requestLen, BitVec.getLsbD_extractLsb', requestWord_getLsbD]
  simp [hi]

/-- A request word is its three fields. -/
theorem requestWord_fields (w : BitVec 66) : requestWord (requestOp w) (requestAddr w) (requestLen w) = w := by
  refine BitVec.eq_of_getLsbD_eq fun i hi => ?_
  rw [requestWord_getLsbD]
  simp only [requestOp, requestAddr, requestLen, BitVec.getLsbD_extractLsb']
  split
  · simp [*]
  · split
    · simp [*, show 32 + (i - 32) = i by omega]
    · simp [show i - 32 - 32 < 2 by omega, show 64 + (i - 32 - 32) = i by omega]

end Sys2Proof
end

