-- ==== Sys2Proof/Laws/Config.lean ====
section
/-! SUPPORT. What a legal configuration gives (spec/00_scope.md R9), and the status byte under it
(spec/20_memory.md R74). -/

namespace Sys2Proof

theorem Cfg.wf_iff (c : Cfg) : c.wf = true ↔ c.Legal := decide_eq_true_iff

namespace Machine

theorem configOk_iff (s : State) :
    s.configOk = true ↔ s.cfg.Legal ∧ s.devId.length = s.cfg.idLen ∧ s.devUid.length = s.cfg.uidLen := by
  simp only [State.configOk, Bool.and_eq_true, decide_eq_true_eq, Cfg.wf_iff, and_assoc]

end Machine

section
variable {c : Cfg} (h : c.Legal)
include h

theorem legal_addrBytes : c.addrBytes = 3 ∨ c.addrBytes = 4 := h.2.1

theorem legal_capacity_addressable : c.capacity ≤ 2 ^ (8 * c.addrBytes) := h.1.2.2.2

theorem legal_capacity_le : c.capacity ≤ 2 ^ 32 := h.1.2.1

theorem legal_capacity_mod : c.capacity % 4096 = 0 := h.1.2.2.1

theorem legal_eraseSet : c.eraseSet = [sectorSize, blockSize] := h.2.2.2.1

theorem legal_pollMax : 1 ≤ c.pollMax := h.2.2.2.2.2.1

theorem legal_busyMask : c.busyMask ≠ 0 := h.2.2.2.2.2.2.1.1

theorem legal_masks : c.busyMask &&& c.welMask = 0 := h.2.2.2.2.2.2.1.2.2

theorem legal_idLen : 1 ≤ c.idLen ∧ c.idLen ≤ 4 := h.2.2.2.2.2.2.2.1

theorem legal_pageSize : 0 < c.pageSize ∧ c.pageSize ≤ 65536 := by
  obtain ⟨k, hk, h⟩ := List.mem_map.mp h.2.2.1
  rw [List.mem_range] at hk
  exact h ▸ ⟨Nat.pow_pos (by omega), Nat.pow_le_pow_right (by omega) (show k ≤ 16 by omega)⟩

/-- The seven opcodes are pairwise distinct: what the decoder needs, each against the ones it tests before. -/
theorem legal_opcodes :
    c.opc.rdsr ≠ c.opc.wren ∧
    (c.opc.pp ≠ c.opc.wren ∧ c.opc.pp ≠ c.opc.rdsr) ∧
    (c.opc.se ≠ c.opc.wren ∧ c.opc.se ≠ c.opc.rdsr ∧ c.opc.se ≠ c.opc.pp) ∧
    (c.opc.be ≠ c.opc.wren ∧ c.opc.be ≠ c.opc.rdsr ∧ c.opc.be ≠ c.opc.pp ∧ c.opc.be ≠ c.opc.se) ∧
    (c.opc.rdid ≠ c.opc.wren ∧ c.opc.rdid ≠ c.opc.rdsr ∧ c.opc.rdid ≠ c.opc.pp ∧ c.opc.rdid ≠ c.opc.se ∧
      c.opc.rdid ≠ c.opc.be) ∧
    (c.opc.ruid ≠ c.opc.wren ∧ c.opc.ruid ≠ c.opc.rdsr ∧ c.opc.ruid ≠ c.opc.pp ∧ c.opc.ruid ≠ c.opc.se ∧
      c.opc.ruid ≠ c.opc.be ∧ c.opc.ruid ≠ c.opc.rdid) := by
  have hd := h.2.2.2.2.1
  simp only [Opcodes.toList, List.nodup_cons, List.mem_cons, List.not_mem_nil, or_false, not_or] at hd
  obtain ⟨⟨h1, h2, h3, h4, h5, h6⟩, ⟨h7, h8, h9, h10, h11⟩, ⟨h12, h13, h14, h15⟩, ⟨h16, h17, h18⟩, ⟨h19, h20⟩, h21, -⟩ :=
    hd
  exact ⟨Ne.symm h1, ⟨Ne.symm h2, Ne.symm h7⟩, ⟨Ne.symm h3, Ne.symm h8, Ne.symm h12⟩,
    ⟨Ne.symm h4, Ne.symm h9, Ne.symm h13, Ne.symm h16⟩,
    ⟨Ne.symm h5, Ne.symm h10, Ne.symm h14, Ne.symm h17, Ne.symm h19⟩,
    ⟨Ne.symm h6, Ne.symm h11, Ne.symm h15, Ne.symm h18, Ne.symm h20, Ne.symm h21⟩⟩

/-- The status byte means busy exactly while the device is busy (R38, R74). -/
theorem statusBusy_statusByte (d : Machine.DevState) (free : Byte) :
    Machine.statusBusy c (Machine.statusByte c d free) = d.busy := by
  have hm : c.welMask &&& c.busyMask = 0 := (BitVec.and_comm _ _).trans (legal_masks h)
  have hf : free &&& ~~~(c.busyMask ||| c.welMask) &&& c.busyMask = 0 := by
    ext i hi
    cases hb : c.busyMask[i] <;> simp [hb]
  have hd : ∀ x y m : Byte, (x ||| y) &&& m = (x &&& m) ||| (y &&& m) := by
    intro x y m
    ext i hi
    simp only [BitVec.getElem_and, BitVec.getElem_or, Bool.and_or_distrib_right]
  have hb : c.busyMask ≠ 0#8 := legal_busyMask h
  cases d <;>
    simp [Machine.statusBusy, Machine.statusByte, Machine.DevState.busy, Machine.DevState.latch, hd, hf, hm, hb]

end

end Sys2Proof
end

