-- ==== Sys2Proof/Laws/State.lean ====
section
/-! SUPPORT. One lemma for each field and each shared update of the state: what the update makes of the field. -/

namespace Sys2Proof.Machine


/-! ## State.tick -/

@[simp] theorem State.tick_cfg (s : State) : (s.tick).cfg = s.cfg := rfl
@[simp] theorem State.tick_phase (s : State) : (s.tick).phase = s.phase := rfl
@[simp] theorem State.tick_reqOp (s : State) : (s.tick).reqOp = s.reqOp := rfl
@[simp] theorem State.tick_reqAddr (s : State) : (s.tick).reqAddr = s.reqAddr := rfl
@[simp] theorem State.tick_reqLen (s : State) : (s.tick).reqLen = s.reqLen := rfl
@[simp] theorem State.tick_ecur (s : State) : (s.tick).ecur = s.ecur := rfl
@[simp] theorem State.tick_eend (s : State) : (s.tick).eend = s.eend := rfl
@[simp] theorem State.tick_pcur (s : State) : (s.tick).pcur = s.pcur := rfl
@[simp] theorem State.tick_pend (s : State) : (s.tick).pend = s.pend := rfl
@[simp] theorem State.tick_pollCnt (s : State) : (s.tick).pollCnt = s.pollCnt := rfl
@[simp] theorem State.tick_maybeBusy (s : State) : (s.tick).maybeBusy = s.maybeBusy := rfl
@[simp] theorem State.tick_idValid (s : State) : (s.tick).idValid = s.idValid := rfl
@[simp] theorem State.tick_idCode (s : State) : (s.tick).idCode = s.idCode := rfl
@[simp] theorem State.tick_idRaw (s : State) : (s.tick).idRaw = s.idRaw := rfl
@[simp] theorem State.tick_uidValid (s : State) : (s.tick).uidValid = s.uidValid := rfl
@[simp] theorem State.tick_uid (s : State) : (s.tick).uid = s.uid := rfl
@[simp] theorem State.tick_rspValid (s : State) : (s.tick).rspValid = s.rspValid := rfl
@[simp] theorem State.tick_rspStatus (s : State) : (s.tick).rspStatus = s.rspStatus := rfl
@[simp] theorem State.tick_rspValue (s : State) : (s.tick).rspValue = s.rspValue := rfl
@[simp] theorem State.tick_rspInfo (s : State) : (s.tick).rspInfo = s.rspInfo := rfl
@[simp] theorem State.tick_cs (s : State) : (s.tick).cs = s.cs := rfl
@[simp] theorem State.tick_flash (s : State) : (s.tick).flash = s.flash := rfl
@[simp] theorem State.tick_devState (s : State) : (s.tick).devState = s.devState := rfl
@[simp] theorem State.tick_devId (s : State) : (s.tick).devId = s.devId := rfl
@[simp] theorem State.tick_devUid (s : State) : (s.tick).devUid = s.devUid := rfl
@[simp] theorem State.tick_host (s : State) : (s.tick).host = s.host := rfl
@[simp] theorem State.tick_buf (s : State) : (s.tick).buf = s.buf := rfl
@[simp] theorem State.tick_bus (s : State) : (s.tick).bus = s.bus := rfl
@[simp] theorem State.tick_launched (s : State) : (s.tick).launched = s.launched := rfl
@[simp] theorem State.tick_inputs (s : State) : (s.tick).inputs = s.inputs.tail := rfl
@[simp] theorem State.tick_draws (s : State) : (s.tick).draws = s.draws + 1 := rfl

/-! ## respond -/

@[simp] theorem respond_cfg (v : U32) (s : State) : (respond v s).cfg = s.cfg := rfl
@[simp] theorem respond_phase (v : U32) (s : State) : (respond v s).phase = .idle := rfl
@[simp] theorem respond_reqOp (v : U32) (s : State) : (respond v s).reqOp = s.reqOp := rfl
@[simp] theorem respond_reqAddr (v : U32) (s : State) : (respond v s).reqAddr = s.reqAddr := rfl
@[simp] theorem respond_reqLen (v : U32) (s : State) : (respond v s).reqLen = s.reqLen := rfl
@[simp] theorem respond_ecur (v : U32) (s : State) : (respond v s).ecur = s.ecur := rfl
@[simp] theorem respond_eend (v : U32) (s : State) : (respond v s).eend = s.eend := rfl
@[simp] theorem respond_pcur (v : U32) (s : State) : (respond v s).pcur = s.pcur := rfl
@[simp] theorem respond_pend (v : U32) (s : State) : (respond v s).pend = s.pend := rfl
@[simp] theorem respond_pollCnt (v : U32) (s : State) : (respond v s).pollCnt = s.pollCnt := rfl
@[simp] theorem respond_maybeBusy (v : U32) (s : State) : (respond v s).maybeBusy = s.maybeBusy := rfl
@[simp] theorem respond_idValid (v : U32) (s : State) : (respond v s).idValid = s.idValid := rfl
@[simp] theorem respond_idCode (v : U32) (s : State) : (respond v s).idCode = s.idCode := rfl
@[simp] theorem respond_idRaw (v : U32) (s : State) : (respond v s).idRaw = s.idRaw := rfl
@[simp] theorem respond_uidValid (v : U32) (s : State) : (respond v s).uidValid = s.uidValid := rfl
@[simp] theorem respond_uid (v : U32) (s : State) : (respond v s).uid = s.uid := rfl
@[simp] theorem respond_rspValid (v : U32) (s : State) : (respond v s).rspValid = true := rfl
@[simp] theorem respond_rspStatus (v : U32) (s : State) : (respond v s).rspStatus = 0 := rfl
@[simp] theorem respond_rspValue (v : U32) (s : State) : (respond v s).rspValue = v := rfl
@[simp] theorem respond_rspInfo (v : U32) (s : State) : (respond v s).rspInfo = s.rspInfo := rfl
@[simp] theorem respond_cs (v : U32) (s : State) : (respond v s).cs = s.cs := rfl
@[simp] theorem respond_flash (v : U32) (s : State) : (respond v s).flash = s.flash := rfl
@[simp] theorem respond_devState (v : U32) (s : State) : (respond v s).devState = s.devState := rfl
@[simp] theorem respond_devId (v : U32) (s : State) : (respond v s).devId = s.devId := rfl
@[simp] theorem respond_devUid (v : U32) (s : State) : (respond v s).devUid = s.devUid := rfl
@[simp] theorem respond_host (v : U32) (s : State) : (respond v s).host = s.host := rfl
@[simp] theorem respond_buf (v : U32) (s : State) : (respond v s).buf = s.buf := rfl
@[simp] theorem respond_bus (v : U32) (s : State) : (respond v s).bus = s.bus := rfl
@[simp] theorem respond_launched (v : U32) (s : State) : (respond v s).launched = s.launched := rfl
@[simp] theorem respond_inputs (v : U32) (s : State) : (respond v s).inputs = s.inputs := rfl
@[simp] theorem respond_draws (v : U32) (s : State) : (respond v s).draws = s.draws := rfl

/-! ## latchRequest -/

@[simp] theorem latchRequest_cfg (op : BitVec 2) (a l : U32) (s : State) : (latchRequest op a l s).cfg = s.cfg := rfl
@[simp] theorem latchRequest_phase (op : BitVec 2) (a l : U32) (s : State) : (latchRequest op a l s).phase = s.phase := rfl
@[simp] theorem latchRequest_reqOp (op : BitVec 2) (a l : U32) (s : State) : (latchRequest op a l s).reqOp = op := rfl
@[simp] theorem latchRequest_reqAddr (op : BitVec 2) (a l : U32) (s : State) : (latchRequest op a l s).reqAddr = a := rfl
@[simp] theorem latchRequest_reqLen (op : BitVec 2) (a l : U32) (s : State) : (latchRequest op a l s).reqLen = l := rfl
@[simp] theorem latchRequest_ecur (op : BitVec 2) (a l : U32) (s : State) : (latchRequest op a l s).ecur = s.ecur := rfl
@[simp] theorem latchRequest_eend (op : BitVec 2) (a l : U32) (s : State) : (latchRequest op a l s).eend = s.eend := rfl
@[simp] theorem latchRequest_pcur (op : BitVec 2) (a l : U32) (s : State) : (latchRequest op a l s).pcur = s.pcur := rfl
@[simp] theorem latchRequest_pend (op : BitVec 2) (a l : U32) (s : State) : (latchRequest op a l s).pend = s.pend := rfl
@[simp] theorem latchRequest_pollCnt (op : BitVec 2) (a l : U32) (s : State) : (latchRequest op a l s).pollCnt = s.pollCnt := rfl
@[simp] theorem latchRequest_maybeBusy (op : BitVec 2) (a l : U32) (s : State) : (latchRequest op a l s).maybeBusy = s.maybeBusy := rfl
@[simp] theorem latchRequest_idValid (op : BitVec 2) (a l : U32) (s : State) : (latchRequest op a l s).idValid = s.idValid := rfl
@[simp] theorem latchRequest_idCode (op : BitVec 2) (a l : U32) (s : State) : (latchRequest op a l s).idCode = s.idCode := rfl
@[simp] theorem latchRequest_idRaw (op : BitVec 2) (a l : U32) (s : State) : (latchRequest op a l s).idRaw = s.idRaw := rfl
@[simp] theorem latchRequest_uidValid (op : BitVec 2) (a l : U32) (s : State) : (latchRequest op a l s).uidValid = s.uidValid := rfl
@[simp] theorem latchRequest_uid (op : BitVec 2) (a l : U32) (s : State) : (latchRequest op a l s).uid = s.uid := rfl
@[simp] theorem latchRequest_rspValid (op : BitVec 2) (a l : U32) (s : State) : (latchRequest op a l s).rspValid = false := rfl
@[simp] theorem latchRequest_rspStatus (op : BitVec 2) (a l : U32) (s : State) : (latchRequest op a l s).rspStatus = s.rspStatus := rfl
@[simp] theorem latchRequest_rspValue (op : BitVec 2) (a l : U32) (s : State) : (latchRequest op a l s).rspValue = s.rspValue := rfl
@[simp] theorem latchRequest_rspInfo (op : BitVec 2) (a l : U32) (s : State) : (latchRequest op a l s).rspInfo = s.rspInfo := rfl
@[simp] theorem latchRequest_cs (op : BitVec 2) (a l : U32) (s : State) : (latchRequest op a l s).cs = s.cs := rfl
@[simp] theorem latchRequest_flash (op : BitVec 2) (a l : U32) (s : State) : (latchRequest op a l s).flash = s.flash := rfl
@[simp] theorem latchRequest_devState (op : BitVec 2) (a l : U32) (s : State) : (latchRequest op a l s).devState = s.devState := rfl
@[simp] theorem latchRequest_devId (op : BitVec 2) (a l : U32) (s : State) : (latchRequest op a l s).devId = s.devId := rfl
@[simp] theorem latchRequest_devUid (op : BitVec 2) (a l : U32) (s : State) : (latchRequest op a l s).devUid = s.devUid := rfl
@[simp] theorem latchRequest_host (op : BitVec 2) (a l : U32) (s : State) : (latchRequest op a l s).host = s.host := rfl
@[simp] theorem latchRequest_buf (op : BitVec 2) (a l : U32) (s : State) : (latchRequest op a l s).buf = s.buf := rfl
@[simp] theorem latchRequest_bus (op : BitVec 2) (a l : U32) (s : State) : (latchRequest op a l s).bus = s.bus := rfl
@[simp] theorem latchRequest_launched (op : BitVec 2) (a l : U32) (s : State) : (latchRequest op a l s).launched = s.launched := rfl
@[simp] theorem latchRequest_inputs (op : BitVec 2) (a l : U32) (s : State) : (latchRequest op a l s).inputs = s.inputs := rfl
@[simp] theorem latchRequest_draws (op : BitVec 2) (a l : U32) (s : State) : (latchRequest op a l s).draws = s.draws := rfl

/-! ## takeRequest -/

@[simp] theorem takeRequest_cfg (r : HostRequest) (rest : List HostRequest) (s : State) : (takeRequest r rest s).cfg = s.cfg := rfl
@[simp] theorem takeRequest_phase (r : HostRequest) (rest : List HostRequest) (s : State) : (takeRequest r rest s).phase = s.phase := rfl
@[simp] theorem takeRequest_reqOp (r : HostRequest) (rest : List HostRequest) (s : State) : (takeRequest r rest s).reqOp = s.reqOp := rfl
@[simp] theorem takeRequest_reqAddr (r : HostRequest) (rest : List HostRequest) (s : State) : (takeRequest r rest s).reqAddr = s.reqAddr := rfl
@[simp] theorem takeRequest_reqLen (r : HostRequest) (rest : List HostRequest) (s : State) : (takeRequest r rest s).reqLen = s.reqLen := rfl
@[simp] theorem takeRequest_ecur (r : HostRequest) (rest : List HostRequest) (s : State) : (takeRequest r rest s).ecur = s.ecur := rfl
@[simp] theorem takeRequest_eend (r : HostRequest) (rest : List HostRequest) (s : State) : (takeRequest r rest s).eend = s.eend := rfl
@[simp] theorem takeRequest_pcur (r : HostRequest) (rest : List HostRequest) (s : State) : (takeRequest r rest s).pcur = s.pcur := rfl
@[simp] theorem takeRequest_pend (r : HostRequest) (rest : List HostRequest) (s : State) : (takeRequest r rest s).pend = s.pend := rfl
@[simp] theorem takeRequest_pollCnt (r : HostRequest) (rest : List HostRequest) (s : State) : (takeRequest r rest s).pollCnt = s.pollCnt := rfl
@[simp] theorem takeRequest_maybeBusy (r : HostRequest) (rest : List HostRequest) (s : State) : (takeRequest r rest s).maybeBusy = s.maybeBusy := rfl
@[simp] theorem takeRequest_idValid (r : HostRequest) (rest : List HostRequest) (s : State) : (takeRequest r rest s).idValid = s.idValid := rfl
@[simp] theorem takeRequest_idCode (r : HostRequest) (rest : List HostRequest) (s : State) : (takeRequest r rest s).idCode = s.idCode := rfl
@[simp] theorem takeRequest_idRaw (r : HostRequest) (rest : List HostRequest) (s : State) : (takeRequest r rest s).idRaw = s.idRaw := rfl
@[simp] theorem takeRequest_uidValid (r : HostRequest) (rest : List HostRequest) (s : State) : (takeRequest r rest s).uidValid = s.uidValid := rfl
@[simp] theorem takeRequest_uid (r : HostRequest) (rest : List HostRequest) (s : State) : (takeRequest r rest s).uid = s.uid := rfl
@[simp] theorem takeRequest_rspValid (r : HostRequest) (rest : List HostRequest) (s : State) : (takeRequest r rest s).rspValid = s.rspValid := rfl
@[simp] theorem takeRequest_rspStatus (r : HostRequest) (rest : List HostRequest) (s : State) : (takeRequest r rest s).rspStatus = s.rspStatus := rfl
@[simp] theorem takeRequest_rspValue (r : HostRequest) (rest : List HostRequest) (s : State) : (takeRequest r rest s).rspValue = s.rspValue := rfl
@[simp] theorem takeRequest_rspInfo (r : HostRequest) (rest : List HostRequest) (s : State) : (takeRequest r rest s).rspInfo = s.rspInfo := rfl
@[simp] theorem takeRequest_cs (r : HostRequest) (rest : List HostRequest) (s : State) : (takeRequest r rest s).cs = s.cs := rfl
@[simp] theorem takeRequest_flash (r : HostRequest) (rest : List HostRequest) (s : State) : (takeRequest r rest s).flash = s.flash := rfl
@[simp] theorem takeRequest_devState (r : HostRequest) (rest : List HostRequest) (s : State) : (takeRequest r rest s).devState = s.devState := rfl
@[simp] theorem takeRequest_devId (r : HostRequest) (rest : List HostRequest) (s : State) : (takeRequest r rest s).devId = s.devId := rfl
@[simp] theorem takeRequest_devUid (r : HostRequest) (rest : List HostRequest) (s : State) : (takeRequest r rest s).devUid = s.devUid := rfl
@[simp] theorem takeRequest_host (r : HostRequest) (rest : List HostRequest) (s : State) : (takeRequest r rest s).host = rest := rfl
@[simp] theorem takeRequest_buf (r : HostRequest) (rest : List HostRequest) (s : State) : (takeRequest r rest s).buf = r.data := rfl
@[simp] theorem takeRequest_bus (r : HostRequest) (rest : List HostRequest) (s : State) : (takeRequest r rest s).bus = s.bus := rfl
@[simp] theorem takeRequest_launched (r : HostRequest) (rest : List HostRequest) (s : State) : (takeRequest r rest s).launched = true := rfl
@[simp] theorem takeRequest_inputs (r : HostRequest) (rest : List HostRequest) (s : State) : (takeRequest r rest s).inputs = s.inputs := rfl
@[simp] theorem takeRequest_draws (r : HostRequest) (rest : List HostRequest) (s : State) : (takeRequest r rest s).draws = s.draws := rfl

/-! ## busFrame -/

@[simp] theorem busFrame_cfg (d : Descriptor) (o : FrameOutcome) (s : State) : (busFrame d o s).cfg = s.cfg := rfl
@[simp] theorem busFrame_phase (d : Descriptor) (o : FrameOutcome) (s : State) : (busFrame d o s).phase = s.phase := rfl
@[simp] theorem busFrame_reqOp (d : Descriptor) (o : FrameOutcome) (s : State) : (busFrame d o s).reqOp = s.reqOp := rfl
@[simp] theorem busFrame_reqAddr (d : Descriptor) (o : FrameOutcome) (s : State) : (busFrame d o s).reqAddr = s.reqAddr := rfl
@[simp] theorem busFrame_reqLen (d : Descriptor) (o : FrameOutcome) (s : State) : (busFrame d o s).reqLen = s.reqLen := rfl
@[simp] theorem busFrame_ecur (d : Descriptor) (o : FrameOutcome) (s : State) : (busFrame d o s).ecur = s.ecur := rfl
@[simp] theorem busFrame_eend (d : Descriptor) (o : FrameOutcome) (s : State) : (busFrame d o s).eend = s.eend := rfl
@[simp] theorem busFrame_pcur (d : Descriptor) (o : FrameOutcome) (s : State) : (busFrame d o s).pcur = s.pcur := rfl
@[simp] theorem busFrame_pend (d : Descriptor) (o : FrameOutcome) (s : State) : (busFrame d o s).pend = s.pend := rfl
@[simp] theorem busFrame_pollCnt (d : Descriptor) (o : FrameOutcome) (s : State) : (busFrame d o s).pollCnt = s.pollCnt := rfl
@[simp] theorem busFrame_maybeBusy (d : Descriptor) (o : FrameOutcome) (s : State) : (busFrame d o s).maybeBusy = s.maybeBusy := rfl
@[simp] theorem busFrame_idValid (d : Descriptor) (o : FrameOutcome) (s : State) : (busFrame d o s).idValid = s.idValid := rfl
@[simp] theorem busFrame_idCode (d : Descriptor) (o : FrameOutcome) (s : State) : (busFrame d o s).idCode = s.idCode := rfl
@[simp] theorem busFrame_idRaw (d : Descriptor) (o : FrameOutcome) (s : State) : (busFrame d o s).idRaw = s.idRaw := rfl
@[simp] theorem busFrame_uidValid (d : Descriptor) (o : FrameOutcome) (s : State) : (busFrame d o s).uidValid = s.uidValid := rfl
@[simp] theorem busFrame_uid (d : Descriptor) (o : FrameOutcome) (s : State) : (busFrame d o s).uid = s.uid := rfl
@[simp] theorem busFrame_rspValid (d : Descriptor) (o : FrameOutcome) (s : State) : (busFrame d o s).rspValid = s.rspValid := rfl
@[simp] theorem busFrame_rspStatus (d : Descriptor) (o : FrameOutcome) (s : State) : (busFrame d o s).rspStatus = s.rspStatus := rfl
@[simp] theorem busFrame_rspValue (d : Descriptor) (o : FrameOutcome) (s : State) : (busFrame d o s).rspValue = s.rspValue := rfl
@[simp] theorem busFrame_rspInfo (d : Descriptor) (o : FrameOutcome) (s : State) : (busFrame d o s).rspInfo = s.rspInfo := rfl
@[simp] theorem busFrame_cs (d : Descriptor) (o : FrameOutcome) (s : State) : (busFrame d o s).cs = false := rfl
@[simp] theorem busFrame_flash (d : Descriptor) (o : FrameOutcome) (s : State) : (busFrame d o s).flash = s.flash := rfl
@[simp] theorem busFrame_devState (d : Descriptor) (o : FrameOutcome) (s : State) : (busFrame d o s).devState = s.devState := rfl
@[simp] theorem busFrame_devId (d : Descriptor) (o : FrameOutcome) (s : State) : (busFrame d o s).devId = s.devId := rfl
@[simp] theorem busFrame_devUid (d : Descriptor) (o : FrameOutcome) (s : State) : (busFrame d o s).devUid = s.devUid := rfl
@[simp] theorem busFrame_host (d : Descriptor) (o : FrameOutcome) (s : State) : (busFrame d o s).host = s.host := rfl
@[simp] theorem busFrame_buf (d : Descriptor) (o : FrameOutcome) (s : State) : (busFrame d o s).buf = s.buf := rfl
@[simp] theorem busFrame_bus (d : Descriptor) (o : FrameOutcome) (s : State) : (busFrame d o s).bus = .chipSelect false :: .transact d o :: .chipSelect true :: s.bus := rfl
@[simp] theorem busFrame_launched (d : Descriptor) (o : FrameOutcome) (s : State) : (busFrame d o s).launched = s.launched := rfl
@[simp] theorem busFrame_inputs (d : Descriptor) (o : FrameOutcome) (s : State) : (busFrame d o s).inputs = s.inputs := rfl
@[simp] theorem busFrame_draws (d : Descriptor) (o : FrameOutcome) (s : State) : (busFrame d o s).draws = s.draws := rfl

/-! ## deliver -/

@[simp] theorem deliver_cfg (r : DeviceReply) (s : State) : (deliver r s).cfg = s.cfg := rfl
@[simp] theorem deliver_phase (r : DeviceReply) (s : State) : (deliver r s).phase = s.phase := rfl
@[simp] theorem deliver_reqOp (r : DeviceReply) (s : State) : (deliver r s).reqOp = s.reqOp := rfl
@[simp] theorem deliver_reqAddr (r : DeviceReply) (s : State) : (deliver r s).reqAddr = s.reqAddr := rfl
@[simp] theorem deliver_reqLen (r : DeviceReply) (s : State) : (deliver r s).reqLen = s.reqLen := rfl
@[simp] theorem deliver_ecur (r : DeviceReply) (s : State) : (deliver r s).ecur = s.ecur := rfl
@[simp] theorem deliver_eend (r : DeviceReply) (s : State) : (deliver r s).eend = s.eend := rfl
@[simp] theorem deliver_pcur (r : DeviceReply) (s : State) : (deliver r s).pcur = s.pcur := rfl
@[simp] theorem deliver_pend (r : DeviceReply) (s : State) : (deliver r s).pend = s.pend := rfl
@[simp] theorem deliver_pollCnt (r : DeviceReply) (s : State) : (deliver r s).pollCnt = s.pollCnt := rfl
@[simp] theorem deliver_maybeBusy (r : DeviceReply) (s : State) : (deliver r s).maybeBusy = s.maybeBusy := rfl
@[simp] theorem deliver_idValid (r : DeviceReply) (s : State) : (deliver r s).idValid = s.idValid := rfl
@[simp] theorem deliver_idCode (r : DeviceReply) (s : State) : (deliver r s).idCode = s.idCode := rfl
@[simp] theorem deliver_idRaw (r : DeviceReply) (s : State) : (deliver r s).idRaw = s.idRaw := rfl
@[simp] theorem deliver_uidValid (r : DeviceReply) (s : State) : (deliver r s).uidValid = s.uidValid := rfl
@[simp] theorem deliver_uid (r : DeviceReply) (s : State) : (deliver r s).uid = s.uid := rfl
@[simp] theorem deliver_rspValid (r : DeviceReply) (s : State) : (deliver r s).rspValid = s.rspValid := rfl
@[simp] theorem deliver_rspStatus (r : DeviceReply) (s : State) : (deliver r s).rspStatus = s.rspStatus := rfl
@[simp] theorem deliver_rspValue (r : DeviceReply) (s : State) : (deliver r s).rspValue = s.rspValue := rfl
@[simp] theorem deliver_rspInfo (r : DeviceReply) (s : State) : (deliver r s).rspInfo = s.rspInfo := rfl
@[simp] theorem deliver_cs (r : DeviceReply) (s : State) : (deliver r s).cs = s.cs := rfl
@[simp] theorem deliver_flash (r : DeviceReply) (s : State) : (deliver r s).flash = if s.input.transport.received then r.flash else s.flash := rfl
@[simp] theorem deliver_devState (r : DeviceReply) (s : State) : (deliver r s).devState = if s.input.transport.received then r.devState else s.devState := rfl
@[simp] theorem deliver_devId (r : DeviceReply) (s : State) : (deliver r s).devId = s.devId := rfl
@[simp] theorem deliver_devUid (r : DeviceReply) (s : State) : (deliver r s).devUid = s.devUid := rfl
@[simp] theorem deliver_host (r : DeviceReply) (s : State) : (deliver r s).host = s.host := rfl
@[simp] theorem deliver_buf (r : DeviceReply) (s : State) : (deliver r s).buf = s.buf := rfl
@[simp] theorem deliver_bus (r : DeviceReply) (s : State) : (deliver r s).bus = s.bus := rfl
@[simp] theorem deliver_launched (r : DeviceReply) (s : State) : (deliver r s).launched = s.launched := rfl
@[simp] theorem deliver_inputs (r : DeviceReply) (s : State) : (deliver r s).inputs = s.inputs := rfl
@[simp] theorem deliver_draws (r : DeviceReply) (s : State) : (deliver r s).draws = s.draws := rfl

/-! ## startQuery -/

@[simp] theorem startQuery_cfg (cmd : Phase) (s : State) : (startQuery cmd s).cfg = s.cfg := rfl
@[simp] theorem startQuery_phase (cmd : Phase) (s : State) : (startQuery cmd s).phase = if s.maybeBusy then .prePoll else cmd := rfl
@[simp] theorem startQuery_reqOp (cmd : Phase) (s : State) : (startQuery cmd s).reqOp = s.reqOp := rfl
@[simp] theorem startQuery_reqAddr (cmd : Phase) (s : State) : (startQuery cmd s).reqAddr = s.reqAddr := rfl
@[simp] theorem startQuery_reqLen (cmd : Phase) (s : State) : (startQuery cmd s).reqLen = s.reqLen := rfl
@[simp] theorem startQuery_ecur (cmd : Phase) (s : State) : (startQuery cmd s).ecur = s.ecur := rfl
@[simp] theorem startQuery_eend (cmd : Phase) (s : State) : (startQuery cmd s).eend = s.eend := rfl
@[simp] theorem startQuery_pcur (cmd : Phase) (s : State) : (startQuery cmd s).pcur = s.pcur := rfl
@[simp] theorem startQuery_pend (cmd : Phase) (s : State) : (startQuery cmd s).pend = s.pend := rfl
@[simp] theorem startQuery_pollCnt (cmd : Phase) (s : State) : (startQuery cmd s).pollCnt = 0 := rfl
@[simp] theorem startQuery_maybeBusy (cmd : Phase) (s : State) : (startQuery cmd s).maybeBusy = s.maybeBusy := rfl
@[simp] theorem startQuery_idValid (cmd : Phase) (s : State) : (startQuery cmd s).idValid = s.idValid := rfl
@[simp] theorem startQuery_idCode (cmd : Phase) (s : State) : (startQuery cmd s).idCode = s.idCode := rfl
@[simp] theorem startQuery_idRaw (cmd : Phase) (s : State) : (startQuery cmd s).idRaw = s.idRaw := rfl
@[simp] theorem startQuery_uidValid (cmd : Phase) (s : State) : (startQuery cmd s).uidValid = s.uidValid := rfl
@[simp] theorem startQuery_uid (cmd : Phase) (s : State) : (startQuery cmd s).uid = s.uid := rfl
@[simp] theorem startQuery_rspValid (cmd : Phase) (s : State) : (startQuery cmd s).rspValid = s.rspValid := rfl
@[simp] theorem startQuery_rspStatus (cmd : Phase) (s : State) : (startQuery cmd s).rspStatus = s.rspStatus := rfl
@[simp] theorem startQuery_rspValue (cmd : Phase) (s : State) : (startQuery cmd s).rspValue = s.rspValue := rfl
@[simp] theorem startQuery_rspInfo (cmd : Phase) (s : State) : (startQuery cmd s).rspInfo = s.rspInfo := rfl
@[simp] theorem startQuery_cs (cmd : Phase) (s : State) : (startQuery cmd s).cs = s.cs := rfl
@[simp] theorem startQuery_flash (cmd : Phase) (s : State) : (startQuery cmd s).flash = s.flash := rfl
@[simp] theorem startQuery_devState (cmd : Phase) (s : State) : (startQuery cmd s).devState = s.devState := rfl
@[simp] theorem startQuery_devId (cmd : Phase) (s : State) : (startQuery cmd s).devId = s.devId := rfl
@[simp] theorem startQuery_devUid (cmd : Phase) (s : State) : (startQuery cmd s).devUid = s.devUid := rfl
@[simp] theorem startQuery_host (cmd : Phase) (s : State) : (startQuery cmd s).host = s.host := rfl
@[simp] theorem startQuery_buf (cmd : Phase) (s : State) : (startQuery cmd s).buf = s.buf := rfl
@[simp] theorem startQuery_bus (cmd : Phase) (s : State) : (startQuery cmd s).bus = s.bus := rfl
@[simp] theorem startQuery_launched (cmd : Phase) (s : State) : (startQuery cmd s).launched = s.launched := rfl
@[simp] theorem startQuery_inputs (cmd : Phase) (s : State) : (startQuery cmd s).inputs = s.inputs := rfl
@[simp] theorem startQuery_draws (cmd : Phase) (s : State) : (startQuery cmd s).draws = s.draws := rfl

/-! ## raise -/

@[simp] theorem raise_cfg (k : ErrorKind) (s : State) : (raise k s).cfg = s.cfg := rfl
@[simp] theorem raise_phase (k : ErrorKind) (s : State) : (raise k s).phase = .idle := rfl
@[simp] theorem raise_reqOp (k : ErrorKind) (s : State) : (raise k s).reqOp = s.reqOp := rfl
@[simp] theorem raise_reqAddr (k : ErrorKind) (s : State) : (raise k s).reqAddr = s.reqAddr := rfl
@[simp] theorem raise_reqLen (k : ErrorKind) (s : State) : (raise k s).reqLen = s.reqLen := rfl
@[simp] theorem raise_ecur (k : ErrorKind) (s : State) : (raise k s).ecur = s.ecur := rfl
@[simp] theorem raise_eend (k : ErrorKind) (s : State) : (raise k s).eend = s.eend := rfl
@[simp] theorem raise_pcur (k : ErrorKind) (s : State) : (raise k s).pcur = s.pcur := rfl
@[simp] theorem raise_pend (k : ErrorKind) (s : State) : (raise k s).pend = s.pend := rfl
@[simp] theorem raise_pollCnt (k : ErrorKind) (s : State) : (raise k s).pollCnt = s.pollCnt := rfl
@[simp] theorem raise_maybeBusy (k : ErrorKind) (s : State) : (raise k s).maybeBusy = s.maybeBusy := rfl
@[simp] theorem raise_idValid (k : ErrorKind) (s : State) : (raise k s).idValid = s.idValid := rfl
@[simp] theorem raise_idCode (k : ErrorKind) (s : State) : (raise k s).idCode = s.idCode := rfl
@[simp] theorem raise_idRaw (k : ErrorKind) (s : State) : (raise k s).idRaw = s.idRaw := rfl
@[simp] theorem raise_uidValid (k : ErrorKind) (s : State) : (raise k s).uidValid = s.uidValid := rfl
@[simp] theorem raise_uid (k : ErrorKind) (s : State) : (raise k s).uid = s.uid := rfl
@[simp] theorem raise_rspValid (k : ErrorKind) (s : State) : (raise k s).rspValid = true := rfl
@[simp] theorem raise_rspStatus (k : ErrorKind) (s : State) : (raise k s).rspStatus = k.code := rfl
@[simp] theorem raise_rspValue (k : ErrorKind) (s : State) : (raise k s).rspValue = 0 := rfl
@[simp] theorem raise_cs (k : ErrorKind) (s : State) : (raise k s).cs = s.cs := rfl
@[simp] theorem raise_flash (k : ErrorKind) (s : State) : (raise k s).flash = s.flash := rfl
@[simp] theorem raise_devState (k : ErrorKind) (s : State) : (raise k s).devState = s.devState := rfl
@[simp] theorem raise_devId (k : ErrorKind) (s : State) : (raise k s).devId = s.devId := rfl
@[simp] theorem raise_devUid (k : ErrorKind) (s : State) : (raise k s).devUid = s.devUid := rfl
@[simp] theorem raise_host (k : ErrorKind) (s : State) : (raise k s).host = s.host := rfl
@[simp] theorem raise_buf (k : ErrorKind) (s : State) : (raise k s).buf = s.buf := rfl
@[simp] theorem raise_bus (k : ErrorKind) (s : State) : (raise k s).bus = s.bus := rfl
@[simp] theorem raise_launched (k : ErrorKind) (s : State) : (raise k s).launched = s.launched := rfl
@[simp] theorem raise_inputs (k : ErrorKind) (s : State) : (raise k s).inputs = s.inputs := rfl
@[simp] theorem raise_draws (k : ErrorKind) (s : State) : (raise k s).draws = s.draws := rfl
@[simp] theorem raise_transportError_rspInfo (e : TransportError) (s : State) :
    (raise (.transportError e) s).rspInfo = e := rfl
@[simp] theorem raise_rangeOutOfBounds_rspInfo (s : State) :
    (raise (.rangeOutOfBounds) s).rspInfo = s.rspInfo := rfl
@[simp] theorem raise_deviceTimeout_rspInfo (s : State) :
    (raise (.deviceTimeout) s).rspInfo = s.rspInfo := rfl
@[simp] theorem raise_unsupportedOperation_rspInfo (n : Nat) (s : State) :
    (raise (.unsupportedOperation n) s).rspInfo = s.rspInfo := rfl

/-! ## controllerReset -/

@[simp] theorem controllerReset_cfg (s : State) : (controllerReset s).cfg = s.cfg := rfl
@[simp] theorem controllerReset_phase (s : State) : (controllerReset s).phase = .idle := rfl
@[simp] theorem controllerReset_reqOp (s : State) : (controllerReset s).reqOp = 0 := rfl
@[simp] theorem controllerReset_reqAddr (s : State) : (controllerReset s).reqAddr = 0 := rfl
@[simp] theorem controllerReset_reqLen (s : State) : (controllerReset s).reqLen = 0 := rfl
@[simp] theorem controllerReset_ecur (s : State) : (controllerReset s).ecur = 0 := rfl
@[simp] theorem controllerReset_eend (s : State) : (controllerReset s).eend = 0 := rfl
@[simp] theorem controllerReset_pcur (s : State) : (controllerReset s).pcur = 0 := rfl
@[simp] theorem controllerReset_pend (s : State) : (controllerReset s).pend = 0 := rfl
@[simp] theorem controllerReset_pollCnt (s : State) : (controllerReset s).pollCnt = 0 := rfl
@[simp] theorem controllerReset_maybeBusy (s : State) : (controllerReset s).maybeBusy = false := rfl
@[simp] theorem controllerReset_idValid (s : State) : (controllerReset s).idValid = false := rfl
@[simp] theorem controllerReset_idCode (s : State) : (controllerReset s).idCode = 0 := rfl
@[simp] theorem controllerReset_idRaw (s : State) : (controllerReset s).idRaw = List.replicate s.cfg.idLen 0 := rfl
@[simp] theorem controllerReset_uidValid (s : State) : (controllerReset s).uidValid = false := rfl
@[simp] theorem controllerReset_uid (s : State) : (controllerReset s).uid = List.replicate s.cfg.uidLen 0 := rfl
@[simp] theorem controllerReset_rspValid (s : State) : (controllerReset s).rspValid = false := rfl
@[simp] theorem controllerReset_rspStatus (s : State) : (controllerReset s).rspStatus = 0 := rfl
@[simp] theorem controllerReset_rspValue (s : State) : (controllerReset s).rspValue = 0 := rfl
@[simp] theorem controllerReset_rspInfo (s : State) : (controllerReset s).rspInfo = ⟨0⟩ := rfl
@[simp] theorem controllerReset_cs (s : State) : (controllerReset s).cs = false := rfl
@[simp] theorem controllerReset_flash (s : State) : (controllerReset s).flash = s.flash := rfl
@[simp] theorem controllerReset_devState (s : State) : (controllerReset s).devState = s.devState := rfl
@[simp] theorem controllerReset_devId (s : State) : (controllerReset s).devId = s.devId := rfl
@[simp] theorem controllerReset_devUid (s : State) : (controllerReset s).devUid = s.devUid := rfl
@[simp] theorem controllerReset_host (s : State) : (controllerReset s).host = s.host := rfl
@[simp] theorem controllerReset_buf (s : State) : (controllerReset s).buf = s.buf := rfl
@[simp] theorem controllerReset_bus (s : State) : (controllerReset s).bus = s.bus := rfl
@[simp] theorem controllerReset_launched (s : State) : (controllerReset s).launched = false := rfl
@[simp] theorem controllerReset_inputs (s : State) : (controllerReset s).inputs = s.inputs := rfl
@[simp] theorem controllerReset_draws (s : State) : (controllerReset s).draws = s.draws := rfl

/-! ## deviceComplete -/

@[simp] theorem deviceComplete_cfg (s : State) : (deviceComplete s).cfg = s.cfg := by
  unfold deviceComplete; split <;> rfl
@[simp] theorem deviceComplete_phase (s : State) : (deviceComplete s).phase = s.phase := by
  unfold deviceComplete; split <;> rfl
@[simp] theorem deviceComplete_reqOp (s : State) : (deviceComplete s).reqOp = s.reqOp := by
  unfold deviceComplete; split <;> rfl
@[simp] theorem deviceComplete_reqAddr (s : State) : (deviceComplete s).reqAddr = s.reqAddr := by
  unfold deviceComplete; split <;> rfl
@[simp] theorem deviceComplete_reqLen (s : State) : (deviceComplete s).reqLen = s.reqLen := by
  unfold deviceComplete; split <;> rfl
@[simp] theorem deviceComplete_ecur (s : State) : (deviceComplete s).ecur = s.ecur := by
  unfold deviceComplete; split <;> rfl
@[simp] theorem deviceComplete_eend (s : State) : (deviceComplete s).eend = s.eend := by
  unfold deviceComplete; split <;> rfl
@[simp] theorem deviceComplete_pcur (s : State) : (deviceComplete s).pcur = s.pcur := by
  unfold deviceComplete; split <;> rfl
@[simp] theorem deviceComplete_pend (s : State) : (deviceComplete s).pend = s.pend := by
  unfold deviceComplete; split <;> rfl
@[simp] theorem deviceComplete_pollCnt (s : State) : (deviceComplete s).pollCnt = s.pollCnt := by
  unfold deviceComplete; split <;> rfl
@[simp] theorem deviceComplete_maybeBusy (s : State) : (deviceComplete s).maybeBusy = s.maybeBusy := by
  unfold deviceComplete; split <;> rfl
@[simp] theorem deviceComplete_idValid (s : State) : (deviceComplete s).idValid = s.idValid := by
  unfold deviceComplete; split <;> rfl
@[simp] theorem deviceComplete_idCode (s : State) : (deviceComplete s).idCode = s.idCode := by
  unfold deviceComplete; split <;> rfl
@[simp] theorem deviceComplete_idRaw (s : State) : (deviceComplete s).idRaw = s.idRaw := by
  unfold deviceComplete; split <;> rfl
@[simp] theorem deviceComplete_uidValid (s : State) : (deviceComplete s).uidValid = s.uidValid := by
  unfold deviceComplete; split <;> rfl
@[simp] theorem deviceComplete_uid (s : State) : (deviceComplete s).uid = s.uid := by
  unfold deviceComplete; split <;> rfl
@[simp] theorem deviceComplete_rspValid (s : State) : (deviceComplete s).rspValid = s.rspValid := by
  unfold deviceComplete; split <;> rfl
@[simp] theorem deviceComplete_rspStatus (s : State) : (deviceComplete s).rspStatus = s.rspStatus := by
  unfold deviceComplete; split <;> rfl
@[simp] theorem deviceComplete_rspValue (s : State) : (deviceComplete s).rspValue = s.rspValue := by
  unfold deviceComplete; split <;> rfl
@[simp] theorem deviceComplete_rspInfo (s : State) : (deviceComplete s).rspInfo = s.rspInfo := by
  unfold deviceComplete; split <;> rfl
@[simp] theorem deviceComplete_cs (s : State) : (deviceComplete s).cs = s.cs := by
  unfold deviceComplete; split <;> rfl
@[simp] theorem deviceComplete_devId (s : State) : (deviceComplete s).devId = s.devId := by
  unfold deviceComplete; split <;> rfl
@[simp] theorem deviceComplete_devUid (s : State) : (deviceComplete s).devUid = s.devUid := by
  unfold deviceComplete; split <;> rfl
@[simp] theorem deviceComplete_host (s : State) : (deviceComplete s).host = s.host := by
  unfold deviceComplete; split <;> rfl
@[simp] theorem deviceComplete_buf (s : State) : (deviceComplete s).buf = s.buf := by
  unfold deviceComplete; split <;> rfl
@[simp] theorem deviceComplete_bus (s : State) : (deviceComplete s).bus = s.bus := by
  unfold deviceComplete; split <;> rfl
@[simp] theorem deviceComplete_launched (s : State) : (deviceComplete s).launched = s.launched := by
  unfold deviceComplete; split <;> rfl
@[simp] theorem deviceComplete_inputs (s : State) : (deviceComplete s).inputs = s.inputs := by
  unfold deviceComplete; split <;> rfl
@[simp] theorem deviceComplete_draws (s : State) : (deviceComplete s).draws = s.draws := by
  unfold deviceComplete; split <;> rfl

/-! ## what follows a frame -/

@[simp] theorem afterWriteEnable_cfg (o : FrameOutcome) (s : State) : (afterWriteEnable o s).cfg = s.cfg := by
  unfold afterWriteEnable; split <;> [rfl; split <;> rfl]
@[simp] theorem afterWriteEnable_reqOp (o : FrameOutcome) (s : State) : (afterWriteEnable o s).reqOp = s.reqOp := by
  unfold afterWriteEnable; split <;> [rfl; split <;> rfl]
@[simp] theorem afterWriteEnable_reqAddr (o : FrameOutcome) (s : State) : (afterWriteEnable o s).reqAddr = s.reqAddr := by
  unfold afterWriteEnable; split <;> [rfl; split <;> rfl]
@[simp] theorem afterWriteEnable_reqLen (o : FrameOutcome) (s : State) : (afterWriteEnable o s).reqLen = s.reqLen := by
  unfold afterWriteEnable; split <;> [rfl; split <;> rfl]
@[simp] theorem afterWriteEnable_ecur (o : FrameOutcome) (s : State) : (afterWriteEnable o s).ecur = s.ecur := by
  unfold afterWriteEnable; split <;> [rfl; split <;> rfl]
@[simp] theorem afterWriteEnable_eend (o : FrameOutcome) (s : State) : (afterWriteEnable o s).eend = s.eend := by
  unfold afterWriteEnable; split <;> [rfl; split <;> rfl]
@[simp] theorem afterWriteEnable_pcur (o : FrameOutcome) (s : State) : (afterWriteEnable o s).pcur = s.pcur := by
  unfold afterWriteEnable; split <;> [rfl; split <;> rfl]
@[simp] theorem afterWriteEnable_pend (o : FrameOutcome) (s : State) : (afterWriteEnable o s).pend = s.pend := by
  unfold afterWriteEnable; split <;> [rfl; split <;> rfl]
@[simp] theorem afterWriteEnable_pollCnt (o : FrameOutcome) (s : State) : (afterWriteEnable o s).pollCnt = s.pollCnt := by
  unfold afterWriteEnable; split <;> [rfl; split <;> rfl]
@[simp] theorem afterWriteEnable_maybeBusy (o : FrameOutcome) (s : State) : (afterWriteEnable o s).maybeBusy = s.maybeBusy := by
  unfold afterWriteEnable; split <;> [rfl; split <;> rfl]
@[simp] theorem afterWriteEnable_idValid (o : FrameOutcome) (s : State) : (afterWriteEnable o s).idValid = s.idValid := by
  unfold afterWriteEnable; split <;> [rfl; split <;> rfl]
@[simp] theorem afterWriteEnable_idCode (o : FrameOutcome) (s : State) : (afterWriteEnable o s).idCode = s.idCode := by
  unfold afterWriteEnable; split <;> [rfl; split <;> rfl]
@[simp] theorem afterWriteEnable_idRaw (o : FrameOutcome) (s : State) : (afterWriteEnable o s).idRaw = s.idRaw := by
  unfold afterWriteEnable; split <;> [rfl; split <;> rfl]
@[simp] theorem afterWriteEnable_uidValid (o : FrameOutcome) (s : State) : (afterWriteEnable o s).uidValid = s.uidValid := by
  unfold afterWriteEnable; split <;> [rfl; split <;> rfl]
@[simp] theorem afterWriteEnable_uid (o : FrameOutcome) (s : State) : (afterWriteEnable o s).uid = s.uid := by
  unfold afterWriteEnable; split <;> [rfl; split <;> rfl]
@[simp] theorem afterWriteEnable_cs (o : FrameOutcome) (s : State) : (afterWriteEnable o s).cs = s.cs := by
  unfold afterWriteEnable; split <;> [rfl; split <;> rfl]
@[simp] theorem afterWriteEnable_flash (o : FrameOutcome) (s : State) : (afterWriteEnable o s).flash = s.flash := by
  unfold afterWriteEnable; split <;> [rfl; split <;> rfl]
@[simp] theorem afterWriteEnable_devState (o : FrameOutcome) (s : State) : (afterWriteEnable o s).devState = s.devState := by
  unfold afterWriteEnable; split <;> [rfl; split <;> rfl]
@[simp] theorem afterWriteEnable_devId (o : FrameOutcome) (s : State) : (afterWriteEnable o s).devId = s.devId := by
  unfold afterWriteEnable; split <;> [rfl; split <;> rfl]
@[simp] theorem afterWriteEnable_devUid (o : FrameOutcome) (s : State) : (afterWriteEnable o s).devUid = s.devUid := by
  unfold afterWriteEnable; split <;> [rfl; split <;> rfl]
@[simp] theorem afterWriteEnable_host (o : FrameOutcome) (s : State) : (afterWriteEnable o s).host = s.host := by
  unfold afterWriteEnable; split <;> [rfl; split <;> rfl]
@[simp] theorem afterWriteEnable_buf (o : FrameOutcome) (s : State) : (afterWriteEnable o s).buf = s.buf := by
  unfold afterWriteEnable; split <;> [rfl; split <;> rfl]
@[simp] theorem afterWriteEnable_bus (o : FrameOutcome) (s : State) : (afterWriteEnable o s).bus = s.bus := by
  unfold afterWriteEnable; split <;> [rfl; split <;> rfl]
@[simp] theorem afterWriteEnable_launched (o : FrameOutcome) (s : State) : (afterWriteEnable o s).launched = s.launched := by
  unfold afterWriteEnable; split <;> [rfl; split <;> rfl]
@[simp] theorem afterWriteEnable_inputs (o : FrameOutcome) (s : State) : (afterWriteEnable o s).inputs = s.inputs := by
  unfold afterWriteEnable; split <;> [rfl; split <;> rfl]
@[simp] theorem afterWriteEnable_draws (o : FrameOutcome) (s : State) : (afterWriteEnable o s).draws = s.draws := by
  unfold afterWriteEnable; split <;> [rfl; split <;> rfl]
@[simp] theorem afterErase_cfg (n : Nat) (o : FrameOutcome) (s : State) : (afterErase n o s).cfg = s.cfg := by
  unfold afterErase; split <;> rfl
@[simp] theorem afterErase_reqOp (n : Nat) (o : FrameOutcome) (s : State) : (afterErase n o s).reqOp = s.reqOp := by
  unfold afterErase; split <;> rfl
@[simp] theorem afterErase_reqAddr (n : Nat) (o : FrameOutcome) (s : State) : (afterErase n o s).reqAddr = s.reqAddr := by
  unfold afterErase; split <;> rfl
@[simp] theorem afterErase_reqLen (n : Nat) (o : FrameOutcome) (s : State) : (afterErase n o s).reqLen = s.reqLen := by
  unfold afterErase; split <;> rfl
@[simp] theorem afterErase_eend (n : Nat) (o : FrameOutcome) (s : State) : (afterErase n o s).eend = s.eend := by
  unfold afterErase; split <;> rfl
@[simp] theorem afterErase_pcur (n : Nat) (o : FrameOutcome) (s : State) : (afterErase n o s).pcur = s.pcur := by
  unfold afterErase; split <;> rfl
@[simp] theorem afterErase_pend (n : Nat) (o : FrameOutcome) (s : State) : (afterErase n o s).pend = s.pend := by
  unfold afterErase; split <;> rfl
@[simp] theorem afterErase_idValid (n : Nat) (o : FrameOutcome) (s : State) : (afterErase n o s).idValid = s.idValid := by
  unfold afterErase; split <;> rfl
@[simp] theorem afterErase_idCode (n : Nat) (o : FrameOutcome) (s : State) : (afterErase n o s).idCode = s.idCode := by
  unfold afterErase; split <;> rfl
@[simp] theorem afterErase_idRaw (n : Nat) (o : FrameOutcome) (s : State) : (afterErase n o s).idRaw = s.idRaw := by
  unfold afterErase; split <;> rfl
@[simp] theorem afterErase_uidValid (n : Nat) (o : FrameOutcome) (s : State) : (afterErase n o s).uidValid = s.uidValid := by
  unfold afterErase; split <;> rfl
@[simp] theorem afterErase_uid (n : Nat) (o : FrameOutcome) (s : State) : (afterErase n o s).uid = s.uid := by
  unfold afterErase; split <;> rfl
@[simp] theorem afterErase_cs (n : Nat) (o : FrameOutcome) (s : State) : (afterErase n o s).cs = s.cs := by
  unfold afterErase; split <;> rfl
@[simp] theorem afterErase_flash (n : Nat) (o : FrameOutcome) (s : State) : (afterErase n o s).flash = s.flash := by
  unfold afterErase; split <;> rfl
@[simp] theorem afterErase_devState (n : Nat) (o : FrameOutcome) (s : State) : (afterErase n o s).devState = s.devState := by
  unfold afterErase; split <;> rfl
@[simp] theorem afterErase_devId (n : Nat) (o : FrameOutcome) (s : State) : (afterErase n o s).devId = s.devId := by
  unfold afterErase; split <;> rfl
@[simp] theorem afterErase_devUid (n : Nat) (o : FrameOutcome) (s : State) : (afterErase n o s).devUid = s.devUid := by
  unfold afterErase; split <;> rfl
@[simp] theorem afterErase_host (n : Nat) (o : FrameOutcome) (s : State) : (afterErase n o s).host = s.host := by
  unfold afterErase; split <;> rfl
@[simp] theorem afterErase_buf (n : Nat) (o : FrameOutcome) (s : State) : (afterErase n o s).buf = s.buf := by
  unfold afterErase; split <;> rfl
@[simp] theorem afterErase_bus (n : Nat) (o : FrameOutcome) (s : State) : (afterErase n o s).bus = s.bus := by
  unfold afterErase; split <;> rfl
@[simp] theorem afterErase_launched (n : Nat) (o : FrameOutcome) (s : State) : (afterErase n o s).launched = s.launched := by
  unfold afterErase; split <;> rfl
@[simp] theorem afterErase_inputs (n : Nat) (o : FrameOutcome) (s : State) : (afterErase n o s).inputs = s.inputs := by
  unfold afterErase; split <;> rfl
@[simp] theorem afterErase_draws (n : Nat) (o : FrameOutcome) (s : State) : (afterErase n o s).draws = s.draws := by
  unfold afterErase; split <;> rfl
@[simp] theorem afterProgram_cfg (n : Nat) (o : FrameOutcome) (s : State) : (afterProgram n o s).cfg = s.cfg := by
  unfold afterProgram; split <;> rfl
@[simp] theorem afterProgram_reqOp (n : Nat) (o : FrameOutcome) (s : State) : (afterProgram n o s).reqOp = s.reqOp := by
  unfold afterProgram; split <;> rfl
@[simp] theorem afterProgram_reqAddr (n : Nat) (o : FrameOutcome) (s : State) : (afterProgram n o s).reqAddr = s.reqAddr := by
  unfold afterProgram; split <;> rfl
@[simp] theorem afterProgram_reqLen (n : Nat) (o : FrameOutcome) (s : State) : (afterProgram n o s).reqLen = s.reqLen := by
  unfold afterProgram; split <;> rfl
@[simp] theorem afterProgram_ecur (n : Nat) (o : FrameOutcome) (s : State) : (afterProgram n o s).ecur = s.ecur := by
  unfold afterProgram; split <;> rfl
@[simp] theorem afterProgram_eend (n : Nat) (o : FrameOutcome) (s : State) : (afterProgram n o s).eend = s.eend := by
  unfold afterProgram; split <;> rfl
@[simp] theorem afterProgram_pend (n : Nat) (o : FrameOutcome) (s : State) : (afterProgram n o s).pend = s.pend := by
  unfold afterProgram; split <;> rfl
@[simp] theorem afterProgram_idValid (n : Nat) (o : FrameOutcome) (s : State) : (afterProgram n o s).idValid = s.idValid := by
  unfold afterProgram; split <;> rfl
@[simp] theorem afterProgram_idCode (n : Nat) (o : FrameOutcome) (s : State) : (afterProgram n o s).idCode = s.idCode := by
  unfold afterProgram; split <;> rfl
@[simp] theorem afterProgram_idRaw (n : Nat) (o : FrameOutcome) (s : State) : (afterProgram n o s).idRaw = s.idRaw := by
  unfold afterProgram; split <;> rfl
@[simp] theorem afterProgram_uidValid (n : Nat) (o : FrameOutcome) (s : State) : (afterProgram n o s).uidValid = s.uidValid := by
  unfold afterProgram; split <;> rfl
@[simp] theorem afterProgram_uid (n : Nat) (o : FrameOutcome) (s : State) : (afterProgram n o s).uid = s.uid := by
  unfold afterProgram; split <;> rfl
@[simp] theorem afterProgram_cs (n : Nat) (o : FrameOutcome) (s : State) : (afterProgram n o s).cs = s.cs := by
  unfold afterProgram; split <;> rfl
@[simp] theorem afterProgram_flash (n : Nat) (o : FrameOutcome) (s : State) : (afterProgram n o s).flash = s.flash := by
  unfold afterProgram; split <;> rfl
@[simp] theorem afterProgram_devState (n : Nat) (o : FrameOutcome) (s : State) : (afterProgram n o s).devState = s.devState := by
  unfold afterProgram; split <;> rfl
@[simp] theorem afterProgram_devId (n : Nat) (o : FrameOutcome) (s : State) : (afterProgram n o s).devId = s.devId := by
  unfold afterProgram; split <;> rfl
@[simp] theorem afterProgram_devUid (n : Nat) (o : FrameOutcome) (s : State) : (afterProgram n o s).devUid = s.devUid := by
  unfold afterProgram; split <;> rfl
@[simp] theorem afterProgram_host (n : Nat) (o : FrameOutcome) (s : State) : (afterProgram n o s).host = s.host := by
  unfold afterProgram; split <;> rfl
@[simp] theorem afterProgram_buf (n : Nat) (o : FrameOutcome) (s : State) : (afterProgram n o s).buf = s.buf := by
  unfold afterProgram; split <;> rfl
@[simp] theorem afterProgram_bus (n : Nat) (o : FrameOutcome) (s : State) : (afterProgram n o s).bus = s.bus := by
  unfold afterProgram; split <;> rfl
@[simp] theorem afterProgram_launched (n : Nat) (o : FrameOutcome) (s : State) : (afterProgram n o s).launched = s.launched := by
  unfold afterProgram; split <;> rfl
@[simp] theorem afterProgram_inputs (n : Nat) (o : FrameOutcome) (s : State) : (afterProgram n o s).inputs = s.inputs := by
  unfold afterProgram; split <;> rfl
@[simp] theorem afterProgram_draws (n : Nat) (o : FrameOutcome) (s : State) : (afterProgram n o s).draws = s.draws := by
  unfold afterProgram; split <;> rfl
@[simp] theorem leaveEpisode_cfg (s : State) : (leaveEpisode s).cfg = s.cfg := by
  unfold leaveEpisode; split <;> first | rfl | (split <;> first | rfl | (split <;> first | rfl | (split <;> rfl)))
@[simp] theorem leaveEpisode_reqOp (s : State) : (leaveEpisode s).reqOp = s.reqOp := by
  unfold leaveEpisode; split <;> first | rfl | (split <;> first | rfl | (split <;> first | rfl | (split <;> rfl)))
@[simp] theorem leaveEpisode_reqAddr (s : State) : (leaveEpisode s).reqAddr = s.reqAddr := by
  unfold leaveEpisode; split <;> first | rfl | (split <;> first | rfl | (split <;> first | rfl | (split <;> rfl)))
@[simp] theorem leaveEpisode_reqLen (s : State) : (leaveEpisode s).reqLen = s.reqLen := by
  unfold leaveEpisode; split <;> first | rfl | (split <;> first | rfl | (split <;> first | rfl | (split <;> rfl)))
@[simp] theorem leaveEpisode_ecur (s : State) : (leaveEpisode s).ecur = s.ecur := by
  unfold leaveEpisode; split <;> first | rfl | (split <;> first | rfl | (split <;> first | rfl | (split <;> rfl)))
@[simp] theorem leaveEpisode_eend (s : State) : (leaveEpisode s).eend = s.eend := by
  unfold leaveEpisode; split <;> first | rfl | (split <;> first | rfl | (split <;> first | rfl | (split <;> rfl)))
@[simp] theorem leaveEpisode_pcur (s : State) : (leaveEpisode s).pcur = s.pcur := by
  unfold leaveEpisode; split <;> first | rfl | (split <;> first | rfl | (split <;> first | rfl | (split <;> rfl)))
@[simp] theorem leaveEpisode_pend (s : State) : (leaveEpisode s).pend = s.pend := by
  unfold leaveEpisode; split <;> first | rfl | (split <;> first | rfl | (split <;> first | rfl | (split <;> rfl)))
@[simp] theorem leaveEpisode_pollCnt (s : State) : (leaveEpisode s).pollCnt = s.pollCnt := by
  unfold leaveEpisode; split <;> first | rfl | (split <;> first | rfl | (split <;> first | rfl | (split <;> rfl)))
@[simp] theorem leaveEpisode_maybeBusy (s : State) : (leaveEpisode s).maybeBusy = s.maybeBusy := by
  unfold leaveEpisode; split <;> first | rfl | (split <;> first | rfl | (split <;> first | rfl | (split <;> rfl)))
@[simp] theorem leaveEpisode_idValid (s : State) : (leaveEpisode s).idValid = s.idValid := by
  unfold leaveEpisode; split <;> first | rfl | (split <;> first | rfl | (split <;> first | rfl | (split <;> rfl)))
@[simp] theorem leaveEpisode_idCode (s : State) : (leaveEpisode s).idCode = s.idCode := by
  unfold leaveEpisode; split <;> first | rfl | (split <;> first | rfl | (split <;> first | rfl | (split <;> rfl)))
@[simp] theorem leaveEpisode_idRaw (s : State) : (leaveEpisode s).idRaw = s.idRaw := by
  unfold leaveEpisode; split <;> first | rfl | (split <;> first | rfl | (split <;> first | rfl | (split <;> rfl)))
@[simp] theorem leaveEpisode_uidValid (s : State) : (leaveEpisode s).uidValid = s.uidValid := by
  unfold leaveEpisode; split <;> first | rfl | (split <;> first | rfl | (split <;> first | rfl | (split <;> rfl)))
@[simp] theorem leaveEpisode_uid (s : State) : (leaveEpisode s).uid = s.uid := by
  unfold leaveEpisode; split <;> first | rfl | (split <;> first | rfl | (split <;> first | rfl | (split <;> rfl)))
@[simp] theorem leaveEpisode_cs (s : State) : (leaveEpisode s).cs = s.cs := by
  unfold leaveEpisode; split <;> first | rfl | (split <;> first | rfl | (split <;> first | rfl | (split <;> rfl)))
@[simp] theorem leaveEpisode_flash (s : State) : (leaveEpisode s).flash = s.flash := by
  unfold leaveEpisode; split <;> first | rfl | (split <;> first | rfl | (split <;> first | rfl | (split <;> rfl)))
@[simp] theorem leaveEpisode_devState (s : State) : (leaveEpisode s).devState = s.devState := by
  unfold leaveEpisode; split <;> first | rfl | (split <;> first | rfl | (split <;> first | rfl | (split <;> rfl)))
@[simp] theorem leaveEpisode_devId (s : State) : (leaveEpisode s).devId = s.devId := by
  unfold leaveEpisode; split <;> first | rfl | (split <;> first | rfl | (split <;> first | rfl | (split <;> rfl)))
@[simp] theorem leaveEpisode_devUid (s : State) : (leaveEpisode s).devUid = s.devUid := by
  unfold leaveEpisode; split <;> first | rfl | (split <;> first | rfl | (split <;> first | rfl | (split <;> rfl)))
@[simp] theorem leaveEpisode_host (s : State) : (leaveEpisode s).host = s.host := by
  unfold leaveEpisode; split <;> first | rfl | (split <;> first | rfl | (split <;> first | rfl | (split <;> rfl)))
@[simp] theorem leaveEpisode_buf (s : State) : (leaveEpisode s).buf = s.buf := by
  unfold leaveEpisode; split <;> first | rfl | (split <;> first | rfl | (split <;> first | rfl | (split <;> rfl)))
@[simp] theorem leaveEpisode_bus (s : State) : (leaveEpisode s).bus = s.bus := by
  unfold leaveEpisode; split <;> first | rfl | (split <;> first | rfl | (split <;> first | rfl | (split <;> rfl)))
@[simp] theorem leaveEpisode_launched (s : State) : (leaveEpisode s).launched = s.launched := by
  unfold leaveEpisode; split <;> first | rfl | (split <;> first | rfl | (split <;> first | rfl | (split <;> rfl)))
@[simp] theorem leaveEpisode_inputs (s : State) : (leaveEpisode s).inputs = s.inputs := by
  unfold leaveEpisode; split <;> first | rfl | (split <;> first | rfl | (split <;> first | rfl | (split <;> rfl)))
@[simp] theorem leaveEpisode_draws (s : State) : (leaveEpisode s).draws = s.draws := by
  unfold leaveEpisode; split <;> first | rfl | (split <;> first | rfl | (split <;> first | rfl | (split <;> rfl)))
@[simp] theorem pollByte_cfg (b : Byte) (s : State) : (pollByte b s).cfg = s.cfg := by
  unfold pollByte; split <;> [split <;> rfl; simp]
@[simp] theorem pollByte_reqOp (b : Byte) (s : State) : (pollByte b s).reqOp = s.reqOp := by
  unfold pollByte; split <;> [split <;> rfl; simp]
@[simp] theorem pollByte_reqAddr (b : Byte) (s : State) : (pollByte b s).reqAddr = s.reqAddr := by
  unfold pollByte; split <;> [split <;> rfl; simp]
@[simp] theorem pollByte_reqLen (b : Byte) (s : State) : (pollByte b s).reqLen = s.reqLen := by
  unfold pollByte; split <;> [split <;> rfl; simp]
@[simp] theorem pollByte_ecur (b : Byte) (s : State) : (pollByte b s).ecur = s.ecur := by
  unfold pollByte; split <;> [split <;> rfl; simp]
@[simp] theorem pollByte_eend (b : Byte) (s : State) : (pollByte b s).eend = s.eend := by
  unfold pollByte; split <;> [split <;> rfl; simp]
@[simp] theorem pollByte_pcur (b : Byte) (s : State) : (pollByte b s).pcur = s.pcur := by
  unfold pollByte; split <;> [split <;> rfl; simp]
@[simp] theorem pollByte_pend (b : Byte) (s : State) : (pollByte b s).pend = s.pend := by
  unfold pollByte; split <;> [split <;> rfl; simp]
@[simp] theorem pollByte_idValid (b : Byte) (s : State) : (pollByte b s).idValid = s.idValid := by
  unfold pollByte; split <;> [split <;> rfl; simp]
@[simp] theorem pollByte_idCode (b : Byte) (s : State) : (pollByte b s).idCode = s.idCode := by
  unfold pollByte; split <;> [split <;> rfl; simp]
@[simp] theorem pollByte_idRaw (b : Byte) (s : State) : (pollByte b s).idRaw = s.idRaw := by
  unfold pollByte; split <;> [split <;> rfl; simp]
@[simp] theorem pollByte_uidValid (b : Byte) (s : State) : (pollByte b s).uidValid = s.uidValid := by
  unfold pollByte; split <;> [split <;> rfl; simp]
@[simp] theorem pollByte_uid (b : Byte) (s : State) : (pollByte b s).uid = s.uid := by
  unfold pollByte; split <;> [split <;> rfl; simp]
@[simp] theorem pollByte_cs (b : Byte) (s : State) : (pollByte b s).cs = s.cs := by
  unfold pollByte; split <;> [split <;> rfl; simp]
@[simp] theorem pollByte_flash (b : Byte) (s : State) : (pollByte b s).flash = s.flash := by
  unfold pollByte; split <;> [split <;> rfl; simp]
@[simp] theorem pollByte_devState (b : Byte) (s : State) : (pollByte b s).devState = s.devState := by
  unfold pollByte; split <;> [split <;> rfl; simp]
@[simp] theorem pollByte_devId (b : Byte) (s : State) : (pollByte b s).devId = s.devId := by
  unfold pollByte; split <;> [split <;> rfl; simp]
@[simp] theorem pollByte_devUid (b : Byte) (s : State) : (pollByte b s).devUid = s.devUid := by
  unfold pollByte; split <;> [split <;> rfl; simp]
@[simp] theorem pollByte_host (b : Byte) (s : State) : (pollByte b s).host = s.host := by
  unfold pollByte; split <;> [split <;> rfl; simp]
@[simp] theorem pollByte_buf (b : Byte) (s : State) : (pollByte b s).buf = s.buf := by
  unfold pollByte; split <;> [split <;> rfl; simp]
@[simp] theorem pollByte_bus (b : Byte) (s : State) : (pollByte b s).bus = s.bus := by
  unfold pollByte; split <;> [split <;> rfl; simp]
@[simp] theorem pollByte_launched (b : Byte) (s : State) : (pollByte b s).launched = s.launched := by
  unfold pollByte; split <;> [split <;> rfl; simp]
@[simp] theorem pollByte_inputs (b : Byte) (s : State) : (pollByte b s).inputs = s.inputs := by
  unfold pollByte; split <;> [split <;> rfl; simp]
@[simp] theorem pollByte_draws (b : Byte) (s : State) : (pollByte b s).draws = s.draws := by
  unfold pollByte; split <;> [split <;> rfl; simp]
@[simp] theorem afterStatus_cfg (o : FrameOutcome) (s : State) : (afterStatus o s).cfg = s.cfg := by
  unfold afterStatus; split <;> simp
@[simp] theorem afterStatus_reqOp (o : FrameOutcome) (s : State) : (afterStatus o s).reqOp = s.reqOp := by
  unfold afterStatus; split <;> simp
@[simp] theorem afterStatus_reqAddr (o : FrameOutcome) (s : State) : (afterStatus o s).reqAddr = s.reqAddr := by
  unfold afterStatus; split <;> simp
@[simp] theorem afterStatus_reqLen (o : FrameOutcome) (s : State) : (afterStatus o s).reqLen = s.reqLen := by
  unfold afterStatus; split <;> simp
@[simp] theorem afterStatus_ecur (o : FrameOutcome) (s : State) : (afterStatus o s).ecur = s.ecur := by
  unfold afterStatus; split <;> simp
@[simp] theorem afterStatus_eend (o : FrameOutcome) (s : State) : (afterStatus o s).eend = s.eend := by
  unfold afterStatus; split <;> simp
@[simp] theorem afterStatus_pcur (o : FrameOutcome) (s : State) : (afterStatus o s).pcur = s.pcur := by
  unfold afterStatus; split <;> simp
@[simp] theorem afterStatus_pend (o : FrameOutcome) (s : State) : (afterStatus o s).pend = s.pend := by
  unfold afterStatus; split <;> simp
@[simp] theorem afterStatus_idValid (o : FrameOutcome) (s : State) : (afterStatus o s).idValid = s.idValid := by
  unfold afterStatus; split <;> simp
@[simp] theorem afterStatus_idCode (o : FrameOutcome) (s : State) : (afterStatus o s).idCode = s.idCode := by
  unfold afterStatus; split <;> simp
@[simp] theorem afterStatus_idRaw (o : FrameOutcome) (s : State) : (afterStatus o s).idRaw = s.idRaw := by
  unfold afterStatus; split <;> simp
@[simp] theorem afterStatus_uidValid (o : FrameOutcome) (s : State) : (afterStatus o s).uidValid = s.uidValid := by
  unfold afterStatus; split <;> simp
@[simp] theorem afterStatus_uid (o : FrameOutcome) (s : State) : (afterStatus o s).uid = s.uid := by
  unfold afterStatus; split <;> simp
@[simp] theorem afterStatus_cs (o : FrameOutcome) (s : State) : (afterStatus o s).cs = s.cs := by
  unfold afterStatus; split <;> simp
@[simp] theorem afterStatus_flash (o : FrameOutcome) (s : State) : (afterStatus o s).flash = s.flash := by
  unfold afterStatus; split <;> simp
@[simp] theorem afterStatus_devState (o : FrameOutcome) (s : State) : (afterStatus o s).devState = s.devState := by
  unfold afterStatus; split <;> simp
@[simp] theorem afterStatus_devId (o : FrameOutcome) (s : State) : (afterStatus o s).devId = s.devId := by
  unfold afterStatus; split <;> simp
@[simp] theorem afterStatus_devUid (o : FrameOutcome) (s : State) : (afterStatus o s).devUid = s.devUid := by
  unfold afterStatus; split <;> simp
@[simp] theorem afterStatus_host (o : FrameOutcome) (s : State) : (afterStatus o s).host = s.host := by
  unfold afterStatus; split <;> simp
@[simp] theorem afterStatus_buf (o : FrameOutcome) (s : State) : (afterStatus o s).buf = s.buf := by
  unfold afterStatus; split <;> simp
@[simp] theorem afterStatus_bus (o : FrameOutcome) (s : State) : (afterStatus o s).bus = s.bus := by
  unfold afterStatus; split <;> simp
@[simp] theorem afterStatus_launched (o : FrameOutcome) (s : State) : (afterStatus o s).launched = s.launched := by
  unfold afterStatus; split <;> simp
@[simp] theorem afterStatus_inputs (o : FrameOutcome) (s : State) : (afterStatus o s).inputs = s.inputs := by
  unfold afterStatus; split <;> simp
@[simp] theorem afterStatus_draws (o : FrameOutcome) (s : State) : (afterStatus o s).draws = s.draws := by
  unfold afterStatus; split <;> simp
@[simp] theorem afterReadId_cfg (o : FrameOutcome) (s : State) : (afterReadId o s).cfg = s.cfg := by
  unfold afterReadId; split <;> rfl
@[simp] theorem afterReadId_reqOp (o : FrameOutcome) (s : State) : (afterReadId o s).reqOp = s.reqOp := by
  unfold afterReadId; split <;> rfl
@[simp] theorem afterReadId_reqAddr (o : FrameOutcome) (s : State) : (afterReadId o s).reqAddr = s.reqAddr := by
  unfold afterReadId; split <;> rfl
@[simp] theorem afterReadId_reqLen (o : FrameOutcome) (s : State) : (afterReadId o s).reqLen = s.reqLen := by
  unfold afterReadId; split <;> rfl
@[simp] theorem afterReadId_ecur (o : FrameOutcome) (s : State) : (afterReadId o s).ecur = s.ecur := by
  unfold afterReadId; split <;> rfl
@[simp] theorem afterReadId_eend (o : FrameOutcome) (s : State) : (afterReadId o s).eend = s.eend := by
  unfold afterReadId; split <;> rfl
@[simp] theorem afterReadId_pcur (o : FrameOutcome) (s : State) : (afterReadId o s).pcur = s.pcur := by
  unfold afterReadId; split <;> rfl
@[simp] theorem afterReadId_pend (o : FrameOutcome) (s : State) : (afterReadId o s).pend = s.pend := by
  unfold afterReadId; split <;> rfl
@[simp] theorem afterReadId_pollCnt (o : FrameOutcome) (s : State) : (afterReadId o s).pollCnt = s.pollCnt := by
  unfold afterReadId; split <;> rfl
@[simp] theorem afterReadId_maybeBusy (o : FrameOutcome) (s : State) : (afterReadId o s).maybeBusy = s.maybeBusy := by
  unfold afterReadId; split <;> rfl
@[simp] theorem afterReadId_uidValid (o : FrameOutcome) (s : State) : (afterReadId o s).uidValid = s.uidValid := by
  unfold afterReadId; split <;> rfl
@[simp] theorem afterReadId_uid (o : FrameOutcome) (s : State) : (afterReadId o s).uid = s.uid := by
  unfold afterReadId; split <;> rfl
@[simp] theorem afterReadId_cs (o : FrameOutcome) (s : State) : (afterReadId o s).cs = s.cs := by
  unfold afterReadId; split <;> rfl
@[simp] theorem afterReadId_flash (o : FrameOutcome) (s : State) : (afterReadId o s).flash = s.flash := by
  unfold afterReadId; split <;> rfl
@[simp] theorem afterReadId_devState (o : FrameOutcome) (s : State) : (afterReadId o s).devState = s.devState := by
  unfold afterReadId; split <;> rfl
@[simp] theorem afterReadId_devId (o : FrameOutcome) (s : State) : (afterReadId o s).devId = s.devId := by
  unfold afterReadId; split <;> rfl
@[simp] theorem afterReadId_devUid (o : FrameOutcome) (s : State) : (afterReadId o s).devUid = s.devUid := by
  unfold afterReadId; split <;> rfl
@[simp] theorem afterReadId_host (o : FrameOutcome) (s : State) : (afterReadId o s).host = s.host := by
  unfold afterReadId; split <;> rfl
@[simp] theorem afterReadId_buf (o : FrameOutcome) (s : State) : (afterReadId o s).buf = s.buf := by
  unfold afterReadId; split <;> rfl
@[simp] theorem afterReadId_bus (o : FrameOutcome) (s : State) : (afterReadId o s).bus = s.bus := by
  unfold afterReadId; split <;> rfl
@[simp] theorem afterReadId_launched (o : FrameOutcome) (s : State) : (afterReadId o s).launched = s.launched := by
  unfold afterReadId; split <;> rfl
@[simp] theorem afterReadId_inputs (o : FrameOutcome) (s : State) : (afterReadId o s).inputs = s.inputs := by
  unfold afterReadId; split <;> rfl
@[simp] theorem afterReadId_draws (o : FrameOutcome) (s : State) : (afterReadId o s).draws = s.draws := by
  unfold afterReadId; split <;> rfl
@[simp] theorem afterReadUniqueId_cfg (o : FrameOutcome) (s : State) : (afterReadUniqueId o s).cfg = s.cfg := by
  unfold afterReadUniqueId; split <;> rfl
@[simp] theorem afterReadUniqueId_reqOp (o : FrameOutcome) (s : State) : (afterReadUniqueId o s).reqOp = s.reqOp := by
  unfold afterReadUniqueId; split <;> rfl
@[simp] theorem afterReadUniqueId_reqAddr (o : FrameOutcome) (s : State) : (afterReadUniqueId o s).reqAddr = s.reqAddr := by
  unfold afterReadUniqueId; split <;> rfl
@[simp] theorem afterReadUniqueId_reqLen (o : FrameOutcome) (s : State) : (afterReadUniqueId o s).reqLen = s.reqLen := by
  unfold afterReadUniqueId; split <;> rfl
@[simp] theorem afterReadUniqueId_ecur (o : FrameOutcome) (s : State) : (afterReadUniqueId o s).ecur = s.ecur := by
  unfold afterReadUniqueId; split <;> rfl
@[simp] theorem afterReadUniqueId_eend (o : FrameOutcome) (s : State) : (afterReadUniqueId o s).eend = s.eend := by
  unfold afterReadUniqueId; split <;> rfl
@[simp] theorem afterReadUniqueId_pcur (o : FrameOutcome) (s : State) : (afterReadUniqueId o s).pcur = s.pcur := by
  unfold afterReadUniqueId; split <;> rfl
@[simp] theorem afterReadUniqueId_pend (o : FrameOutcome) (s : State) : (afterReadUniqueId o s).pend = s.pend := by
  unfold afterReadUniqueId; split <;> rfl
@[simp] theorem afterReadUniqueId_pollCnt (o : FrameOutcome) (s : State) : (afterReadUniqueId o s).pollCnt = s.pollCnt := by
  unfold afterReadUniqueId; split <;> rfl
@[simp] theorem afterReadUniqueId_maybeBusy (o : FrameOutcome) (s : State) : (afterReadUniqueId o s).maybeBusy = s.maybeBusy := by
  unfold afterReadUniqueId; split <;> rfl
@[simp] theorem afterReadUniqueId_idValid (o : FrameOutcome) (s : State) : (afterReadUniqueId o s).idValid = s.idValid := by
  unfold afterReadUniqueId; split <;> rfl
@[simp] theorem afterReadUniqueId_idCode (o : FrameOutcome) (s : State) : (afterReadUniqueId o s).idCode = s.idCode := by
  unfold afterReadUniqueId; split <;> rfl
@[simp] theorem afterReadUniqueId_idRaw (o : FrameOutcome) (s : State) : (afterReadUniqueId o s).idRaw = s.idRaw := by
  unfold afterReadUniqueId; split <;> rfl
@[simp] theorem afterReadUniqueId_cs (o : FrameOutcome) (s : State) : (afterReadUniqueId o s).cs = s.cs := by
  unfold afterReadUniqueId; split <;> rfl
@[simp] theorem afterReadUniqueId_flash (o : FrameOutcome) (s : State) : (afterReadUniqueId o s).flash = s.flash := by
  unfold afterReadUniqueId; split <;> rfl
@[simp] theorem afterReadUniqueId_devState (o : FrameOutcome) (s : State) : (afterReadUniqueId o s).devState = s.devState := by
  unfold afterReadUniqueId; split <;> rfl
@[simp] theorem afterReadUniqueId_devId (o : FrameOutcome) (s : State) : (afterReadUniqueId o s).devId = s.devId := by
  unfold afterReadUniqueId; split <;> rfl
@[simp] theorem afterReadUniqueId_devUid (o : FrameOutcome) (s : State) : (afterReadUniqueId o s).devUid = s.devUid := by
  unfold afterReadUniqueId; split <;> rfl
@[simp] theorem afterReadUniqueId_host (o : FrameOutcome) (s : State) : (afterReadUniqueId o s).host = s.host := by
  unfold afterReadUniqueId; split <;> rfl
@[simp] theorem afterReadUniqueId_buf (o : FrameOutcome) (s : State) : (afterReadUniqueId o s).buf = s.buf := by
  unfold afterReadUniqueId; split <;> rfl
@[simp] theorem afterReadUniqueId_bus (o : FrameOutcome) (s : State) : (afterReadUniqueId o s).bus = s.bus := by
  unfold afterReadUniqueId; split <;> rfl
@[simp] theorem afterReadUniqueId_launched (o : FrameOutcome) (s : State) : (afterReadUniqueId o s).launched = s.launched := by
  unfold afterReadUniqueId; split <;> rfl
@[simp] theorem afterReadUniqueId_inputs (o : FrameOutcome) (s : State) : (afterReadUniqueId o s).inputs = s.inputs := by
  unfold afterReadUniqueId; split <;> rfl
@[simp] theorem afterReadUniqueId_draws (o : FrameOutcome) (s : State) : (afterReadUniqueId o s).draws = s.draws := by
  unfold afterReadUniqueId; split <;> rfl
@[simp] theorem acceptWrite_cfg (a l : U32) (s : State) : (acceptWrite a l s).cfg = s.cfg := by
  unfold acceptWrite; split <;> [rfl; split <;> rfl]
@[simp] theorem acceptWrite_reqOp (a l : U32) (s : State) : (acceptWrite a l s).reqOp = s.reqOp := by
  unfold acceptWrite; split <;> [rfl; split <;> rfl]
@[simp] theorem acceptWrite_reqAddr (a l : U32) (s : State) : (acceptWrite a l s).reqAddr = s.reqAddr := by
  unfold acceptWrite; split <;> [rfl; split <;> rfl]
@[simp] theorem acceptWrite_reqLen (a l : U32) (s : State) : (acceptWrite a l s).reqLen = s.reqLen := by
  unfold acceptWrite; split <;> [rfl; split <;> rfl]
@[simp] theorem acceptWrite_maybeBusy (a l : U32) (s : State) : (acceptWrite a l s).maybeBusy = s.maybeBusy := by
  unfold acceptWrite; split <;> [rfl; split <;> rfl]
@[simp] theorem acceptWrite_idValid (a l : U32) (s : State) : (acceptWrite a l s).idValid = s.idValid := by
  unfold acceptWrite; split <;> [rfl; split <;> rfl]
@[simp] theorem acceptWrite_idCode (a l : U32) (s : State) : (acceptWrite a l s).idCode = s.idCode := by
  unfold acceptWrite; split <;> [rfl; split <;> rfl]
@[simp] theorem acceptWrite_idRaw (a l : U32) (s : State) : (acceptWrite a l s).idRaw = s.idRaw := by
  unfold acceptWrite; split <;> [rfl; split <;> rfl]
@[simp] theorem acceptWrite_uidValid (a l : U32) (s : State) : (acceptWrite a l s).uidValid = s.uidValid := by
  unfold acceptWrite; split <;> [rfl; split <;> rfl]
@[simp] theorem acceptWrite_uid (a l : U32) (s : State) : (acceptWrite a l s).uid = s.uid := by
  unfold acceptWrite; split <;> [rfl; split <;> rfl]
@[simp] theorem acceptWrite_cs (a l : U32) (s : State) : (acceptWrite a l s).cs = s.cs := by
  unfold acceptWrite; split <;> [rfl; split <;> rfl]
@[simp] theorem acceptWrite_flash (a l : U32) (s : State) : (acceptWrite a l s).flash = s.flash := by
  unfold acceptWrite; split <;> [rfl; split <;> rfl]
@[simp] theorem acceptWrite_devState (a l : U32) (s : State) : (acceptWrite a l s).devState = s.devState := by
  unfold acceptWrite; split <;> [rfl; split <;> rfl]
@[simp] theorem acceptWrite_devId (a l : U32) (s : State) : (acceptWrite a l s).devId = s.devId := by
  unfold acceptWrite; split <;> [rfl; split <;> rfl]
@[simp] theorem acceptWrite_devUid (a l : U32) (s : State) : (acceptWrite a l s).devUid = s.devUid := by
  unfold acceptWrite; split <;> [rfl; split <;> rfl]
@[simp] theorem acceptWrite_host (a l : U32) (s : State) : (acceptWrite a l s).host = s.host := by
  unfold acceptWrite; split <;> [rfl; split <;> rfl]
@[simp] theorem acceptWrite_buf (a l : U32) (s : State) : (acceptWrite a l s).buf = s.buf := by
  unfold acceptWrite; split <;> [rfl; split <;> rfl]
@[simp] theorem acceptWrite_bus (a l : U32) (s : State) : (acceptWrite a l s).bus = s.bus := by
  unfold acceptWrite; split <;> [rfl; split <;> rfl]
@[simp] theorem acceptWrite_launched (a l : U32) (s : State) : (acceptWrite a l s).launched = s.launched := by
  unfold acceptWrite; split <;> [rfl; split <;> rfl]
@[simp] theorem acceptWrite_inputs (a l : U32) (s : State) : (acceptWrite a l s).inputs = s.inputs := by
  unfold acceptWrite; split <;> [rfl; split <;> rfl]
@[simp] theorem acceptWrite_draws (a l : U32) (s : State) : (acceptWrite a l s).draws = s.draws := by
  unfold acceptWrite; split <;> [rfl; split <;> rfl]

end Sys2Proof.Machine
end

