-- ==== Sys2Proof/Laws/Frame.lean ====
section
/-! SUPPORT. What a frame can do (spec/30_encoding.md R104, spec/20_memory.md R88), said once, and the reactions of the
device (R69 to R76). -/

namespace Sys2Proof.Machine

theorem received_of_not {t : Transport} (h : t.received = false) : ∃ e, t = .fail e false := by
  cases t with
  | ok => simp [Transport.received] at h
  | fail e r => cases r <;> simp_all [Transport.received]

/-- A frame is never refused. -/
theorem sendFrame_ne_refused (d : Descriptor) (r : Except DeviceFault DeviceReply) (k : FrameOutcome → State → State)
    (s : State) (x : Refusal) : sendFrame d r k s ≠ .refused x := by
  unfold sendFrame
  split
  · simp
  · split <;> simp

/-- The frame is a device fault exactly when the device receives what it has no behaviour for. -/
theorem sendFrame_fault_iff (d : Descriptor) (r : Except DeviceFault DeviceReply) (k : FrameOutcome → State → State)
    (s : State) (x : Fault) :
    sendFrame d r k s = .fault x ↔ ∃ f, r = .error f ∧ x = .device f ∧ s.input.transport.received = true := by
  unfold sendFrame
  cases r with
  | ok r => simp
  | error f =>
    simp only [Except.error.injEq, exists_eq_left']
    by_cases h : s.input.transport.received = true
    · simp [h, eq_comm]
    · simp [h]

/-- A frame that goes on: the device accepted what was sent, or it was not received. -/
theorem sendFrame_next {d : Descriptor} {r : Except DeviceFault DeviceReply} {k : FrameOutcome → State → State}
    {s t : State} (h : sendFrame d r k s = .next t) :
    (∃ a, r = .ok a ∧ t = k (s.input.transport.outcome a.bytes)
      (busFrame d (s.input.transport.outcome a.bytes) (deliver a s))) ∨
    (∃ f e, r = .error f ∧ s.input.transport = .fail e false ∧ t = k (.err e) (busFrame d (.err e) s)) := by
  unfold sendFrame at h
  cases r with
  | ok a => exact .inl ⟨a, rfl, by simpa using h.symm⟩
  | error f =>
    by_cases hr : s.input.transport.received = true
    · simp [hr] at h
    · obtain ⟨e, he⟩ := received_of_not (by simpa using hr)
      refine .inr ⟨f, e, rfl, he, ?_⟩
      simpa [he, Transport.received, Transport.outcome, eq_comm] using h

theorem sendFrame_ok (d : Descriptor) (a : DeviceReply) (k : FrameOutcome → State → State) (s : State) :
    sendFrame d (.ok a) k s = .next (k (s.input.transport.outcome a.bytes)
      (busFrame d (s.input.transport.outcome a.bytes) (deliver a s))) := rfl

/-! ## The device's reactions -/

/-- R69: an idle or write-enabled device ends write-enabled. -/
theorem devWriteEnable_of_not_busy {s : State} (h : s.devState.busy = false) :
    devWriteEnable s = .ok ⟨.writeEnabled, s.flash, []⟩ := by
  unfold devWriteEnable
  cases hd : s.devState <;> simp_all [DevState.busy]

/-- R70. -/
theorem devErase_of_enabled {s : State} {a size : Nat} (h : s.devState = .writeEnabled) (ha : a % size = 0)
    (hc : a + size ≤ s.cfg.capacity) :
    devErase size a s = .ok ⟨.erasing a size, s.flash.forget a size, []⟩ := by
  unfold devErase
  simp [h, ha, Nat.not_lt.mpr hc]

/-- R71. -/
theorem devProgram_of_enabled {s : State} {a : Nat} {data : List Byte} (h : s.devState = .writeEnabled)
    (hn : 1 ≤ data.length) (hp : a % s.cfg.pageSize + data.length ≤ s.cfg.pageSize)
    (hc : a + data.length ≤ s.cfg.capacity) :
    devProgram a data s =
      .ok ⟨.programming a data (s.flash.readRange a data.length), s.flash.forget a data.length, []⟩ := by
  unfold devProgram
  have : data.length ≤ s.cfg.pageSize := by omega
  simp [h, Nat.not_lt.mpr hp, Nat.not_lt.mpr hc, Nat.not_lt.mpr this, show data ≠ [] by rintro rfl; simp at hn]

/-- R75, R76. -/
theorem devIdentify_of_not_busy {s : State} (h : s.devState.busy = false) (ident : List Byte) :
    devIdentify ident s = .ok ⟨s.devState, s.flash, ident⟩ := by
  simp [devIdentify, h]

end Sys2Proof.Machine
end

