-- ==== Sys2Proof/Laws/Memory.lean ====
section
/-! SUPPORT. The flash array: what a read gives after each memory operation, and that each keeps the canonical form and
the array's bound. -/

namespace Sys2Proof.Machine

/-! ## Reading -/

@[simp] theorem Memory.read_nil (x : Nat) : Memory.read [] x = none := rfl

theorem Memory.read_cons (k : Nat) (v : Byte) (m : Memory) (x : Nat) :
    Memory.read ((k, v) :: m) x = if k = x then some v else Memory.read m x := rfl

/-- A read finds the first part that lists the address. -/
theorem Memory.read_append (m n : Memory) (x : Nat) :
    Memory.read (m ++ n) x = (Memory.read m x).or (Memory.read n x) := by
  induction m with
  | nil => simp
  | cons c m ih =>
    obtain ⟨k, v⟩ := c
    simp only [List.cons_append, Memory.read_cons]
    split
    · simp
    · exact ih

/-- A filter by address keeps the reads of the addresses it keeps and empties the others. -/
theorem Memory.read_filter (p : Nat → Bool) (m : Memory) (x : Nat) :
    Memory.read (m.filter (fun c => p c.1)) x = if p x then Memory.read m x else none := by
  induction m with
  | nil => simp
  | cons c m ih =>
    obtain ⟨k, v⟩ := c
    by_cases hk : p k <;> by_cases hx : k = x
    · subst hx; simp [hk, Memory.read_cons]
    · simp [hk, Memory.read_cons, hx, ih]
    · subst hx; simp [hk, ih]
    · simp [hk, Memory.read_cons, hx, ih]

@[simp] theorem Memory.read_below (m : Memory) (a x : Nat) :
    (m.below a).read x = if x < a then m.read x else none := by
  simpa [Memory.below] using Memory.read_filter (fun k => decide (k < a)) m x

@[simp] theorem Memory.read_above (m : Memory) (a x : Nat) :
    (m.above a).read x = if a ≤ x then m.read x else none := by
  simpa [Memory.above] using Memory.read_filter (fun k => decide (a ≤ k)) m x

theorem Memory.readRange_eq (m : Memory) (a n : Nat) : m.readRange a n = (List.range' a n).map m.read := by
  unfold Memory.readRange
  refine List.map_congr_left fun x hx => ?_
  rw [List.mem_range'_1] at hx
  simp [hx.1, hx.2]

@[simp] theorem Memory.readRange_length (m : Memory) (a n : Nat) : (m.readRange a n).length = n := by
  simp [Memory.readRange]

theorem read_cellsFrom (a : Nat) (vs : List (Option Byte)) (x : Nat) :
    Memory.read (cellsFrom a vs) x = if a ≤ x then (vs[x - a]?).join else none := by
  induction vs generalizing a with
  | nil => simp [cellsFrom]
  | cons v vs ih =>
    rcases Nat.lt_trichotomy x a with h | h | h
    · have h' : ¬ a ≤ x := by omega
      cases v <;> simp [cellsFrom, Memory.read_cons, ih, h', show ¬ a + 1 ≤ x by omega, show a ≠ x by omega]
    · subst h
      cases v <;> simp [cellsFrom, Memory.read_cons, ih]
    · obtain ⟨j, rfl⟩ : ∃ j, x = a + 1 + j := ⟨x - (a + 1), by omega⟩
      cases v <;>
        simp [cellsFrom, Memory.read_cons, ih, show a ≤ a + 1 + j by omega, show a ≠ a + 1 + j by omega,
          show a + 1 + j - a = j + 1 by omega]

/-- Reading after a write: the value written inside the range, the old byte outside. -/
theorem Memory.read_write (m : Memory) (a : Nat) (vs : List (Option Byte)) (x : Nat) :
    (m.write a vs).read x = if a ≤ x ∧ x < a + vs.length then (vs[x - a]?).join else m.read x := by
  unfold Memory.write
  rw [Memory.read_append, Memory.read_append, Memory.read_below, read_cellsFrom, Memory.read_above]
  rcases Nat.lt_or_ge x a with h | h
  · simp [h, show ¬ a ≤ x by omega, show ¬ a + vs.length ≤ x by omega]
  · rcases Nat.lt_or_ge x (a + vs.length) with h' | h'
    · simp [h, h', show ¬ x < a by omega, show ¬ a + vs.length ≤ x by omega]
    · have : vs[x - a]? = none := List.getElem?_eq_none (by omega)
      simp [h, h', show ¬ x < a by omega, show ¬ x < a + vs.length by omega, this]

theorem Memory.read_write_out (m : Memory) (a : Nat) (vs : List (Option Byte)) (x : Nat)
    (h : x < a ∨ a + vs.length ≤ x) : (m.write a vs).read x = m.read x := by
  rw [Memory.read_write, if_neg (by omega)]

/-- Reading after a range has become indeterminate. -/
theorem Memory.read_forget (m : Memory) (a n x : Nat) :
    (m.forget a n).read x = if a ≤ x ∧ x < a + n then none else m.read x := by
  unfold Memory.forget
  rw [Memory.read_append, Memory.read_below, Memory.read_above]
  rcases Nat.lt_or_ge x a with h | h
  · simp [h, show ¬ a ≤ x by omega, show ¬ a + n ≤ x by omega]
  · rcases Nat.lt_or_ge x (a + n) with h' | h'
    · simp [h, h', show ¬ x < a by omega, show ¬ a + n ≤ x by omega]
    · simp [h, h', show ¬ x < a by omega, show ¬ x < a + n by omega]

theorem Memory.read_forget_out (m : Memory) (a n x : Nat) (h : x < a ∨ a + n ≤ x) :
    (m.forget a n).read x = m.read x := by
  rw [Memory.read_forget, if_neg (by omega)]

/-! ## The canonical form -/

theorem Memory.wf_filter {m : Memory} (h : m.wf) (p : Host.Cell → Bool) : Memory.wf (m.filter p) :=
  List.Pairwise.filter p h

theorem mem_cellsFrom {a : Nat} {vs : List (Option Byte)} {c : Host.Cell} (h : c ∈ cellsFrom a vs) :
    a ≤ c.1 ∧ c.1 < a + vs.length := by
  induction vs generalizing a with
  | nil => simp [cellsFrom] at h
  | cons v vs ih =>
    cases v with
    | none =>
      have := ih h
      simp only [List.length_cons]
      omega
    | some b =>
      rcases List.mem_cons.mp h with rfl | h
      · simp
      · have := ih h
        simp only [List.length_cons]
        omega

theorem wf_cellsFrom (a : Nat) (vs : List (Option Byte)) : Memory.wf (cellsFrom a vs) := by
  induction vs generalizing a with
  | nil => exact List.Pairwise.nil
  | cons v vs ih =>
    cases v with
    | none => exact ih (a + 1)
    | some b =>
      refine List.Pairwise.cons (fun c hc => ?_) (ih (a + 1))
      have := mem_cellsFrom hc
      show a < c.1
      omega

/-- A write keeps the canonical form. -/
theorem Memory.wf_write {m : Memory} (h : m.wf) (a : Nat) (vs : List (Option Byte)) : (m.write a vs).wf := by
  unfold Memory.write
  refine List.pairwise_append.mpr ⟨Memory.wf_filter h _, ?_, fun x hx y hy => ?_⟩
  · refine List.pairwise_append.mpr ⟨wf_cellsFrom a vs, Memory.wf_filter h _, fun x hx y hy => ?_⟩
    have hx := mem_cellsFrom hx
    have hy := (List.mem_filter.mp hy).2
    simp only [decide_eq_true_eq] at hy
    omega
  · have hx := (List.mem_filter.mp hx).2
    simp only [decide_eq_true_eq] at hx
    rcases List.mem_append.mp hy with hy | hy
    · have := mem_cellsFrom hy
      omega
    · have hy := (List.mem_filter.mp hy).2
      simp only [decide_eq_true_eq] at hy
      omega

/-- Forgetting a range keeps the canonical form. -/
theorem Memory.wf_forget {m : Memory} (h : m.wf) (a n : Nat) : (m.forget a n).wf := by
  unfold Memory.forget
  refine List.pairwise_append.mpr ⟨Memory.wf_filter h _, Memory.wf_filter h _, fun x hx y hy => ?_⟩
  have hx := (List.mem_filter.mp hx).2
  have hy := (List.mem_filter.mp hy).2
  simp only [decide_eq_true_eq] at hx hy
  omega

/-- An entry of a canonical memory is what its address reads as. -/
theorem Memory.read_of_mem {m : Memory} (h : m.wf) {k : Nat} {v : Byte} (hm : (k, v) ∈ m) : m.read k = some v := by
  induction m with
  | nil => simp at hm
  | cons c m ih =>
    obtain ⟨k', v'⟩ := c
    rw [Memory.read_cons]
    rcases List.mem_cons.mp hm with he | hm
    · obtain ⟨rfl, rfl⟩ := Prod.mk.inj he
      simp
    · have := (List.pairwise_cons.mp h).1 _ hm
      rw [if_neg (by simp only at this; omega)]
      exact ih (List.pairwise_cons.mp h).2 hm

theorem Memory.mem_of_read {m : Memory} {k : Nat} {v : Byte} (hm : m.read k = some v) : (k, v) ∈ m := by
  induction m with
  | nil => simp at hm
  | cons c m ih =>
    obtain ⟨k', v'⟩ := c
    rw [Memory.read_cons] at hm
    split at hm
    · simp_all
    · exact List.mem_cons_of_mem _ (ih hm)

/-- Canonical memories that read alike are equal data. -/
theorem Memory.eq_of_read {m n : Memory} (hm : m.wf) (hn : n.wf) (h : ∀ x, m.read x = n.read x) : m = n := by
  refine List.Perm.eq_of_pairwise (le := fun x y => x.1 < y.1) (fun a b _ _ hab hba => ?_) hm hn ?_
  · exact absurd hab (by omega)
  · refine (List.perm_ext_iff_of_nodup (hm.imp fun h => ?_) (hn.imp fun h => ?_)).mpr fun ⟨k, v⟩ => ?_
    · rintro rfl; exact absurd h (by omega)
    · rintro rfl; exact absurd h (by omega)
    · exact ⟨fun hk => Memory.mem_of_read (h k ▸ Memory.read_of_mem hm hk),
        fun hk => Memory.mem_of_read ((h k).symm ▸ Memory.read_of_mem hn hk)⟩

theorem reset_flash_wf : Memory.wf State.reset.flash := List.Pairwise.nil

/-! ## The bound of the array -/

/-- A write inside the bound keeps every entry inside it. -/
theorem Memory.bounded_write {m : Memory} {cap : Nat} (h : ∀ c ∈ m, c.1 < cap) (a : Nat) (vs : List (Option Byte))
    (ha : a + vs.length ≤ cap) : ∀ c ∈ m.write a vs, c.1 < cap := by
  intro c hc
  unfold Memory.write Memory.below Memory.above at hc
  rcases List.mem_append.mp hc with hc | hc
  · exact h c (List.mem_filter.mp hc).1
  · rcases List.mem_append.mp hc with hc | hc
    · have := mem_cellsFrom hc
      omega
    · exact h c (List.mem_filter.mp hc).1

theorem Memory.bounded_forget {m : Memory} {cap : Nat} (h : ∀ c ∈ m, c.1 < cap) (a n : Nat) :
    ∀ c ∈ m.forget a n, c.1 < cap := by
  intro c hc
  unfold Memory.forget Memory.below Memory.above at hc
  rcases List.mem_append.mp hc with hc | hc <;> exact h c (List.mem_filter.mp hc).1

end Sys2Proof.Machine
end

