-- ==== Sys2Proof/Laws/PerInstr.lean ====
section
/-! SUPPORT. A statement for every instruction: how long its encoding is and how many bytes come back
(spec/30_encoding.md R105, R109, R115). -/

namespace Sys2Proof.Laws.FrameShape

/-- Bytes sent for an instruction under `c` (R109); none for a request, which is one 66-bit word (R115). -/
def bytesSent (c : Cfg) : Instr → Nat
  | .wren => 1
  | .rdsr => 1
  | .pp3 _ data => 4 + data.length
  | .se3 _ => 4
  | .be3 _ => 4
  | .pp4 _ data => 5 + data.length
  | .se4 _ => 5
  | .be4 _ => 5
  | .rdid => 1
  | .ruid => 1 + c.uidDummy
  | .writeStream _ _ => 0
  | .readId _ _ => 0
  | .readUniqueId _ _ => 0
  | .reservedOp0 _ _ => 0

/-- The encoding of `i` is a frame of `bytesSent` bytes that reads `replyLen`, the payload last, or a request word. -/
def Statement (i : Instr) : Prop :=
  ∀ c : Cfg, match encode c i with
    | .frame d => (d.commandBytes ++ d.writePayload).length = bytesSent c i ∧ d.readLen = replyLen c i
    | .request w => bytesSent c i = 0 ∧ decodeRequest w = i

theorem wren : Statement .wren := fun _ => ⟨rfl, rfl⟩
theorem rdsr : Statement .rdsr := fun _ => ⟨rfl, rfl⟩
theorem pp3 (a : BitVec 24) (data : List Byte) : Statement (.pp3 a data) := fun _ =>
  ⟨by simp [frameOpAD, bytesSent]; omega, rfl⟩
theorem se3 (a : BitVec 24) : Statement (.se3 a) := fun _ => ⟨by simp [frameOpA, bytesSent], rfl⟩
theorem be3 (a : BitVec 24) : Statement (.be3 a) := fun _ => ⟨by simp [frameOpA, bytesSent], rfl⟩
theorem pp4 (a : BitVec 32) (data : List Byte) : Statement (.pp4 a data) := fun _ =>
  ⟨by simp [frameOpAD, bytesSent]; omega, rfl⟩
theorem se4 (a : BitVec 32) : Statement (.se4 a) := fun _ => ⟨by simp [frameOpA, bytesSent], rfl⟩
theorem be4 (a : BitVec 32) : Statement (.be4 a) := fun _ => ⟨by simp [frameOpA, bytesSent], rfl⟩
theorem rdid : Statement .rdid := fun _ => ⟨rfl, rfl⟩
theorem ruid : Statement .ruid := fun _ => ⟨by simp [frameOpZR, bytesSent, Nat.add_comm], rfl⟩
theorem writeStream (a l : U32) : Statement (.writeStream a l) := fun _ => ⟨rfl, by simp [decodeRequest]⟩
theorem readId (a l : U32) : Statement (.readId a l) := fun _ => ⟨rfl, by simp [decodeRequest]⟩
theorem readUniqueId (a l : U32) : Statement (.readUniqueId a l) := fun _ => ⟨rfl, by simp [decodeRequest]⟩
theorem reservedOp0 (a l : U32) : Statement (.reservedOp0 a l) := fun _ => ⟨rfl, by simp [decodeRequest]⟩

end Sys2Proof.Laws.FrameShape
end

