-- ==== Sys2Proof/Laws/Sequencer.lean ====
section
/-! SUPPORT. What each phase's step is, once the operation has gone through the encoder and the decoder
(spec/42_stream_writer.md R186 to R195, spec/43_identification.md R222, R225): the frame of that phase. -/

namespace Sys2Proof.Machine

/-! ## One operation at a time: what a call that is sent runs -/

theorem sendOp_writeEnable (s : State) : sendOp .writeEnable s = execWren s := by
  simp [sendOp, encodeOp, decodeFrame, frameOp, decodeBytes, decodeBare, replyLen, exec]

section
variable {s : State} (h : s.cfg.Legal)
include h

theorem sendOp_readStatus : sendOp .readStatus s = execRdsr s := by
  simp [sendOp, encodeOp, decodeFrame, frameOpR, decodeBytes, decodeBare, replyLen, exec, (legal_opcodes h).1]

theorem sendOp_readId : sendOp .readId s = execRdid s := by
  obtain ⟨-, -, -, -, ⟨h1, h2, h3, h4, h5⟩, -⟩ := legal_opcodes h
  simp [sendOp, encodeOp, decodeFrame, frameOpR, decodeBytes, decodeBare, replyLen, exec, h1, h2, h3, h4, h5]

theorem sendOp_readUniqueId : sendOp .readUniqueId s = execRuid s := by
  obtain ⟨-, -, -, -, -, h1, h2, h3, h4, h5, h6⟩ := legal_opcodes h
  simp [sendOp, encodeOp, decodeFrame, frameOpZR, decodeBytes, replyLen, exec, h1, h2, h3, h4, h5, h6]

/-- An erase of a sector, at any address the addressing mode can send. -/
theorem sendOp_sectorErase {a : Nat} (ha : a < 2 ^ (8 * s.cfg.addrBytes)) :
    sendOp (.erase sectorSize a) s = eraseCommand s.cfg.addrBytes s.cfg.opc.se sectorSize a s := by
  obtain ⟨-, -, ⟨h1, h2, h3⟩, -⟩ := legal_opcodes h
  have he := legal_eraseSet h
  rcases legal_addrBytes h with hn | hn
  · have ha' : a % 16777216 = a := Nat.mod_eq_of_lt (by simpa [hn] using ha)
    simp [sendOp, encodeOp, he, decodeFrame, frameOpA, decodeBytes, decodeErase, replyLen, exec, h1, h2, h3, hn,
      ofNat_fromBe_beBytes_24, execSe3, ha']
  · have ha' : a % 4294967296 = a := Nat.mod_eq_of_lt (by simpa [hn] using ha)
    simp [sendOp, encodeOp, he, decodeFrame, frameOpA, decodeBytes, decodeErase, replyLen, exec, h1, h2, h3, hn,
      ofNat_fromBe_beBytes_32, execSe4, ha']

/-- An erase of a block, at any address the addressing mode can send. -/
theorem sendOp_blockErase {a : Nat} (ha : a < 2 ^ (8 * s.cfg.addrBytes)) :
    sendOp (.erase blockSize a) s = eraseCommand s.cfg.addrBytes s.cfg.opc.be blockSize a s := by
  obtain ⟨-, -, -, ⟨h1, h2, h3, h4⟩, -⟩ := legal_opcodes h
  have he := legal_eraseSet h
  have hne : blockSize ≠ sectorSize := by decide
  rcases legal_addrBytes h with hn | hn
  · have ha' : a % 16777216 = a := Nat.mod_eq_of_lt (by simpa [hn] using ha)
    simp [sendOp, encodeOp, he, decodeFrame, frameOpA, decodeBytes, decodeErase, replyLen, exec, h1, h2, h3, h4,
      hn, ofNat_fromBe_beBytes_24, execBe3, ha', hne]
  · have ha' : a % 4294967296 = a := Nat.mod_eq_of_lt (by simpa [hn] using ha)
    simp [sendOp, encodeOp, he, decodeFrame, frameOpA, decodeBytes, decodeErase, replyLen, exec, h1, h2, h3, h4,
      hn, ofNat_fromBe_beBytes_32, execBe4, ha', hne]

/-- A page-program at any address the addressing mode can send. -/
theorem sendOp_pageProgram {a : Nat} (ha : a < 2 ^ (8 * s.cfg.addrBytes)) (data : List Byte) :
    sendOp (.pageProgram a data) s = programCommand s.cfg.addrBytes a data s := by
  obtain ⟨-, ⟨h1, h2⟩, -⟩ := legal_opcodes h
  rcases legal_addrBytes h with hn | hn
  · have ha' : a % 16777216 = a := Nat.mod_eq_of_lt (by simpa [hn] using ha)
    have ht : (beBytes 3 a ++ data).take 3 = beBytes 3 a := by simp
    have hd : (beBytes 3 a ++ data).drop 3 = data := by simp
    simp [sendOp, encodeOp, decodeFrame, frameOpAD, decodeBytes, decodeProgram, replyLen, exec, h1, h2, hn,
      ht, hd, ofNat_fromBe_beBytes_24, execPp3, ha']
  · have ha' : a % 4294967296 = a := Nat.mod_eq_of_lt (by simpa [hn] using ha)
    have ht : (beBytes 4 a ++ data).take 4 = beBytes 4 a := by simp
    have hd : (beBytes 4 a ++ data).drop 4 = data := by simp
    simp [sendOp, encodeOp, decodeFrame, frameOpAD, decodeBytes, decodeProgram, replyLen, exec, h1, h2, hn,
      ht, hd, ofNat_fromBe_beBytes_32, execPp4, ha']

end

/-! ## The address commands as frames -/

theorem eraseCommand_own_mode (opc : Byte) (size a : Nat) (s : State) :
    eraseCommand s.cfg.addrBytes opc size a s =
      sendFrame (frameOpA s.cfg.addrBytes opc a) (devErase size a s) (afterErase size) s := by
  simp [eraseCommand]

theorem programCommand_own_mode (a : Nat) (data : List Byte) (s : State) :
    programCommand s.cfg.addrBytes a data s =
      sendFrame (frameOpAD s.cfg.addrBytes s.cfg.opc.pp a data) (devProgram a data s) (afterProgram data.length) s := by
  simp [programCommand]

theorem nextUnitSize_cases (c hi : Nat) :
    (nextUnitSize c hi = blockSize ∧ c % blockSize = 0 ∧ c + blockSize ≤ hi) ∨
    (nextUnitSize c hi = sectorSize ∧ ¬ (c % blockSize = 0 ∧ c + blockSize ≤ hi)) := by
  unfold nextUnitSize
  split
  · exact .inl ⟨rfl, ‹_›⟩
  · exact .inr ⟨rfl, ‹_›⟩

/-! ## Which calls of the encoder are refused (R140, U7) -/

theorem commandStep_of_illFormed {s : State} {op : LogicalOp} {why : IllFormed} (h : op.illFormed? s.cfg = some why) :
    commandStep op s = .refused (.encoderPrecondition why) := by
  simp [commandStep, h]

theorem commandStep_of_wellFormed {s : State} {op : LogicalOp} (h : op.illFormed? s.cfg = none) :
    commandStep op s = sendOp op s := by
  simp [commandStep, h]

/-- All a call of the encoder can do: it is refused, or it is sent. -/
theorem commandStep_cases (op : LogicalOp) (s : State) :
    (∃ why, op.illFormed? s.cfg = some why ∧ commandStep op s = .refused (.encoderPrecondition why)) ∨
    (op.illFormed? s.cfg = none ∧ commandStep op s = sendOp op s) := by
  cases h : op.illFormed? s.cfg with
  | some why => exact .inl ⟨why, rfl, commandStep_of_illFormed h⟩
  | none => exact .inr ⟨rfl, commandStep_of_wellFormed h⟩

section
variable {c : Cfg} (h : c.Legal)
include h

theorem erase_illFormed_iff {size a : Nat} (hs : size = sectorSize ∨ size = blockSize) :
    (LogicalOp.erase size a).illFormed? c = none ↔ a % size = 0 ∧ a + size ≤ c.capacity := by
  have hc := legal_capacity_addressable h
  have hm : size ∈ c.eraseSet := by simpa [legal_eraseSet h] using hs
  have hp : 0 < size := by rcases hs with rfl | rfl <;> decide
  simp only [LogicalOp.illFormed?, hm, not_true_eq_false, if_false, eraseIllFormed, ne_eq]
  split
  · simp only [reduceCtorEq, false_iff]; omega
  · split
    · next ha => simp [ha]
    · split
      · simp only [reduceCtorEq, false_iff]; omega
      · simp only [true_iff]; omega

theorem erase_otherSize_illFormed {size : Nat} (hs : ¬ (size = sectorSize ∨ size = blockSize)) (a : Nat) :
    (LogicalOp.erase size a).illFormed? c = none := by
  have hm : size ∉ c.eraseSet := by simpa [legal_eraseSet h] using hs
  simp [LogicalOp.illFormed?, hm]

theorem pageProgram_illFormed_iff (a : Nat) (data : List Byte) :
    (LogicalOp.pageProgram a data).illFormed? c = none ↔
      1 ≤ data.length ∧ data.length ≤ c.pageSize ∧ a % c.pageSize + data.length ≤ c.pageSize ∧
        a + data.length ≤ c.capacity := by
  have hc := legal_capacity_addressable h
  simp only [LogicalOp.illFormed?, programIllFormed, ne_eq, not_true_eq_false, if_false]
  generalize a % c.pageSize = r
  repeat' split
  all_goals simp only [reduceCtorEq, false_iff, true_iff]; omega

/-- The next erase unit is a call the encoder may be asked for (R166, R173). -/
theorem nextUnit_wellFormed {cur hi : Nat} (h1 : cur < hi) (h2 : cur % 4096 = 0) (h3 : hi % 4096 = 0)
    (h4 : hi ≤ c.capacity) : (LogicalOp.erase (nextUnitSize cur hi) cur).illFormed? c = none := by
  rcases nextUnitSize_cases cur hi with ⟨hs, ha, hb⟩ | ⟨hs, -⟩ <;> rw [hs]
  · exact (erase_illFormed_iff h (.inr rfl)).mpr ⟨ha, by omega⟩
  · exact (erase_illFormed_iff h (.inl rfl)).mpr ⟨h2, by simp only [sectorSize]; omega⟩

/-- The next chunk is a call the encoder may be asked for (R172, R173). -/
theorem nextChunk_wellFormed {cur hi : Nat} {data : List Byte} (h1 : cur < hi) (h2 : hi ≤ c.capacity)
    (hd : data.length = nextChunkLen c.pageSize cur hi) : (LogicalOp.pageProgram cur data).illFormed? c = none := by
  have hm := Nat.mod_lt cur (legal_pageSize h).1
  refine (pageProgram_illFormed_iff h cur data).mpr ?_
  simp only [hd, nextChunkLen]
  generalize cur % c.pageSize = r at *
  omega

end

/-! ## The calls of the sequencer -/

theorem commandStep_writeEnable (s : State) : commandStep .writeEnable s = execWren s :=
  (commandStep_of_wellFormed rfl).trans (sendOp_writeEnable s)

theorem commandStep_readStatus {s : State} (h : s.cfg.Legal) : commandStep .readStatus s = execRdsr s :=
  (commandStep_of_wellFormed rfl).trans (sendOp_readStatus h)

theorem commandStep_readId {s : State} (h : s.cfg.Legal) : commandStep .readId s = execRdid s :=
  (commandStep_of_wellFormed rfl).trans (sendOp_readId h)

theorem commandStep_readUniqueId {s : State} (h : s.cfg.Legal) : commandStep .readUniqueId s = execRuid s :=
  (commandStep_of_wellFormed rfl).trans (sendOp_readUniqueId h)

/-- The erase the sequencer sends (R187), at any cursor whose next unit the encoder may be asked for. -/
theorem commandStep_nextUnit {s : State} (h : s.cfg.Legal) {c hi : Nat}
    (hw : (LogicalOp.erase (nextUnitSize c hi) c).illFormed? s.cfg = none) :
    commandStep (.erase (nextUnitSize c hi) c) s =
      sendFrame (frameOpA s.cfg.addrBytes (eraseOpcode s.cfg (nextUnitSize c hi)) c)
        (devErase (nextUnitSize c hi) c s) (afterErase (nextUnitSize c hi)) s := by
  have hc := legal_capacity_addressable h
  rw [commandStep_of_wellFormed hw]
  rcases nextUnitSize_cases c hi with ⟨hs, -⟩ | ⟨hs, -⟩ <;> rw [hs] at hw ⊢
  · have := ((erase_illFormed_iff h (.inr rfl)).mp hw).2
    rw [sendOp_blockErase h (by simp only [blockSize] at this; omega), eraseCommand_own_mode]
    rfl
  · have := ((erase_illFormed_iff h (.inl rfl)).mp hw).2
    rw [sendOp_sectorErase h (by simp only [sectorSize] at this; omega), eraseCommand_own_mode]
    rfl

/-- The page-program the sequencer sends (R190), of any chunk the encoder may be asked for. -/
theorem commandStep_pageProgram {s : State} (h : s.cfg.Legal) {a : Nat} {data : List Byte}
    (hw : (LogicalOp.pageProgram a data).illFormed? s.cfg = none) :
    commandStep (.pageProgram a data) s =
      sendFrame (frameOpAD s.cfg.addrBytes s.cfg.opc.pp a data) (devProgram a data s) (afterProgram data.length) s := by
  have hc := legal_capacity_addressable h
  have := (pageProgram_illFormed_iff h a data).mp hw
  rw [commandStep_of_wellFormed hw, sendOp_pageProgram h (by omega), programCommand_own_mode]

end Sys2Proof.Machine
end

