-- ==== Sys2Proof/Laws/Step.lean ====
section
/-! SUPPORT. What a step can do, said once: whose step it is, and for the controller's the instruction of its phase. -/

namespace Sys2Proof.Machine

@[simp] theorem onNext_next (f : State → State) (s : State) : onNext f (.next s) = .next (f s) := rfl
@[simp] theorem onNext_fault (f : State → State) (x : Fault) : onNext f (.fault x) = .fault x := rfl
@[simp] theorem onNext_refused (f : State → State) (x : Refusal) : onNext f (.refused x) = .refused x := rfl

theorem onNext_eq_next {f : State → State} {o : Host.Outcome State Fault Refusal} {t : State}
    (h : onNext f o = .next t) : ∃ u, o = .next u ∧ t = f u := by
  cases o with
  | next u => exact ⟨u, rfl, by simpa using h.symm⟩
  | fault x => simp at h
  | refused x => simp at h

theorem onNext_eq_fault {f : State → State} {o : Host.Outcome State Fault Refusal} {x : Fault}
    (h : onNext f o = .fault x) : o = .fault x := by
  cases o <;> simp_all

/-- A step that goes on is a reset, a completion of the device, or a step of the controller, under a legal
configuration. -/
theorem step_next {s t : State} (h : step s = .next t) :
    s.configOk = true ∧ ∃ u, t = u.tick ∧
      ((s.agent = .reset ∧ u = controllerReset s) ∨ (s.agent = .device ∧ u = deviceComplete s) ∨
       (s.agent = .controller ∧ controllerStep s = .next u)) := by
  unfold step at h
  split at h
  · next hc =>
    obtain ⟨u, hu, rfl⟩ := onNext_eq_next h
    refine ⟨hc, u, rfl, ?_⟩
    unfold agentStep at hu
    split at hu
    · next ha => exact .inl ⟨ha, by simpa using hu.symm⟩
    · next ha => exact .inr (.inl ⟨ha, by simpa using hu.symm⟩)
    · next ha => exact .inr (.inr ⟨ha, hu⟩)
  · simp at h

/-- The device has a turn only while an operation is in progress. -/
theorem busy_of_device_turn {s : State} (h : s.agent = .device) : s.devState.busy = true := by
  unfold State.agent at h
  split at h
  · simp at h
  · split at h <;> simp_all
  · simp at h

/-! ## The controller's step in each phase -/

theorem controllerStep_idle {s : State} (hp : s.phase = .idle) : controllerStep s = acceptStep s := by
  simp [controllerStep, State.phaseOp, hp]

theorem controllerStep_wren {s : State} (hp : s.phase = .eraseWren ∨ s.phase = .progWren) :
    controllerStep s = execWren s := by
  rcases hp with hp | hp <;> simp [controllerStep, State.phaseOp, hp, commandStep_writeEnable]

theorem controllerStep_poll {s : State} (h : s.cfg.Legal)
    (hp : s.phase = .prePoll ∨ s.phase = .erasePoll ∨ s.phase = .progPoll) : controllerStep s = execRdsr s := by
  rcases hp with hp | hp | hp <;> simp [controllerStep, State.phaseOp, hp, commandStep_readStatus h]

theorem controllerStep_idCmd {s : State} (h : s.cfg.Legal) (hp : s.phase = .idCmd) :
    controllerStep s = execRdid s := by
  simp [controllerStep, State.phaseOp, hp, commandStep_readId h]

theorem controllerStep_uidCmd {s : State} (h : s.cfg.Legal) (hp : s.phase = .uidCmd) :
    controllerStep s = execRuid s := by
  simp [controllerStep, State.phaseOp, hp, commandStep_readUniqueId h]

/-- Under R42 (b) the next erase unit is sent. -/
theorem controllerStep_eraseCmd {s : State} (h : s.cfg.Legal) (hp : s.phase = .eraseCmd)
    (hc : s.ecur.toNat < s.eend.toNat ∧ s.ecur.toNat % 4096 = 0 ∧ s.eend.toNat % 4096 = 0 ∧
      s.eend.toNat ≤ s.cfg.capacity) :
    controllerStep s =
      sendFrame (frameOpA s.cfg.addrBytes (eraseOpcode s.cfg (nextUnitSize s.ecur.toNat s.eend.toNat)) s.ecur.toNat)
        (devErase (nextUnitSize s.ecur.toNat s.eend.toNat) s.ecur.toNat s)
        (afterErase (nextUnitSize s.ecur.toNat s.eend.toNat)) s := by
  simp [controllerStep, State.phaseOp, hp, nextUnit,
    commandStep_nextUnit h (nextUnit_wellFormed h hc.1 hc.2.1 hc.2.2.1 hc.2.2.2)]

/-- The chunk the sequencer programs next has the length R173 gives it. -/
theorem bufRead_length {s : State} {a n : Nat} {data : List Byte} (h : s.bufRead a n = some data) :
    data.length = n ∧ s.reqAddr.toNat ≤ a ∧ data = (s.buf.drop (a - s.reqAddr.toNat)).take n := by
  unfold State.bufRead at h
  split at h
  · next hb =>
    obtain rfl := (Option.some.inj h).symm
    exact ⟨by simp; omega, hb.1, rfl⟩
  · simp at h

/-- Under R42 (c) the next chunk is sent, if the host's buffer holds it. -/
theorem controllerStep_progCmd {s : State} (h : s.cfg.Legal) (hp : s.phase = .progCmd)
    (hc : s.pcur.toNat < s.pend.toNat ∧ s.pend.toNat ≤ s.cfg.capacity) {data : List Byte}
    (hb : s.bufRead s.pcur.toNat (nextChunkLen s.cfg.pageSize s.pcur.toNat s.pend.toNat) = some data) :
    controllerStep s =
      sendFrame (frameOpAD s.cfg.addrBytes s.cfg.opc.pp s.pcur.toNat data) (devProgram s.pcur.toNat data s)
        (afterProgram data.length) s := by
  simp [controllerStep, State.phaseOp, hp, hb, nextChunk,
    commandStep_pageProgram h (nextChunk_wellFormed h hc.1 hc.2 (bufRead_length hb).1)]

theorem controllerStep_progCmd_short {s : State} (hp : s.phase = .progCmd)
    (hb : s.bufRead s.pcur.toNat (nextChunkLen s.cfg.pageSize s.pcur.toNat s.pend.toNat) = none) :
    controllerStep s = .refused .hostBufferTooShort := by
  simp [controllerStep, State.phaseOp, hp, hb]

/-- An accept step that goes on: nothing on the port, or the head of the port runs. -/
theorem acceptStep_next {s t : State} (h : acceptStep s = .next t) :
    (s.host = [] ∧ t = s) ∨
    ∃ r rest, s.host = r :: rest ∧ (s.launched = true ∨ s.devState = .idle) ∧
      exec (decodeRequest r.word) (takeRequest r rest s) = .next t := by
  unfold acceptStep at h
  split at h
  · next hh => exact .inl ⟨hh, by simpa using h.symm⟩
  · next r rest hh =>
    split at h
    · simp at h
    · next hl =>
      refine .inr ⟨r, rest, hh, ?_, h⟩
      cases hb : s.launched <;> simp_all

/-- In `IDLE` every request is accepted; the four accept steps. -/
theorem exec_request_idle {s : State} (hp : s.phase = .idle) (a l : U32) :
    exec (.writeStream a l) s = .next (acceptWrite a l (latchRequest 1 a l s)) ∧
    exec (.readId a l) s = .next (if s.idValid then respond s.idCode (latchRequest 2 a l s)
      else startQuery .idCmd (latchRequest 2 a l s)) ∧
    exec (.readUniqueId a l) s = .next (if s.uidValid then respond 0 (latchRequest 3 a l s)
      else startQuery .uidCmd (latchRequest 3 a l s)) ∧
    exec (.reservedOp0 a l) s = .next (raise (.unsupportedOperation 0) (latchRequest 0 a l s)) := by
  simp [exec, execWriteStream, execReadId, execReadUniqueId, execReservedOp0, whenIdle, hp]

/-- A request word is one of the four requests. -/
theorem decodeRequest_cases (w : BitVec 66) : ∃ a l, decodeRequest w = .writeStream a l ∨
    decodeRequest w = .readId a l ∨ decodeRequest w = .readUniqueId a l ∨ decodeRequest w = .reservedOp0 a l := by
  refine ⟨requestAddr w, requestLen w, ?_⟩
  unfold decodeRequest
  split
  · simp
  · split
    · simp
    · split <;> simp

end Sys2Proof.Machine
end

