-- ==== Sys2Proof/Tests/Slice0.lean ====
section
/-! SUPPORT. Tests: an ill-formed instruction or call for each check of WellFormed.lean; words written out from the spec's encodings
and worked vectors (spec/30_encoding.md R114, spec/95_test_vectors.md); single steps with the results that
spec/95_test_vectors.md gives; and, for each statement with hypotheses, a witness that meets them. -/

namespace Sys2Proof.Tests
open Sys2Proof Sys2Proof.Machine

/-! ## Helpers -/

/-- CFG0 with 4 address bytes (spec/95_test_vectors.md section 2 row 16). -/
def cfg4 : Cfg := { Cfg.cfg0 with addrBytes := 4, capacity := 0x2000000 }

/-- The controller's turn; the frame is delivered. -/
def ctl : EnvInput := ⟨.controller, .ok, 0⟩

/-- The device's turn. -/
def dev : EnvInput := ⟨.device, .ok, 0⟩

/-- The reset event. -/
def rst : EnvInput := ⟨.reset, .ok, 0⟩

/-- The controller's turn; the frame fails with the error value 7, received or not. -/
def bad (received : Bool) : EnvInput := ⟨.controller, .fail ⟨7⟩ received, 0⟩

/-- The next state, where there is one. -/
def nextOf (o : Host.Outcome State Fault Refusal) (s : State) : State :=
  match o with
  | .next t => t
  | .fault _ => s
  | .refused _ => s

/-- There is a next state. -/
def isNext (o : Host.Outcome State Fault Refusal) : Bool :=
  match o with
  | .next _ => true
  | .fault _ => false
  | .refused _ => false

/-- The state after a step. -/
def after (s : State) : State := nextOf (step s) s

theorem step_after {s : State} (h : isNext (step s) = true) : step s = .next (after s) := by
  unfold after
  cases hs : step s <;> simp_all [isNext, nextOf]

/-- Idle, after a first request, with CFG0 and the device constants of spec/95_test_vectors.md; the controller's turn. -/
def base : State := { State.reset with launched := true, inputs := [ctl] }

/-- A request presented in `IDLE`. -/
def asking (op : BitVec 2) (a l : U32) (data : List Byte) : State := { base with host := [⟨requestWord op a l, data⟩] }

/-- In phase `p` of WRITE_STREAM 0xFF, 2, [A5 5A]: one sector, two chunks; nothing erased yet. -/
def writing (p : Phase) : State := { base with
  reqOp := 1, reqAddr := 0xFF, reqLen := 2, buf := [0xA5, 0x5A], phase := p
  ecur := 0, eend := 0x1000, pcur := 0xFF, pend := 0x101 }

/-- Its sector is erased. -/
def erased (p : Phase) : State := { writing p with ecur := 0x1000 }

/-- Its erase command comes next. -/
def erasing : State := { writing .eraseCmd with devState := .writeEnabled }

/-- Its sector is being erased. -/
def polling : State := { erased .erasePoll with maybeBusy := true, devState := .erasing 0 4096 }

/-- Its first program command comes next. -/
def programming : State := { erased .progCmd with devState := .writeEnabled }

/-- Its last chunk is being programmed. -/
def finishing : State := { erased .progPoll with
  pcur := 0x101, maybeBusy := true, devState := .programming 0x100 [0x5A] [some 0xFF] }

/-- In phase `p` of an identification request. -/
def querying (op : BitVec 2) (p : Phase) : State := { base with reqOp := op, phase := p }

/-! The invariant, as a check that `decide` can run. -/

/-- `DevState.legal`, as a check. -/
def legalOperation (c : Cfg) : DevState → Bool
  | .idle => true
  | .writeEnabled => true
  | .erasing a size => decide ((size = sectorSize ∨ size = blockSize) ∧ a % size = 0 ∧ a + size ≤ c.capacity)
  | .programming a data old => decide (1 ≤ data.length ∧ data.length ≤ c.pageSize ∧
      a % c.pageSize + data.length ≤ c.pageSize ∧ a + data.length ≤ c.capacity ∧ old.length = data.length)

/-- R42, clause by clause. -/
def checksController (s : State) : Bool :=
  decide (s.cs = false) &&
  decide (s.phase.inErase = true → s.ecur.toNat ≤ s.eend.toNat ∧ s.ecur.toNat % 4096 = 0 ∧
    s.eend.toNat % 4096 = 0 ∧ s.eend.toNat ≤ s.cfg.capacity) &&
  decide (s.phase = .eraseWren ∨ s.phase = .eraseCmd → s.ecur.toNat < s.eend.toNat) &&
  decide (s.phase.inProgram = true → s.reqAddr.toNat ≤ s.pcur.toNat ∧ s.pcur.toNat ≤ s.pend.toNat ∧
    s.pend.toNat = s.reqAddr.toNat + s.reqLen.toNat ∧ s.pend.toNat ≤ s.cfg.capacity ∧ s.ecur = s.eend) &&
  decide (s.phase = .progWren ∨ s.phase = .progCmd → s.pcur.toNat < s.pend.toNat) &&
  decide (s.phase.inCommand = true → s.maybeBusy = false) && decide (s.pollCnt < s.cfg.pollMax) &&
  decide (s.idValid = true → s.idRaw = s.devId) && decide (s.uidValid = true → s.uid = s.devUid)

/-- The cursors of a write. -/
def checksCursors (s : State) : Bool :=
  decide (0 < s.reqLen.toNat ∧ s.reqAddr.toNat + s.reqLen.toNat ≤ s.cfg.capacity ∧
    s.pend.toNat = s.reqAddr.toNat + s.reqLen.toNat ∧
    s.eend.toNat = ceilTo sectorSize (s.reqAddr.toNat + s.reqLen.toNat)) &&
  decide (s.roundedStart ≤ s.ecur.toNat ∧ s.ecur.toNat ≤ s.eend.toNat ∧ s.ecur.toNat % 4096 = 0 ∧
    s.reqAddr.toNat ≤ s.pcur.toNat ∧ s.pcur.toNat ≤ s.pend.toNat)

/-- What the rest of the invariant says. -/
def checksRest (s : State) : Bool :=
  s.configOk && decide (s.idRaw.length = s.cfg.idLen) && decide (s.uid.length = s.cfg.uidLen) &&
  decide (s.idValid = true → s.idCode = idCodeOf s.idRaw) && decide s.flash.wf &&
  decide (∀ c ∈ s.flash, c.1 < s.cfg.capacity) && legalOperation s.cfg s.devState &&
  decide (s.launched = false → s.phase = .idle ∧ s.maybeBusy = false) &&
  decide (s.launched = true → s.maybeBusy = false → s.devState.busy = false) &&
  decide (s.phase = .eraseCmd ∨ s.phase = .progCmd → s.devState = .writeEnabled) &&
  decide (s.phase = .erasePoll ∨ s.phase = .progPoll → s.devState ≠ .writeEnabled) &&
  decide (s.phase.inErase = true ∨ s.phase.inProgram = true → s.reqOp = 1) &&
  decide (s.phase = .idCmd → s.reqOp = 2) && decide (s.phase = .uidCmd → s.reqOp = 3) &&
  decide (s.phase = .prePoll → s.reqOp ≠ 0) &&
  decide (s.phase ≠ .idle → s.reqOp = 1 → checksCursors s = true) &&
  decide (s.phase = .prePoll → s.reqOp = 1 → s.ecur.toNat = s.roundedStart) &&
  decide (s.phase = .prePoll ∨ s.phase.inErase = true → s.reqOp = 1 → s.pcur.toNat = s.reqAddr.toNat)

/-- The checks answer true only of states that meet the invariant. -/
theorem invariant_of {s : State} (h : (checksController s && checksRest s) = true) : Invariant s := by
  simp only [checksController, checksRest, Bool.and_eq_true, decide_eq_true_eq, and_assoc] at h
  obtain ⟨a1, a2, a3, a4, a5, a6, a7, a8, a9, b1, b2, b3, b4, b5, b6, b7, b8, b9, b10, b11, c1, c2, c3, c4, c5, c6, c7⟩ := h
  refine ⟨⟨a1, a2, a3, a4, a5, a6, a7, a8, a9⟩, b1, b2, b3, b4, b5, b6, ?_, b8, b9, b10, b11, c1, c2, c3, c4,
    fun h1 h2 => ?_, c6, c7⟩
  · revert b7; cases s.devState <;> simp [legalOperation, DevState.legal]
  · have d := c5 h1 h2
    simp only [checksCursors, Bool.and_eq_true, decide_eq_true_eq, and_assoc] at d
    obtain ⟨d1, d2, d3, d4, d5, d6, d7, d8, d9⟩ := d
    exact ⟨d1, d2, d3, d4, d5, d6, d7, d8, d9⟩


theorem base_inv : Invariant base := invariant_of (by decide)
theorem asking_inv : Invariant (asking 1 0xFF 2 [0xA5, 0x5A]) := invariant_of (by decide)
theorem eraseWren_inv : Invariant (writing .eraseWren) := invariant_of (by decide)
theorem prePoll_inv : Invariant { writing .prePoll with maybeBusy := true, devState := .erasing 0 4096 } :=
  invariant_of (by decide)
theorem erasing_inv : Invariant erasing := invariant_of (by decide)
theorem polling_inv : Invariant polling := invariant_of (by decide)
theorem progWren_inv : Invariant (erased .progWren) := invariant_of (by decide)
theorem programming_inv : Invariant programming := invariant_of (by decide)
theorem finishing_inv : Invariant finishing := invariant_of (by decide)
theorem idCmd_inv : Invariant (querying 2 .idCmd) := invariant_of (by decide)
theorem uidCmd_inv : Invariant (querying 3 .uidCmd) := invariant_of (by decide)

/-! ## WellFormed: a term for each check, which the check refuses -/

theorem test_wf_addressWidth : (Instr.se4 0x1000).illFormed? Cfg.cfg0 = some .addressWidth := by decide
theorem test_wf_eraseMisaligned : (Instr.be3 0x001000).illFormed? Cfg.cfg0 = some .eraseMisaligned := by decide
theorem test_wf_eraseBeyondCapacity : (Instr.se4 0x02000000).illFormed? cfg4 = some .eraseBeyondCapacity := by decide
theorem test_wf_payloadEmpty : (Instr.pp3 0 []).illFormed? Cfg.cfg0 = some .payloadEmpty := by decide
theorem test_wf_payloadTooLong :
    (Instr.pp3 0 (List.replicate 257 0)).illFormed? Cfg.cfg0 = some .payloadTooLong := by decide +kernel
theorem test_wf_payloadCrossesPage : (Instr.pp3 0xFF [1, 2]).illFormed? Cfg.cfg0 = some .payloadCrossesPage := by
  decide
theorem test_wf_programBeyondCapacity :
    (Instr.pp4 0x02000000 [1]).illFormed? cfg4 = some .programBeyondCapacity := by decide
theorem test_wf_accepts :
    (Instr.pp3 0xFFFFFF [0x5A]).wf Cfg.cfg0 = true ∧ (Instr.se3 0xFFF000).wf Cfg.cfg0 = true ∧
    (Instr.be4 0x01FF0000).wf cfg4 = true ∧ Instr.ruid.wf Cfg.cfg0 = true := by decide

/-! Calls of the encoder (R134 to R136, R140): the addresses that 3 bytes cannot carry, a check each, the edges accepted. -/

theorem test_call_addressTooLarge :
    (LogicalOp.erase 4096 0x1000000).illFormed? Cfg.cfg0 = some .addressTooLarge ∧
    (LogicalOp.pageProgram 0x1000000 [1]).illFormed? Cfg.cfg0 = some .addressTooLarge ∧
    (LogicalOp.erase 4096 0x1000000).illFormed? cfg4 = none := by decide
theorem test_call_illFormed :
    (LogicalOp.erase 65536 0x001000).illFormed? Cfg.cfg0 = some .eraseMisaligned ∧
    (LogicalOp.erase 65536 0x02000000).illFormed? cfg4 = some .eraseBeyondCapacity ∧
    (LogicalOp.pageProgram 0 []).illFormed? Cfg.cfg0 = some .payloadEmpty ∧
    (LogicalOp.pageProgram 0xFF [1, 2]).illFormed? Cfg.cfg0 = some .payloadCrossesPage := by decide
theorem test_call_accepts :
    (LogicalOp.erase 4096 0xFFF000).illFormed? Cfg.cfg0 = none ∧ (LogicalOp.erase 32768 0).illFormed? Cfg.cfg0 = none ∧
    (LogicalOp.pageProgram 0xFFFFFF [1]).illFormed? Cfg.cfg0 = none := by decide
/-- U7: the call is refused, in a state in which the device would take an erase of address 0. -/
theorem test_call_refused :
    commandStep (.erase 4096 0x1000000) erasing = .refused (.encoderPrecondition .addressTooLarge) ∧
    isNext (commandStep (.erase 4096 0) erasing) = true := ⟨rfl, by decide⟩

/-! ## Decoding: bytes and words written out from R105, R110, R114, R115 and spec/95_test_vectors.md section 2 -/

theorem test_decode_opcode_only :
    decodeFrame Cfg.cfg0 ⟨[0b00000110], [], 0⟩ = .ok .wren ∧ decodeFrame Cfg.cfg0 ⟨[0b00000101], [], 1⟩ = .ok .rdsr ∧
    decodeFrame Cfg.cfg0 ⟨[0b10011111], [], 3⟩ = .ok .rdid := ⟨rfl, rfl, rfl⟩
theorem test_decode_pp3 :
    decodeFrame Cfg.cfg0 ⟨[0b00000010, 0x12, 0x34, 0x56], [0xAA, 0xBB], 0⟩ = .ok (.pp3 0x123456 [0xAA, 0xBB]) := rfl
theorem test_decode_se3 : decodeFrame Cfg.cfg0 ⟨[0b00100000, 0xFF, 0xF0, 0x00], [], 0⟩ = .ok (.se3 0xFFF000) := rfl
theorem test_decode_be3 : decodeFrame Cfg.cfg0 ⟨[0b11011000, 0x7F, 0x00, 0x00], [], 0⟩ = .ok (.be3 0x7F0000) := rfl
theorem test_decode_pp4 :
    decodeFrame cfg4 ⟨[0b00000010, 0x01, 0x00, 0x00, 0x00], [0x01], 0⟩ = .ok (.pp4 0x01000000 [0x01]) := rfl
theorem test_decode_se4 : decodeFrame cfg4 ⟨[0b00100000, 0x01, 0xFF, 0xF0, 0x00], [], 0⟩ = .ok (.se4 0x01FFF000) := rfl
theorem test_decode_be4 : decodeFrame cfg4 ⟨[0b11011000, 0x01, 0xFF, 0x00, 0x00], [], 0⟩ = .ok (.be4 0x01FF0000) := rfl
theorem test_decode_ruid :
    decodeFrame Cfg.cfg0 ⟨[0b01001011, 0, 0, 0, 0], [], 8⟩ = .ok .ruid ∧
    decodeFrame { Cfg.cfg0 with uidDummy := 0, uidLen := 16 } ⟨[0x4B], [], 16⟩ = .ok .ruid := ⟨rfl, rfl⟩
theorem test_decode_requests :
    decodeRequest 0x1000000F000000020 = .writeStream 0xF0 0x20 ∧ decodeRequest 0x20000000000000000 = .readId 0 0 ∧
    decodeRequest 0x3FFFFFFFF00000001 = .readUniqueId 0xFFFFFFFF 1 ∧
    decodeRequest 0x00000000500000006 = .reservedOp0 5 6 := by decide
theorem test_decode_rejects :
    decodeBytes Cfg.cfg0 [] = .error .emptyFrame ∧ decodeBytes Cfg.cfg0 [0x03, 0, 0, 0] = .error (.unknownOpcode 3) ∧
    decodeBytes Cfg.cfg0 [0x06, 0] = .error .wrongLength ∧ decodeBytes Cfg.cfg0 [0x20, 0, 0] = .error .wrongLength ∧
    decodeBytes cfg4 [0x20, 0, 0, 0] = .error .wrongLength ∧ decodeBytes Cfg.cfg0 [0x4B] = .error .wrongLength ∧
    decodeFrame Cfg.cfg0 ⟨[0x9F], [], 2⟩ = .error .wrongReadLength := ⟨rfl, rfl, rfl, rfl, rfl, rfl, rfl⟩
/-- The host's numbering: the first byte in bits 7..0; operand bytes the table gives no bits are zeros. -/
theorem test_decodeTableWord :
    decodeTableWord 8 0x06 = some .wren ∧ decodeTableWord 8 0x05 = some .rdsr ∧ decodeTableWord 8 0x9F = some .rdid ∧
    decodeTableWord 32 0xF0000002 = some (.pp3 0xF0 [0]) ∧ decodeTableWord 32 0x00200120 = some (.se3 0x012000) ∧
    decodeTableWord 32 0x00007FD8 = some (.be3 0x7F0000) ∧ decodeTableWord 40 0x0000000102 = some (.pp4 0x01000000 [0]) ∧
    decodeTableWord 40 0x0020010020 = some (.se4 0x012000) ∧ decodeTableWord 40 0x0000FF01D8 = some (.be4 0x01FF0000) ∧
    decodeTableWord 40 0x4B = some .ruid ∧ decodeTableWord 66 0x1000000F000000020 = some (.writeStream 0xF0 0x20) ∧
    decodeTableWord 66 0x20000000000000000 = some (.readId 0 0) ∧
    decodeTableWord 66 0x30000000000000000 = some (.readUniqueId 0 0) ∧ decodeTableWord 66 0 = some (.reservedOp0 0 0) ∧
    decodeTableWord 8 0x03 = none := by decide
/-- Each row's word, placed after reset, runs in the very next step. -/
theorem test_withFetchWord_runs :
    ([(8, 0x06), (8, 0x05), (8, 0x9F), (32, 0xF0000002), (32, 0x00200120), (32, 0x00007FD8), (40, 0x0000000102),
      (40, 0x0020010020), (40, 0x0000FF00D8), (40, 0x4B), (66, 0x1000000F000000020), (66, 0x20000000000000000),
      (66, 0x30000000000000000), (66, 0)] : List (Nat × Nat)).all
      (fun r => isNext (step (State.reset.withFetchWord r.1 r.2))) = true := by decide +kernel

/-! ## The Command Encoder, the planner and the pages: spec/95_test_vectors.md sections 2 to 4 -/

theorem test_encodeOp :
    encodeOp Cfg.cfg0 (.pageProgram 0xFFFFFF [0x5A]) = .ok ⟨[0x02, 0xFF, 0xFF, 0xFF], [0x5A], 0⟩ ∧
    encodeOp Cfg.cfg0 (.erase 4096 0xFFF000) = .ok ⟨[0x20, 0xFF, 0xF0, 0x00], [], 0⟩ ∧
    encodeOp Cfg.cfg0 (.erase 65536 0xFF0000) = .ok ⟨[0xD8, 0xFF, 0x00, 0x00], [], 0⟩ ∧
    encodeOp Cfg.cfg0 (.erase 32768 0) = .error 32768 ∧ encodeOp Cfg.cfg0 (.erase 0 0) = .error 0 ∧
    encodeOp { Cfg.cfg0 with uidDummy := 0, uidLen := 16 } .readUniqueId = .ok ⟨[0x4B], [], 16⟩ ∧
    encodeOp cfg4 (.erase 4096 0x01FFF000) = .ok ⟨[0x20, 0x01, 0xFF, 0xF0, 0x00], [], 0⟩ ∧
    encodeOp cfg4 (.pageProgram 0x01000000 [1]) = .ok ⟨[0x02, 0x01, 0x00, 0x00, 0x00], [1], 0⟩ :=
  ⟨rfl, rfl, rfl, rfl, rfl, rfl, rfl, rfl⟩
/-- Section 3 rows 5, 8, 10, 11, 14, 15. -/
theorem test_plan :
    plan Cfg.cfg0 0xF0 0x20 = some [(0, 4096)] ∧ plan Cfg.cfg0 0x64 0xFF9C = some [(0, 65536)] ∧
    plan Cfg.cfg0 0xF000 0x11000 = some [(0xF000, 4096), (0x10000, 65536)] ∧
    plan Cfg.cfg0 0xFFFF 2 = some [(0xF000, 4096), (0x10000, 4096)] ∧
    plan Cfg.cfg0 0xFF0000 0x10000 = some [(0xFF0000, 65536)] ∧
    plan Cfg.cfg0 0xFFFFFF 1 = some [(0xFFF000, 4096)] := by decide
/-- Section 3 rows 17, 20 to 25. -/
theorem test_plan_edges :
    (plan Cfg.cfg0 0x7FFF 0x18002).map List.length = some 11 ∧ plan Cfg.cfg0 0x5000 0 = some [] ∧
    plan Cfg.cfg0 0x1000000 0 = some [] ∧ plan Cfg.cfg0 0xFFFFF6 0x14 = none ∧ plan Cfg.cfg0 0x1000000 1 = none ∧
    plan Cfg.cfg0 0xFFFFFFFF 0xFFFFFFFF = none ∧
    plan { cfg4 with capacity := 2 ^ 32 } 0xFFFFFFFF 1 = some [(0xFFFFF000, 4096)] := by decide
/-- Section 4 rows 3, 4, 6, 8, 10, 11. -/
theorem test_pages :
    pages Cfg.cfg0 0xFF 2 = [(0xFF, 1), (0x100, 1)] ∧ pages Cfg.cfg0 0xF0 0x20 = [(0xF0, 16), (0x100, 16)] ∧
    pages Cfg.cfg0 0x1FE 0x204 = [(0x1FE, 2), (0x200, 256), (0x300, 256), (0x400, 2)] ∧
    pages Cfg.cfg0 0xFFFFF6 0xA = [(0xFFFFF6, 10)] ∧ pages Cfg.cfg0 0 0 = [] ∧
    pages { Cfg.cfg0 with pageSize := 1 } 0x10 3 = [(0x10, 1), (0x11, 1), (0x12, 1)] := by decide +kernel

/-! ## Single steps: spec/95_test_vectors.md sections 5 to 8 -/

/-- P1's accept step. -/
theorem test_writeStream_accept :
    let t := after (asking 1 0xF0 0x20 (List.replicate 32 0))
    t.ecur = 0 ∧ t.eend = 0x1000 ∧ t.pcur = 0xF0 ∧ t.pend = 0x110 ∧ t.phase = .eraseWren ∧ t.bus = [] := by decide
/-- Section 6 rows 2 to 4: the bound is checked before the pre-poll, and so is the empty request. -/
theorem test_writeStream_ends :
    let t := after { asking 1 0xFFFFF6 0x14 [] with maybeBusy := true }
    let u := after { asking 1 0 0 [] with maybeBusy := true }
    t.rspStatus = 1 ∧ t.rspValue = 0 ∧ t.rspValid = true ∧ t.phase = .idle ∧ t.bus = [] ∧
    u.rspStatus = 0 ∧ u.rspValue = 0 ∧ u.maybeBusy = true ∧ u.phase = .idle ∧ u.bus = [] := by decide
/-- Section 6 row 1. -/
theorem test_reservedOp0 :
    let t := after (asking 0 5 6 [])
    t.rspStatus = 4 ∧ t.rspValue = 0 ∧ t.rspValid = true ∧ t.phase = .idle ∧ t.bus = [] := by decide
/-- Section 7 rows 2 and 9: a cached code is answered without a frame. -/
theorem test_readId_cached :
    let t := after { asking 2 0 0 [] with idValid := true, idCode := 0x00EF4018, maybeBusy := true }
    t.rspStatus = 0 ∧ t.rspValue = 0x00EF4018 ∧ t.maybeBusy = true ∧ t.phase = .idle ∧ t.bus = [] := by decide
/-- Section 7 row 8: a query that needs a command polls first when the device may be busy. -/
theorem test_readId_prePoll : (after { asking 2 0 0 [] with maybeBusy := true }).phase = .prePoll := by decide
/-- Section 7 row 5. -/
theorem test_readUniqueId_cached :
    let t := after { asking 3 0 0 [] with uidValid := true, uid := [1, 2, 3, 4, 5, 6, 7, 8] }
    t.rspStatus = 0 ∧ t.rspValue = 0 ∧ t.uid = [1, 2, 3, 4, 5, 6, 7, 8] ∧ t.phase = .idle ∧ t.bus = [] := by decide
/-- P1 step 1. -/
theorem test_wren :
    let t := after (writing .eraseWren)
    t.phase = .eraseCmd ∧ t.devState = .writeEnabled ∧
    t.bus = [.chipSelect false, .transact ⟨[0x06], [], 0⟩ (.ok []), .chipSelect true] := by decide
/-- Section 6 row 5. -/
theorem test_wren_fails :
    let t := after { writing .eraseWren with inputs := [bad false] }
    t.rspStatus = 3 ∧ t.rspInfo = ⟨7⟩ ∧ t.maybeBusy = false ∧ t.phase = .idle ∧ t.devState = .idle := by decide
/-- P1 step 2. -/
theorem test_se3 :
    let t := after { erasing with flash := [(0xFFF, 0), (0x1000, 0)] }
    t.phase = .erasePoll ∧ t.ecur = 0x1000 ∧ t.maybeBusy = true ∧ t.devState = .erasing 0 4096 ∧
    t.flash = [(0x1000, 0)] ∧ t.bus.head? = some (.chipSelect false) ∧
    t.bus[1]? = some (.transact ⟨[0x20, 0x00, 0x00, 0x00], [], 0⟩ (.ok [])) := by decide
/-- Section 6 row 6. -/
theorem test_se3_fails :
    let t := after { erasing with inputs := [bad false] }
    t.rspStatus = 3 ∧ t.rspInfo = ⟨7⟩ ∧ t.maybeBusy = true ∧ t.phase = .idle ∧ t.devState = .writeEnabled := by decide
/-- P2's block erase. -/
theorem test_be3 :
    let t := after { erasing with ecur := 0x10000, eend := 0x20000 }
    t.ecur = 0x20000 ∧ t.devState = .erasing 0x10000 65536 ∧
    t.bus[1]? = some (.transact ⟨[0xD8, 0x01, 0x00, 0x00], [], 0⟩ (.ok [])) := by decide
/-- Section 2 rows 16 and 19, as steps. -/
theorem test_se4 :
    let t := after { erasing with cfg := cfg4, ecur := 0x01FFF000, eend := 0x02000000 }
    t.devState = .erasing 0x01FFF000 4096 ∧
    t.bus[1]? = some (.transact ⟨[0x20, 0x01, 0xFF, 0xF0, 0x00], [], 0⟩ (.ok [])) := by decide
theorem test_be4 :
    let t := after { erasing with cfg := cfg4, ecur := 0x01FF0000, eend := 0x02000000 }
    t.devState = .erasing 0x01FF0000 65536 ∧
    t.bus[1]? = some (.transact ⟨[0xD8, 0x01, 0xFF, 0x00, 0x00], [], 0⟩ (.ok [])) := by decide
/-- P1 step 7 in small: the chunk stops at the page boundary. -/
theorem test_pp3 :
    let t := after { programming with flash := [(0xFE, 1), (0xFF, 0xF0)] }
    t.phase = .progPoll ∧ t.pcur = 0x100 ∧ t.maybeBusy = true ∧ t.flash = [(0xFE, 1)] ∧
    t.devState = .programming 0xFF [0xA5] [some 0xF0] ∧
    t.bus[1]? = some (.transact ⟨[0x02, 0x00, 0x00, 0xFF], [0xA5], 0⟩ (.ok [])) := by decide
/-- P5 run A: the frame fails, but the device received it. -/
theorem test_pp3_fails_received :
    let t := after { programming with inputs := [bad true] }
    t.rspStatus = 3 ∧ t.rspInfo = ⟨7⟩ ∧ t.maybeBusy = true ∧ t.phase = .idle ∧ t.devState.busy = true := by decide
theorem test_pp4 :
    let t := after { programming with cfg := cfg4, reqAddr := 0x01000000, pcur := 0x01000000, pend := 0x01000002 }
    t.devState = .programming 0x01000000 [0xA5, 0x5A] [none, none] ∧
    t.bus[1]? = some (.transact ⟨[0x02, 0x01, 0x00, 0x00, 0x00], [0xA5, 0x5A], 0⟩ (.ok [])) := by decide
/-- P1 steps 3 and 5: 03 while erasing, 00 after. -/
theorem test_rdsr :
    let t := after polling
    let u := after { polling with devState := .idle, pollCnt := 2 }
    t.phase = .erasePoll ∧ t.pollCnt = 1 ∧ t.bus[1]? = some (.transact ⟨[0x05], [], 1⟩ (.ok [0x03])) ∧
    u.phase = .progWren ∧ u.pollCnt = 0 ∧ u.maybeBusy = false ∧
    u.bus[1]? = some (.transact ⟨[0x05], [], 1⟩ (.ok [0x00])) := by decide
/-- Section 5 row 3: DeviceTimeout on the fourth read. -/
theorem test_rdsr_timeout :
    let t := after { polling with pollCnt := 3 }
    t.rspStatus = 2 ∧ t.rspValue = 0 ∧ t.rspValid = true ∧ t.maybeBusy = true ∧ t.phase = .idle := by decide
/-- Section 5 rows 4, 5, 6, 8 and 11: only the bits of BUSY_MASK count; a failed read at the bound is a TransportError. -/
theorem test_poll_bytes :
    (pollByte 0x02 polling).phase = .progWren ∧ (pollByte 0xFE polling).phase = .progWren ∧
    (pollByte 0xFF polling).pollCnt = 1 ∧ (afterStatus (.err ⟨7⟩) { polling with pollCnt := 3 }).rspStatus = 3 ∧
    (pollByte 0x80 { polling with cfg := { Cfg.cfg0 with busyMask := 0x81 } }).pollCnt = 1 := by decide
/-- Section 7 rows 1 and 6. -/
theorem test_rdid :
    let t := after (querying 2 .idCmd)
    let u := after { querying 2 .idCmd with cfg := { Cfg.cfg0 with idLen := 4 }, devId := [1, 2, 3, 4] }
    t.rspValue = 0x00EF4018 ∧ t.idRaw = [0xEF, 0x40, 0x18] ∧ t.idCode = 0x00EF4018 ∧ t.idValid = true ∧
    t.phase = .idle ∧ u.rspValue = 0x01020304 := by decide
/-- Section 7 row 3. -/
theorem test_rdid_fails :
    let t := after { querying 2 .idCmd with inputs := [bad true] }
    t.rspStatus = 3 ∧ t.rspInfo = ⟨7⟩ ∧ t.idValid = false ∧ t.phase = .idle := by decide
/-- Section 7 row 4. -/
theorem test_ruid :
    let t := after (querying 3 .uidCmd)
    t.rspStatus = 0 ∧ t.rspValue = 0 ∧ t.uid = [0xD1, 0x64, 0x38, 0x5B, 0x23, 0x12, 0x34, 0x56] ∧ t.uidValid = true ∧
    t.bus[1]? = some (.transact ⟨[0x4B, 0, 0, 0, 0], [], 8⟩ (.ok t.uid)) := by decide
/-- R72, R73, on one byte and one small unit: the program law is bitwise AND. -/
theorem test_device_completes :
    let t := after { finishing with inputs := [dev], devState := .programming 0x100 [0x5A] [some 0xF0] }
    let u := after { finishing with inputs := [dev], devState := .programming 0x100 [0x5A] [none] }
    t.flash = [(0x100, 0x50)] ∧ t.devState = .idle ∧ t.phase = .progPoll ∧ u.flash = [] := by decide
/-- R280: reset in the middle of an erase. -/
theorem test_reset :
    let t := after { polling with inputs := [rst], idValid := true }
    t.phase = .idle ∧ t.maybeBusy = false ∧ t.idValid = false ∧ t.launched = false ∧ t.devState = .erasing 0 4096 := by
  decide

/-! ## Witnesses: states and operands that meet the hypotheses of the statements -/

theorem witness_DecodeEncodeRoundTrip :
    Cfg.cfg0.Legal ∧ (Instr.be3 0xFF0000).wf Cfg.cfg0 = true ∧ (Instr.pp3 0xFFFFFF [0x5A]).wf Cfg.cfg0 = true ∧
    cfg4.Legal ∧ (Instr.se4 0x01FFF000).wf cfg4 = true := by decide
/-- The dummy bytes' values are free. -/
theorem witness_DecodedFrameReencodes :
    Cfg.cfg0.Legal ∧ decodeFrame Cfg.cfg0 ⟨[0x4B, 1, 2, 3, 4], [], 8⟩ = .ok .ruid ∧
    decodeFrame Cfg.cfg0 ⟨[0x02, 0xFF, 0xFF], [0xFF, 0x5A], 0⟩ = .ok (.pp3 0xFFFFFF [0x5A]) := ⟨by decide, rfl, rfl⟩
theorem witness_SevenOpcodesOnly :
    (0x03 : Byte) ∉ Cfg.cfg0.opc.toList ∧ decodeBytes Cfg.cfg0 [0x9F] = .ok .rdid := ⟨by decide, rfl⟩
theorem witness_EncoderTable : Cfg.cfg0.Legal ∧ cfg4.Legal ∧ 4095 ≠ 4096 ∧ 4095 ≠ 65536 := by decide
/-- Each branch of the last clause: a call refused, the encoder's error, a call sent; and the edges of the first two. -/
theorem witness_EncoderCallsRefused :
    erasing.cfg.Legal ∧ (0xFFF000 % 4096 = 0 ∧ 0xFFF000 + 4096 ≤ erasing.cfg.capacity) ∧
    ¬ (0xFFF001 % 4096 = 0 ∧ 0xFFF001 + 4096 ≤ erasing.cfg.capacity) ∧
    (0xFF % erasing.cfg.pageSize + [(0xA5 : Byte)].length ≤ erasing.cfg.pageSize) ∧
    encodeOp erasing.cfg (.erase 4095 0) = .error 4095 ∧ (LogicalOp.erase 4096 0xFFF000).illFormed? erasing.cfg = none ∧
    (LogicalOp.erase 4096 0x1000000).illFormed? erasing.cfg = some .addressTooLarge :=
  ⟨by decide, by decide, by decide, by decide, rfl, by decide, by decide⟩

/-- Clause 1 with the first request and with a later one while the device is busy; clause 2. -/
theorem witness_StepRunsTheRequest :
    let s := asking 1 0xFFFFFF 1 [0xA5]
    s.configOk = true ∧ s.agent = .controller ∧ s.phase = .idle ∧ s.host = [⟨requestWord 1 0xFFFFFF 1, [0xA5]⟩] ∧
    { s with devState := .erasing 0 4096 }.launched = true ∧ { s with launched := false }.devState = .idle ∧
    { s with launched := false, devState := .writeEnabled }.devState ≠ .idle := by decide
/-- Clause 1 at the last sector; clause 2 one byte beyond an aligned cursor. -/
theorem witness_StepRunsTheCommand :
    (let s := { erasing with ecur := 0xFFF000, eend := 0x1000000 }
     s.configOk = true ∧ s.agent = .controller ∧ s.phaseOp = .ok (some (.erase 4096 0xFFF000)) ∧
     (LogicalOp.erase 4096 0xFFF000).illFormed? s.cfg = none ∧
     encodeOp s.cfg (.erase 4096 0xFFF000) = .ok ⟨[0x20, 0xFF, 0xF0, 0x00], [], 0⟩ ∧
     decodeFrame s.cfg ⟨[0x20, 0xFF, 0xF0, 0x00], [], 0⟩ = .ok (.se3 0xFFF000)) ∧
    (let s := { erasing with ecur := 0x001001 }
     s.configOk = true ∧ s.agent = .controller ∧ s.phaseOp = .ok (some (.erase 4096 0x001001)) ∧
     (LogicalOp.erase 4096 0x001001).illFormed? s.cfg = some .eraseMisaligned) :=
  ⟨⟨by decide, by decide, rfl, by decide, rfl, rfl⟩, ⟨by decide, by decide, rfl, by decide⟩⟩
/-- A state that meets the invariant in each of the phases. -/
theorem witness_EachPhaseRunsItsCommand :
    (∀ s ∈ [writing .eraseWren, erasing, polling, erased .progWren, programming, finishing, querying 2 .idCmd,
        querying 3 .uidCmd, { writing .prePoll with maybeBusy := true, devState := .erasing 0 4096 }],
      Invariant s ∧ s.agent = .controller ∧ s.phase ≠ .idle) ∧
    programming.phase = .progCmd ∧ programming.bufRead programming.pcur.toNat
      (nextChunkLen programming.cfg.pageSize programming.pcur.toNat programming.pend.toNat) = some [0xA5] := by
  refine ⟨?_, by decide, by decide⟩
  simp only [List.forall_mem_cons, List.not_mem_nil, false_implies, implies_true, and_true]
  exact ⟨⟨eraseWren_inv, by decide, by decide⟩, ⟨erasing_inv, by decide, by decide⟩,
    ⟨polling_inv, by decide, by decide⟩, ⟨progWren_inv, by decide, by decide⟩,
    ⟨programming_inv, by decide, by decide⟩, ⟨finishing_inv, by decide, by decide⟩,
    ⟨idCmd_inv, by decide, by decide⟩, ⟨uidCmd_inv, by decide, by decide⟩, ⟨prePoll_inv, by decide, by decide⟩⟩
theorem witness_EmptyPortWaits :
    base.configOk = true ∧ base.agent = .controller ∧ base.phase = .idle ∧ base.host = [] := by decide

/-- A sum one beyond the capacity; a sum equal to it, empty and not. -/
theorem witness_WriteStreamAccepted :
    base.phase = .idle ∧
    base.cfg.capacity < (0xFFFFFF : U32).toNat + (2 : U32).toNat ∧
    ((0x1000000 : U32).toNat + (0 : U32).toNat ≤ base.cfg.capacity ∧ (0 : U32) = 0) ∧
    ((0xFFFFFF : U32).toNat + (1 : U32).toNat ≤ base.cfg.capacity ∧ (1 : U32) ≠ 0) := by decide
theorem witness_ReadIdAccepted :
    base.phase = .idle ∧ { base with idValid := true }.idValid = true ∧ base.idValid = false := by decide
theorem witness_ReadUniqueIdAccepted :
    base.phase = .idle ∧ { base with uidValid := true }.uidValid = true ∧ base.uidValid = false := by decide
theorem witness_ReservedCodeRaises : base.phase = .idle := by decide
theorem witness_RequestHeldUntilIdle : polling.phase ≠ .idle := by decide
theorem witness_OperandsWrittenByAcceptOnly :
    step polling = .next (after polling) ∧ polling.phase ≠ .idle ∧ polling.agent ≠ .reset :=
  ⟨step_after (by decide), by decide, by decide⟩

theorem witness_WriteEnableCommand :
    ((writing .eraseWren).phase = .eraseWren ∧ (erased .progWren).phase = .progWren) ∧
    ((writing .eraseWren).input.transport = .ok ∧ (writing .eraseWren).devState.busy = false) ∧
    ({ writing .eraseWren with inputs := [bad true] }.input.transport = .fail ⟨7⟩ true ∧
      { polling with phase := .eraseWren, inputs := [bad false] }.input.transport = .fail ⟨7⟩ false) ∧
    ({ polling with phase := .eraseWren }.input.transport.received = true ∧ polling.devState.busy = true) := by decide
/-- The last sector and the last block, received and failed; an address off the sector; both addressing modes. -/
theorem witness_EraseCommands :
    (erasing.cfg.addrBytes = 3 ∧ { erasing with cfg := cfg4 }.cfg.addrBytes = 4) ∧
    erasing.input.transport = .ok ∧ { erasing with inputs := [bad true] }.input.transport = .fail ⟨7⟩ true ∧
    erasing.input.transport.received = true ∧
    erasing.takesErase 4096 (0xFFF000 : BitVec 24).toNat ∧ erasing.takesErase 65536 (0xFF0000 : BitVec 24).toNat ∧
    ¬ erasing.takesErase 4096 (0xFFFFFF : BitVec 24).toNat ∧
    { erasing with cfg := cfg4 }.takesErase 65536 (0x01FF0000 : BitVec 32).toNat ∧
    ¬ { erasing with cfg := cfg4 }.takesErase 4096 (0x02000000 : BitVec 32).toNat := by
  unfold State.takesErase; decide
/-- The last byte of the array, received and failed; a chunk across a page boundary; both addressing modes. -/
theorem witness_ProgramCommands :
    (programming.cfg.addrBytes = 3 ∧ { programming with cfg := cfg4 }.cfg.addrBytes = 4) ∧
    programming.input.transport = .ok ∧ { programming with inputs := [bad true] }.input.transport = .fail ⟨7⟩ true ∧
    programming.input.transport.received = true ∧
    programming.takesProgram (0xFFFFFF : BitVec 24).toNat ([0x5A] : List Byte).length ∧
    ¬ programming.takesProgram (0xFF : BitVec 24).toNat ([0xA5, 0x5A] : List Byte).length ∧
    { programming with cfg := cfg4 }.takesProgram (0x01FFFFFF : BitVec 32).toNat ([0x5A] : List Byte).length ∧
    ¬ { programming with cfg := cfg4 }.takesProgram (0x02000000 : BitVec 32).toNat ([0x5A] : List Byte).length := by
  unfold State.takesProgram; decide
theorem witness_StatusByteRead : polling.cfg.Legal ∧ polling.input.transport = .ok := by decide
/-- One state for each clause: units left and none, chunks left and none, the three requests behind a pre-poll, the last
allowed read and the one before it, a failed read. -/
theorem witness_PollOutcomes :
    (polling.cfg.Legal ∧ polling.phase.inPoll = true ∧ polling.input.transport = .ok) ∧
    (polling.phase = .erasePoll ∧ polling.ecur.toNat = polling.eend.toNat ∧ polling.devState.busy = true ∧
      { polling with devState := .idle }.devState.busy = false ∧
      { polling with eend := 0x2000 }.ecur.toNat < { polling with eend := 0x2000 }.eend.toNat) ∧
    (finishing.phase = .progPoll ∧ ¬ finishing.pcur.toNat < finishing.pend.toNat ∧
      { finishing with pcur := 0x100 }.pcur.toNat < finishing.pend.toNat) ∧
    (∀ op ∈ [1, 2, 3], (querying op .prePoll).phase = .prePoll ∧ (querying op .prePoll).reqOp ≠ 0) ∧
    ({ polling with pollCnt := 3 }.pollCnt + 1 = polling.cfg.pollMax ∧
      { polling with pollCnt := 2 }.pollCnt + 1 ≠ polling.cfg.pollMax) ∧
    { polling with inputs := [bad false] }.input.transport = .fail ⟨7⟩ false := by decide
theorem witness_PollStep :
    (0xFE : Byte) &&& polling.cfg.busyMask = 0 ∧ (0x01 : Byte) &&& polling.cfg.busyMask ≠ 0 ∧
    { polling with pollCnt := 3 }.pollCnt + 1 = polling.cfg.pollMax ∧ polling.pollCnt + 1 ≠ polling.cfg.pollMax := by
  decide
theorem witness_ReadIdCommand :
    let s := querying 2 .idCmd
    (s.configOk = true ∧ s.phase = .idCmd) ∧ (s.input.transport = .ok ∧ s.devState.busy = false) ∧
    { s with inputs := [bad true] }.input.transport = .fail ⟨7⟩ true ∧
    (s.input.transport.received = true ∧ { s with devState := .erasing 0 4096 }.devState.busy = true) := by decide
theorem witness_ReadUniqueIdCommand :
    let s := querying 3 .uidCmd
    s.phase = .uidCmd ∧ (s.input.transport = .ok ∧ s.devState.busy = false) ∧
    { s with inputs := [bad true] }.input.transport = .fail ⟨7⟩ true ∧
    (s.input.transport.received = true ∧ { s with devState := .erasing 0 4096 }.devState.busy = true) := by decide
theorem witness_CommandsOutsideTheirPhases :
    (base.phase ≠ .eraseWren ∧ base.phase ≠ .progWren) ∧ (base.input.transport = .ok ∧ base.devState.busy = false) ∧
    { base with inputs := [bad true] }.input.transport = .fail ⟨7⟩ true ∧
    (base.phase.inPoll = false ∧ base.cfg.Legal ∧ (querying 0 .prePoll).phase = .prePoll ∧
      (querying 0 .prePoll).reqOp = 0) ∧
    ({ base with devState := .erasing 0 4096, pollCnt := 3 }.devState.busy = true ∧ 3 + 1 = base.cfg.pollMax ∧
      2 + 1 ≠ base.cfg.pollMax) ∧
    isNext (exec .rdid base) = true ∧ isNext (exec .ruid base) = true := by decide
theorem witness_OtherAddressingModeRefused : { base with cfg := cfg4 }.cfg.addrBytes ≠ 3 ∧ base.cfg.addrBytes ≠ 4 := by
  decide

theorem witness_EraseStep :
    (Invariant erasing ∧ Invariant { erasing with inputs := [bad true] }) ∧ erasing.agent = .controller ∧
    { erasing with inputs := [bad true] }.agent = .controller ∧ erasing.phase = .eraseCmd ∧
    erasing.input.transport = .ok ∧ { erasing with inputs := [bad true] }.input.transport = .fail ⟨7⟩ true ∧
    erasing.cfg.Legal ∧ 65535 ≠ 4096 ∧ 65535 ≠ 65536 :=
  ⟨⟨erasing_inv, invariant_of (by decide)⟩, by decide⟩
theorem witness_ProgramStep :
    (Invariant programming ∧ Invariant { programming with inputs := [bad true] }) ∧ programming.agent = .controller ∧
    { programming with inputs := [bad true] }.agent = .controller ∧ programming.phase = .progCmd ∧
    programming.pcur.toNat - programming.reqAddr.toNat +
      nextChunkLen programming.cfg.pageSize programming.pcur.toNat programming.pend.toNat ≤ programming.buf.length ∧
    programming.input.transport = .ok ∧
    { programming with inputs := [bad true] }.input.transport = .fail ⟨7⟩ true :=
  ⟨⟨programming_inv, invariant_of (by decide)⟩, by decide⟩
/-- A sector, and a program over a defined and an indeterminate byte. -/
theorem witness_DeviceCompletes :
    let s := { polling with inputs := [dev] }
    let u := { finishing with inputs := [dev], devState := .programming 0x100 [0x5A, 0x01] [some 0xFF, none] }
    (s.configOk = true ∧ s.agent = .device ∧ s.devState = .erasing 0 4096) ∧
    (u.configOk = true ∧ u.agent = .device ∧ u.devState = .programming 0x100 [0x5A, 0x01] [some 0xFF, none]) ∧
    ([0x5A, 0x01] : List Byte)[0]? = some 0x5A ∧ ([some 0xFF, none] : List (Option Byte))[0]? = some (some 0xFF) ∧
    1 < ([0x5A, 0x01] : List Byte).length ∧ ([some 0xFF, none] : List (Option Byte))[1]? = some none := by decide
theorem witness_ResetEvent :
    ({ polling with inputs := [rst] }.configOk = true ∧ { polling with inputs := [rst] }.agent = .reset) ∧
    step { base with idValid := true, uidValid := true } = .next (after { base with idValid := true, uidValid := true }) ∧
    { base with idValid := true, uidValid := true }.agent ≠ .reset := ⟨by decide, step_after (by decide), by decide⟩
theorem witness_CacheWrittenByExchangeOnly :
    step (querying 2 .idCmd) = .next (after (querying 2 .idCmd)) ∧ (querying 2 .idCmd).agent ≠ .reset ∧
    (querying 2 .idCmd).phase ≠ .uidCmd ∧ (querying 3 .uidCmd).phase ≠ .idCmd :=
  ⟨step_after (by decide), by decide, by decide, by decide⟩

/-- Reset, with a request that will be answered by an exchange. -/
def launching : State := { State.reset with inputs := [ctl, ctl], host := [⟨requestWord 2 0 0, []⟩] }
theorem witness_LaunchHasInvariant : Launch launching := by constructor <;> decide
theorem witness_StepKeepsInvariant : Invariant polling ∧ step polling = .next (after polling) :=
  ⟨polling_inv, step_after (by decide)⟩
theorem witness_ReachableStatesMeetR42 : Reachable (after launching) :=
  .step (.launch witness_LaunchHasInvariant) (step_after (by decide))
/-- And the two states in which the machine is refused a step. -/
theorem witness_MachineGoesOn :
    Invariant programming ∧ Invariant { programming with buf := [] } ∧
    Invariant { launching with devState := .writeEnabled } ∧
    isNext (step { programming with buf := [] }) = false ∧
    isNext (step { launching with devState := .writeEnabled }) = false :=
  ⟨programming_inv, invariant_of (by decide), invariant_of (by decide), by decide, by decide⟩
theorem witness_NoCommandWhileBusy :
    Reachable (after launching) ∧ step (after launching) = .next (after (after launching)) ∧
    (after (after launching)).bus =
      frameEvents ⟨[0x9F], [], 3⟩ (.ok [0xEF, 0x40, 0x18]) ++ (after launching).bus ∧
    (⟨[0x9F], [], 3⟩ : Descriptor).commandBytes.head? ≠ some (after launching).cfg.opc.rdsr :=
  ⟨witness_ReachableStatesMeetR42, step_after (by decide), by decide, by decide⟩
theorem witness_MaybeBusyFollowsTheFrames :
    (step erasing = .next (after erasing) ∧
      (after erasing).bus = frameEvents ⟨[0x20, 0, 0, 0], [], 0⟩ (.ok []) ++ erasing.bus ∧
      (⟨[0x20, 0, 0, 0], [], 0⟩ : Descriptor).commandBytes.head? = some erasing.cfg.opc.se) ∧
    (step { polling with devState := .idle } = .next (after { polling with devState := .idle }) ∧
      { polling with devState := .idle }.agent ≠ .reset ∧ { polling with devState := .idle }.maybeBusy = true ∧
      (after { polling with devState := .idle }).maybeBusy = false) :=
  ⟨⟨step_after (by decide), by decide, by decide⟩, step_after (by decide), by decide, by decide, by decide⟩
theorem witness_EveryFrameErrorAborts :
    let s := { erasing with inputs := [bad false] }
    step s = .next (after s) ∧ (after s).bus = frameEvents ⟨[0x20, 0, 0, 0], [], 0⟩ (.err ⟨7⟩) ++ s.bus :=
  ⟨step_after (by decide), by decide⟩
/-- The device's turn, and the controller's turns that end the request with each of the three codes. -/
theorem witness_WaysBackToIdle :
    (Invariant { polling with inputs := [dev] } ∧ { polling with inputs := [dev] }.agent = .device ∧
      isNext (step { polling with inputs := [dev] }) = true) ∧
    (Invariant { finishing with devState := .idle } ∧ (after { finishing with devState := .idle }).rspStatus = 0) ∧
    (Invariant { polling with pollCnt := 3 } ∧ (after { polling with pollCnt := 3 }).rspStatus = 2) ∧
    (Invariant { erasing with inputs := [bad true] } ∧ (after { erasing with inputs := [bad true] }).rspStatus = 3) :=
  ⟨⟨invariant_of (by decide), by decide, by decide⟩, ⟨invariant_of (by decide), by decide⟩,
    ⟨invariant_of (by decide), by decide⟩, invariant_of (by decide), by decide⟩
theorem witness_QueriesLeaveTheDevice :
    (Invariant (querying 2 .idCmd) ∧ (querying 2 .idCmd).phase ≠ .idle ∧ (querying 2 .idCmd).reqOp = 2 ∧
      (querying 2 .idCmd).agent = .controller ∧ step (querying 2 .idCmd) = .next (after (querying 2 .idCmd))) ∧
    (Invariant (querying 3 .uidCmd) ∧ (querying 3 .uidCmd).reqOp = 3 ∧ isNext (step (querying 3 .uidCmd)) = true) ∧
    isNext (exec (.readId 0 0) base) = true ∧ isNext (exec (.readUniqueId 0 0) base) = true :=
  ⟨⟨idCmd_inv, by decide, by decide, by decide, step_after (by decide)⟩, ⟨uidCmd_inv, by decide, by decide⟩, by decide,
    by decide⟩
/-- For ConstantsStay, OneFramePerStep and ControllerNeverReadsTheArray: steps of the controller and of the device, with
and without a frame. -/
theorem witness_steps :
    step base = .next (after base) ∧ step erasing = .next (after erasing) ∧
    step { polling with inputs := [dev] } = .next (after { polling with inputs := [dev] }) :=
  ⟨step_after (by decide), step_after (by decide), step_after (by decide)⟩

theorem witness_ArrayLaws :
    Memory.wf [(0xFF, 0xA5), (0x101, 0)] ∧ ([some 0x5A, none] : List (Option Byte))[1]? = some none ∧
    0x101 + 2 ≤ 0x103 := by decide
theorem witness_PlanCoversTheRoundedRange :
    Cfg.cfg0.Legal ∧ Cfg.cfg0.capacity < 0xFFFFFF + 2 ∧ 0x1000000 + 0 ≤ Cfg.cfg0.capacity ∧
    0xFFFFFF + 1 ≤ Cfg.cfg0.capacity ∧ 0 < 1 := by decide
theorem witness_PlanOfAWholeBlock :
    0xFF0001 + 0xFFFF ≤ Cfg.cfg0.capacity ∧ 0 < 0xFFFF ∧ 0xFF0000 = 0xFF0001 / 4096 * 4096 ∧ 0xFF0000 % 65536 = 0 ∧
    (0xFF0001 + 0xFFFF + 4095) / 4096 * 4096 = 0xFF0000 + 65536 := by decide
theorem witness_PlanIsTheFewestUnits :
    0x7000 % 4096 = 0 ∧ 0x9000 % 4096 = 0 ∧ 0x7000 ≤ 0x9000 ∧
    Tiles [(0x7000, 4096), (0x8000, 4096)] 0x7000 0x9000 := by unfold Tiles Abut Abut Abut; decide
theorem witness_PagesCutAtPageBoundaries : Cfg.cfg0.Legal ∧ { Cfg.cfg0 with pageSize := 1 }.Legal := by decide
theorem witness_IncrementalForm : 0 < 256 ∧ 0xFFFFFF + 1 ≤ Cfg.cfg0.capacity ∧ 0 < 1 := by decide

/-! A write of one byte, presented twice: accept, write-enable, erase, the device, status, write-enable, program, the
device, status. -/

/-- The request. -/
def request : HostRequest := ⟨requestWord 1 0xFF 1, [0xA5]⟩

/-- The state after `n` steps. -/
def writeRun : Nat → State
  | 0 => { State.reset with
    host := [request, request]
    inputs := [ctl, ctl, ctl, dev, ctl, ctl, ctl, dev, ctl, ctl, ctl, ctl, dev, ctl, ctl, ctl, dev, ctl] }
  | n + 1 => after (writeRun n)

theorem writeRun_goesOn (n : Nat) (h : n < 18) : step (writeRun n) = .next (writeRun (n + 1)) :=
  step_after (List.all_eq_true.mp
    (by decide +kernel : (List.range 18).all (fun n => isNext (step (writeRun n))) = true) n (List.mem_range.mpr h))
theorem writeRun_active (n : Nat) (h : n < 18) (h0 : n ≠ 0) (h9 : n ≠ 9) : (writeRun n).phase ≠ .idle := by
  have := List.all_eq_true.mp (by decide +kernel : (List.range 18).all
    (fun n => n == 0 || n == 9 || (writeRun n).phase != .idle) = true) n (List.mem_range.mpr h)
  simpa [h0, h9] using this
theorem writeRun_within (k n : Nat) (h : k = 1 ∨ k = 10) (hn : n < 8) :
    WithinRequest (writeRun k) (writeRun (k + n)) := by
  induction n with
  | zero => exact .refl _
  | succ n ih =>
    exact .step (ih (by omega)) (writeRun_goesOn _ (by omega)) (writeRun_active _ (by omega) (by omega) (by omega))
theorem writeRun_start : Invariant (writeRun 0) := invariant_of (by decide)
theorem writeRun_presents : Presents 0xFF 1 [0xA5] (writeRun 0) := ⟨by decide, by decide, _, rfl⟩

/-- For WriteRoundTrip, WriteEndState and WriteSendsItsPlan. -/
theorem witness_WriteCompletes :
    Invariant (writeRun 0) ∧ WriteCompletes 0xFF 1 [0xA5] (writeRun 0) (writeRun 9) ∧
    (1 : U32).toNat ≤ ([0xA5] : List Byte).length ∧ (writeRun 0).devState.covers 0x1000 = false :=
  ⟨writeRun_start, ⟨writeRun_presents, ⟨writeRun 1, writeRun 8, writeRun_goesOn 0 (by decide),
    writeRun_active 1 (by decide) (by decide) (by decide), writeRun_within 1 7 (by decide) (by decide),
    writeRun_goesOn 8 (by decide)⟩, by decide +kernel, by decide +kernel, by decide +kernel⟩, by decide, by decide⟩
theorem witness_WriteIsIdempotent :
    WriteCompletes 0xFF 1 [0xA5] (writeRun 0) (writeRun 9) ∧ WriteCompletes 0xFF 1 [0xA5] (writeRun 9) (writeRun 18) :=
  ⟨witness_WriteCompletes.2.1, ⟨by decide +kernel, by decide +kernel, [], by decide +kernel⟩,
    ⟨writeRun 10, writeRun 17, writeRun_goesOn 9 (by decide), writeRun_active 10 (by decide) (by decide) (by decide),
      writeRun_within 10 7 (by decide) (by decide), writeRun_goesOn 17 (by decide)⟩,
    by decide +kernel, by decide +kernel, by decide +kernel⟩
/-- For WriteFramesAreBounded and WriteStaysInItsRange: the last frame of a write. -/
theorem witness_WriteFramesAreBounded :
    Invariant (writeRun 0) ∧ Presents 0xFF 1 [0xA5] (writeRun 0) ∧ step (writeRun 0) = .next (writeRun 1) ∧
    (writeRun 1).phase ≠ .idle ∧ WithinRequest (writeRun 1) (writeRun 8) ∧ step (writeRun 8) = .next (writeRun 9) ∧
    (writeRun 8).agent = .controller ∧ (writeRun 0).devState.covers 0x1000 = false :=
  ⟨writeRun_start, writeRun_presents, writeRun_goesOn 0 (by decide),
    writeRun_active 1 (by decide) (by decide) (by decide), writeRun_within 1 7 (by decide) (by decide),
    writeRun_goesOn 8 (by decide), by decide +kernel, by decide⟩

end Sys2Proof.Tests
end

section
/-! The obligations of spec/00_scope.md: the configuration and the device's constants, which no step writes (R8, R39), and
the laws of the array (R14, R40, R60). -/

namespace Sys2Proof.Machine

/-! ## The constants -/

/-- `t` has the configuration and the device's identification constants of `s` (R8, R39). -/
def SameConstants (s t : State) : Prop := t.cfg = s.cfg ∧ t.devId = s.devId ∧ t.devUid = s.devUid

theorem SameConstants.refl (s : State) : SameConstants s s := ⟨rfl, rfl, rfl⟩

theorem SameConstants.trans {s t u : State} (hst : SameConstants s t) (htu : SameConstants t u) : SameConstants s u := by
  obtain ⟨hcfg, hid, huid⟩ := hst
  simpa only [SameConstants, hcfg, hid, huid] using htu

/-- A frame writes no constant, if what follows its outcome writes none. -/
theorem sendFrame_sameConstants {d : Descriptor} {r : Except DeviceFault DeviceReply}
    {k : FrameOutcome → State → State} {s t : State} (hk : ∀ o u, SameConstants u (k o u))
    (h : sendFrame d r k s = .next t) : SameConstants s t := by
  rcases sendFrame_next h with ⟨a, -, rfl⟩ | ⟨-, e, -, -, rfl⟩
  · simpa [SameConstants] using hk (s.input.transport.outcome a.bytes)
      (busFrame d (s.input.transport.outcome a.bytes) (deliver a s))
  · simpa [SameConstants] using hk (.err e) (busFrame d (.err e) s)

theorem eraseCommand_sameConstants {n size a : Nat} {opc : Byte} {s t : State}
    (h : eraseCommand n opc size a s = .next t) : SameConstants s t := by
  unfold eraseCommand at h
  split at h
  · exact sendFrame_sameConstants (fun _ _ => by simp [SameConstants]) h
  · simp at h

theorem programCommand_sameConstants {n a : Nat} {data : List Byte} {s t : State}
    (h : programCommand n a data s = .next t) : SameConstants s t := by
  unfold programCommand at h
  split at h
  · exact sendFrame_sameConstants (fun _ _ => by simp [SameConstants]) h
  · simp at h

/-- A request writes no constant, if its accept step writes none: elsewhere it is held (R25). -/
theorem whenIdle_sameConstants {accept : State → State} {s t : State} (ha : SameConstants s (accept s))
    (h : whenIdle accept s = .next t) : SameConstants s t := by
  unfold whenIdle at h
  split at h <;> obtain rfl := Host.Outcome.next.inj h
  · exact ha
  · exact .refl s

/-- No instruction writes a constant, in any phase. -/
theorem exec_sameConstants {i : Instr} {s t : State} (h : exec i s = .next t) : SameConstants s t := by
  cases i with
  | wren | rdsr | rdid | ruid =>
    simp only [exec, execWren, execRdsr, execRdid, execRuid] at h
    exact sendFrame_sameConstants (fun _ _ => by simp [SameConstants]) h
  | se3 | be3 | se4 | be4 => exact eraseCommand_sameConstants h
  | pp3 | pp4 => exact programCommand_sameConstants h
  | writeStream | reservedOp0 =>
    simp only [exec, execWriteStream, execReservedOp0] at h
    exact whenIdle_sameConstants (by simp [SameConstants]) h
  | readId | readUniqueId =>
    simp only [exec, execReadId, execReadUniqueId] at h
    refine whenIdle_sameConstants ?_ h
    split <;> simp [SameConstants]

theorem acceptStep_sameConstants {s t : State} (h : acceptStep s = .next t) : SameConstants s t := by
  rcases acceptStep_next h with ⟨-, rfl⟩ | ⟨r, rest, -, -, he⟩
  · exact .refl t
  · exact (show SameConstants s (takeRequest r rest s) from ⟨rfl, rfl, rfl⟩).trans (exec_sameConstants he)

theorem sendOp_sameConstants {op : LogicalOp} {s t : State} (h : sendOp op s = .next t) : SameConstants s t := by
  unfold sendOp at h
  split at h
  · obtain rfl := Host.Outcome.next.inj h
    exact ⟨rfl, rfl, rfl⟩
  · split at h
    · simp at h
    · exact exec_sameConstants h

theorem commandStep_sameConstants {op : LogicalOp} {s t : State} (h : commandStep op s = .next t) :
    SameConstants s t := by
  rcases commandStep_cases op s with ⟨why, -, hr⟩ | ⟨-, hs⟩
  · simp [hr] at h
  · exact sendOp_sameConstants (hs ▸ h)

theorem controllerStep_sameConstants {s t : State} (h : controllerStep s = .next t) : SameConstants s t := by
  unfold controllerStep at h
  split at h
  · simp at h
  · exact acceptStep_sameConstants h
  · exact commandStep_sameConstants h

/-- Whoever takes the step: the reset event, the device and the controller keep the constants. -/
theorem step_sameConstants {s t : State} (h : step s = .next t) : SameConstants s t := by
  obtain ⟨-, u, rfl, hu⟩ := step_next h
  rcases hu with ⟨-, rfl⟩ | ⟨-, rfl⟩ | ⟨-, hc⟩
  · exact ⟨rfl, rfl, rfl⟩
  · simp [SameConstants]
  · exact (controllerStep_sameConstants hc).trans ⟨rfl, rfl, rfl⟩

/-! ## The array -/

/-- A value written is the value read at its address. -/
theorem Memory.read_write_in (m : Memory) (a : Nat) {vs : List (Option Byte)} {i : Nat} {v : Option Byte}
    (h : vs[i]? = some v) : (m.write a vs).read (a + i) = v := by
  obtain ⟨hi, -⟩ := List.getElem?_eq_some_iff.mp h
  rw [Memory.read_write, if_pos (by omega), Nat.add_sub_cancel_left, h, Option.join_some]

/-! ## The obligations -/

/-- Settles O40, by cases on whose step it is and, for the controller's, on the instruction that runs. -/
theorem constantsStay : Obligations.ConstantsStay := fun _ _ h => step_sameConstants h

/-- Settles O46, from what a read gives after a write and after a range made indeterminate, and from the uniqueness of
the canonical form. -/
theorem arrayLaws : Obligations.ArrayLaws := fun m a hm =>
  ⟨fun vs => ⟨Memory.wf_write hm a vs, fun _ _ hv => Memory.read_write_in m a hv, Memory.read_write_out m a vs⟩,
    fun n => ⟨Memory.wf_forget hm a n, Memory.read_forget m a n⟩,
    fun _ hm' hr => Memory.eq_of_read hm hm' hr⟩

end Sys2Proof.Machine
end

section
/-! The obligations of spec/10_state.md about the instruction a step runs (R25, R26): the request on the port, or the
command of the phase. -/

namespace Sys2Proof.Machine

/-! ## What a step runs -/

theorem step_of_controller {s : State} (hc : s.configOk = true) (ha : s.agent = .controller) :
    step s = onNext State.tick (controllerStep s) := by
  simp [step, hc, agentStep, ha]

theorem acceptStep_of_ready {s : State} {r : HostRequest} {rest : List HostRequest} (hh : s.host = r :: rest)
    (hl : s.launched = true ∨ s.devState = .idle) :
    acceptStep s = exec (decodeRequest r.word) (takeRequest r rest s) := by
  rcases hl with hl | hl <;> simp [acceptStep, hh, hl]

theorem acceptStep_of_notReady {s : State} {r : HostRequest} {rest : List HostRequest} (hh : s.host = r :: rest)
    (hl : s.launched = false) (hd : s.devState ≠ .idle) : acceptStep s = .refused .deviceNotIdleAtLaunch := by
  simp [acceptStep, hh, hl, hd]

theorem controllerStep_of_op {s : State} {op : LogicalOp} (h : s.phaseOp = .ok (some op)) :
    controllerStep s = commandStep op s := by
  simp [controllerStep, h]

theorem whenIdle_held {s : State} (hp : s.phase ≠ .idle) (accept : State → State) : whenIdle accept s = .next s := by
  simp [whenIdle, hp]

/-- A call of the encoder that is sent runs the instruction its frame decodes to (R100). -/
theorem sendOp_of_decoded {s : State} {op : LogicalOp} {d : Descriptor} {i : Instr} (he : encodeOp s.cfg op = .ok d)
    (hd : decodeFrame s.cfg d = .ok i) : sendOp op s = exec i s := by
  simp [sendOp, he, hd]

/-- The erase instruction of a unit the address bytes can carry is the erase command in the machine's own mode. -/
theorem exec_eraseInstr {s : State} (h : s.cfg.Legal) {size a : Nat} (hs : size = sectorSize ∨ size = blockSize)
    (ha : a < 2 ^ (8 * s.cfg.addrBytes)) :
    exec (eraseInstr s.cfg size a) s = eraseCommand s.cfg.addrBytes (eraseOpcode s.cfg size) size a s := by
  have hne : sectorSize ≠ blockSize := by decide
  rcases legal_addrBytes h with hn | hn
  · have hm : a % 16777216 = a := Nat.mod_eq_of_lt (by simpa [hn] using ha)
    rcases hs with rfl | rfl <;> simp [eraseInstr, eraseOpcode, hn, hne, exec, execSe3, execBe3, hm]
  · have hm : a % 4294967296 = a := Nat.mod_eq_of_lt (by simpa [hn] using ha)
    rcases hs with rfl | rfl <;> simp [eraseInstr, eraseOpcode, hn, hne, exec, execSe4, execBe4, hm]

theorem exec_programInstr {s : State} (h : s.cfg.Legal) {a : Nat} (ha : a < 2 ^ (8 * s.cfg.addrBytes))
    (data : List Byte) : exec (programInstr s.cfg a data) s = programCommand s.cfg.addrBytes a data s := by
  rcases legal_addrBytes h with hn | hn
  · have hm : a % 16777216 = a := Nat.mod_eq_of_lt (by simpa [hn] using ha)
    simp [programInstr, hn, exec, execPp3, hm]
  · have hm : a % 4294967296 = a := Nat.mod_eq_of_lt (by simpa [hn] using ha)
    simp [programInstr, hn, exec, execPp4, hm]

/-- The next unit ends inside the rounded range, on a sector boundary (R166, R173). -/
theorem nextUnit_bounds {cur hi : Nat} (h1 : cur < hi) (h2 : cur % 4096 = 0) (h3 : hi % 4096 = 0) :
    (nextUnitSize cur hi = sectorSize ∨ nextUnitSize cur hi = blockSize) ∧ cur % nextUnitSize cur hi = 0 ∧
      cur + nextUnitSize cur hi ≤ hi ∧ (cur + nextUnitSize cur hi) % 4096 = 0 := by
  rcases nextUnitSize_cases cur hi with ⟨hs, ha, hb⟩ | ⟨hs, -⟩ <;> rw [hs]
  · exact ⟨.inr rfl, ha, hb, by simp only [blockSize] at *; omega⟩
  · exact ⟨.inl rfl, h2, by simp only [sectorSize]; omega, by simp only [sectorSize]; omega⟩

/-- The next chunk ends inside the request and inside its page (R172, R173). -/
theorem nextChunk_bounds {p cur e : Nat} (hp : 0 < p) (h1 : cur < e) :
    1 ≤ nextChunkLen p cur e ∧ cur % p + nextChunkLen p cur e ≤ p ∧ cur + nextChunkLen p cur e ≤ e := by
  have := Nat.mod_lt cur hp
  unfold nextChunkLen
  generalize cur % p = r at *
  omega

/-! ## The obligations about the instruction a step runs -/

/-- Settles O8: in `IDLE` the controller's step is the accept step, which runs the request or refuses it (R25, R285). -/
theorem stepRunsTheRequest : Obligations.StepRunsTheRequest := by
  intro s r rest hc ha hp hh
  rw [step_of_controller hc ha, controllerStep_idle hp]
  refine ⟨fun hl => ?_, fun hl hd => ?_⟩
  · rw [acceptStep_of_ready hh hl]
    rfl
  · rw [acceptStep_of_notReady hh hl hd, onNext_refused]

/-- Settles O9: in any other phase the controller's step is the encoder's call, sent or refused (R140). -/
theorem stepRunsTheCommand : Obligations.StepRunsTheCommand := by
  intro s op hc ha hop
  rw [step_of_controller hc ha, controllerStep_of_op hop]
  refine ⟨fun d i hw he hd => ?_, fun why hi => ?_⟩
  · rw [commandStep_of_wellFormed hw, sendOp_of_decoded he hd]
  · rw [commandStep_of_illFormed hi, onNext_refused]

/-- Settles O11: with an empty port the accept step answers the same state. -/
theorem emptyPortWaits : Obligations.EmptyPortWaits := by
  intro s hc ha hp hh
  rw [step_of_controller hc ha, controllerStep_idle hp]
  simp [acceptStep, hh, State.tick]

/-- Settles O16: all four requests are accepted through `whenIdle`. -/
theorem requestHeldUntilIdle : Obligations.RequestHeldUntilIdle := by
  intro s a l hp
  simp [exec, execWriteStream, execReadId, execReadUniqueId, execReservedOp0, whenIdle_held hp]

/-- Settles O10, by cases on the phase: R42 (b) to (d) make the phase's call one the encoder may be asked for. -/
theorem eachPhaseRunsItsCommand : Obligations.EachPhaseRunsItsCommand := by
  intro s h ha
  have hcfg := ((configOk_iff s).mp h.config).1
  have hcap := legal_capacity_addressable hcfg
  rw [step_of_controller h.config ha]
  refine ⟨fun hp => ?_, fun hp => ?_, fun hp => ?_, fun hp => ?_, fun hp => ?_, fun hp data hb => ?_⟩
  · rw [controllerStep_wren hp]
    rfl
  · rw [controllerStep_poll hcfg hp]
    rfl
  · rw [controllerStep_idCmd hcfg hp]
    rfl
  · rw [controllerStep_uidCmd hcfg hp]
    rfl
  · have hlt := h.controller.eraseLeft (.inr hp)
    obtain ⟨-, hal, hee, hle⟩ := h.controller.eraseCursors (congrArg Phase.inErase hp)
    obtain ⟨hu, -⟩ := nextUnit_bounds hlt hal hee
    rw [controllerStep_eraseCmd hcfg hp ⟨hlt, hal, hee, hle⟩, exec_eraseInstr hcfg hu (by omega),
      eraseCommand_own_mode]
  · have hlt := h.controller.programLeft (.inr hp)
    obtain ⟨-, -, -, hle, -⟩ := h.controller.programCursors (congrArg Phase.inProgram hp)
    rw [controllerStep_progCmd hcfg hp ⟨hlt, hle⟩ hb, exec_programInstr hcfg (by omega), programCommand_own_mode]

end Sys2Proof.Machine
end

section
/-! The obligations of spec/10_state.md about what a step writes: said once, a step sends one command frame or
none; from it, who writes the operands (R22 to R28, R62) and what sets and clears `MAYBE_BUSY` (R30). -/

namespace Sys2Proof.Machine

/-! ## All an instruction can do -/

/-- The frames of the commands, as an instruction sends them in `s`: the descriptor, the device's reply, and what the
sending step does with the outcome (R105, R141). -/
inductive CommandFrame (s : State) :
    Descriptor → Except DeviceFault DeviceReply → (FrameOutcome → State → State) → Prop where
  | writeEnable : CommandFrame s (frameOp s.cfg.opc.wren) (devWriteEnable s) afterWriteEnable
  | readStatus : CommandFrame s (frameOpR s.cfg.opc.rdsr 1) (devReadStatus s) afterStatus
  | erase (n size a : Nat) (opc : Byte) (h : opc = s.cfg.opc.se ∨ opc = s.cfg.opc.be) :
      CommandFrame s (frameOpA n opc a) (devErase size a s) (afterErase size)
  | program (n a : Nat) (data : List Byte) :
      CommandFrame s (frameOpAD n s.cfg.opc.pp a data) (devProgram a data s) (afterProgram data.length)
  | readId : CommandFrame s (frameOpR s.cfg.opc.rdid s.cfg.idLen) (devIdentify s.devId s) afterReadId
  | readUniqueId : CommandFrame s (frameOpZR s.cfg.opc.ruid s.cfg.uidDummy s.cfg.uidLen) (devIdentify s.devUid s)
      afterReadUniqueId

/-- The operands of the request in progress, its buffer and the port (R22 to R25, R27, R28, R62) are those of `s`. -/
structure SameOperands (s t : State) : Prop where
  host    : t.host = s.host
  buf     : t.buf = s.buf
  reqOp   : t.reqOp = s.reqOp
  reqAddr : t.reqAddr = s.reqAddr
  reqLen  : t.reqLen = s.reqLen
  eend    : t.eend = s.eend
  pend    : t.pend = s.pend

theorem SameOperands.trans {s t u : State} (hst : SameOperands s t) (htu : SameOperands t u) : SameOperands s u := by
  obtain ⟨h1, h2, h3, h4, h5, h6, h7⟩ := hst
  exact ⟨htu.host.trans h1, htu.buf.trans h2, htu.reqOp.trans h3, htu.reqAddr.trans h4, htu.reqLen.trans h5,
    htu.eend.trans h6, htu.pend.trans h7⟩

/-- A step without a frame: nothing new on the bus, the arbiter's flag as it was, and outside `IDLE` the operands
too (R25). -/
structure Frameless (s t : State) : Prop where
  bus       : t.bus = s.bus
  maybeBusy : t.maybeBusy = s.maybeBusy
  operands  : s.phase ≠ .idle → SameOperands s t

theorem Frameless.refl (s : State) : Frameless s s := ⟨rfl, rfl, fun _ => ⟨rfl, rfl, rfl, rfl, rfl, rfl, rfl⟩⟩

theorem frameless_raise (k : ErrorKind) (s : State) : Frameless s (raise k s) :=
  ⟨rfl, rfl, fun _ => ⟨rfl, rfl, rfl, rfl, rfl, rfl, rfl⟩⟩

theorem frameless_deviceComplete (s : State) : Frameless s (deviceComplete s) := by
  refine ⟨?_, ?_, fun _ => ⟨?_, ?_, ?_, ?_, ?_, ?_, ?_⟩⟩ <;> simp

theorem whenIdle_frameless {accept : State → State} {s t : State} (hb : (accept s).bus = s.bus)
    (hm : (accept s).maybeBusy = s.maybeBusy) (h : whenIdle accept s = .next t) : Frameless s t := by
  by_cases hp : s.phase = .idle
  · rw [whenIdle, if_pos hp] at h
    obtain rfl := Host.Outcome.next.inj h
    exact ⟨hb, hm, fun hn => absurd hp hn⟩
  · rw [whenIdle_held hp] at h
    obtain rfl := Host.Outcome.next.inj h
    exact .refl s

/-- A request sends no frame: it is accepted in `IDLE`, and held elsewhere. -/
theorem request_frameless {i : Instr} {a l : U32} {s t : State}
    (hi : i = .writeStream a l ∨ i = .readId a l ∨ i = .readUniqueId a l ∨ i = .reservedOp0 a l)
    (h : exec i s = .next t) : Frameless s t := by
  rcases hi with rfl | rfl | rfl | rfl <;>
    simp only [exec, execWriteStream, execReadId, execReadUniqueId, execReservedOp0] at h
  · exact whenIdle_frameless (by simp) (by simp) h
  · exact whenIdle_frameless (by split <;> simp) (by split <;> simp) h
  · exact whenIdle_frameless (by split <;> simp) (by split <;> simp) h
  · exact whenIdle_frameless (by simp) (by simp) h

theorem eraseCommand_next {n size a : Nat} {opc : Byte} {s t : State} (h : eraseCommand n opc size a s = .next t) :
    sendFrame (frameOpA n opc a) (devErase size a s) (afterErase size) s = .next t := by
  unfold eraseCommand at h
  split at h
  · exact h
  · simp at h

theorem programCommand_next {n a : Nat} {data : List Byte} {s t : State} (h : programCommand n a data s = .next t) :
    sendFrame (frameOpAD n s.cfg.opc.pp a data) (devProgram a data s) (afterProgram data.length) s = .next t := by
  unfold programCommand at h
  split at h
  · exact h
  · simp at h

/-- `t` is what one of the command frames, sent in `s`, leads to. -/
def Sends (s t : State) : Prop := ∃ d r k, CommandFrame s d r k ∧ sendFrame d r k s = .next t

/-- An instruction that goes on sends one of the command frames, or is a request, which sends none. -/
theorem exec_next {i : Instr} {s t : State} (h : exec i s = .next t) : Sends s t ∨ Frameless s t := by
  cases i with
  | wren => exact .inl ⟨_, _, _, .writeEnable, h⟩
  | rdsr => exact .inl ⟨_, _, _, .readStatus, h⟩
  | rdid => exact .inl ⟨_, _, _, .readId, h⟩
  | ruid => exact .inl ⟨_, _, _, .readUniqueId, h⟩
  | se3 | se4 => exact .inl ⟨_, _, _, .erase _ _ _ _ (.inl rfl), eraseCommand_next h⟩
  | be3 | be4 => exact .inl ⟨_, _, _, .erase _ _ _ _ (.inr rfl), eraseCommand_next h⟩
  | pp3 | pp4 => exact .inl ⟨_, _, _, .program _ _ _, programCommand_next h⟩
  | writeStream => exact .inr (request_frameless (.inl rfl) h)
  | readId => exact .inr (request_frameless (.inr (.inl rfl)) h)
  | readUniqueId => exact .inr (request_frameless (.inr (.inr (.inl rfl))) h)
  | reservedOp0 => exact .inr (request_frameless (.inr (.inr (.inr rfl))) h)

/-- A phase step that goes on sends one of the command frames; a failure of the encoder sends none (R187, R247). -/
theorem sendOp_next {op : LogicalOp} {s t : State} (h : sendOp op s = .next t) : Sends s t ∨ Frameless s t := by
  unfold sendOp at h
  split at h
  · obtain rfl := Host.Outcome.next.inj h
    exact .inr (frameless_raise _ _)
  · split at h
    · simp at h
    · exact exec_next h

theorem commandStep_next {op : LogicalOp} {s t : State} (h : commandStep op s = .next t) :
    Sends s t ∨ Frameless s t := by
  rcases commandStep_cases op s with ⟨why, -, hr⟩ | ⟨-, hs⟩
  · simp [hr] at h
  · exact sendOp_next (hs ▸ h)

/-- In `IDLE` no frame is sent: the four requests are latched, and answered or started (R25). -/
theorem acceptStep_frameless {s t : State} (hp : s.phase = .idle) (h : acceptStep s = .next t) : Frameless s t := by
  rcases acceptStep_next h with ⟨-, rfl⟩ | ⟨r, rest, -, -, he⟩
  · exact .refl t
  · obtain ⟨a, l, hw⟩ := decodeRequest_cases r.word
    have hf : Frameless (takeRequest r rest s) t := request_frameless hw he
    exact ⟨hf.bus, hf.maybeBusy, fun hn => absurd hp hn⟩

theorem phase_idle_of_phaseOp {s : State} (h : s.phaseOp = .ok none) : s.phase = .idle := by
  cases hp : s.phase with
  | idle => rfl
  | progCmd =>
    simp only [State.phaseOp, hp] at h
    split at h <;> simp at h
  | _ => simp [State.phaseOp, hp] at h

/-- The controller's step sends one command frame or none. -/
theorem controllerStep_next {s t : State} (h : controllerStep s = .next t) : Sends s t ∨ Frameless s t := by
  unfold controllerStep at h
  split at h
  · simp at h
  · next hop => exact .inr (acceptStep_frameless (phase_idle_of_phaseOp hop) h)
  · exact commandStep_next h

/-- A step that goes on is a reset, sends one command frame, or sends none. -/
theorem step_next_frame {s t : State} (h : step s = .next t) :
    ∃ u, t = u.tick ∧ ((s.agent = .reset ∧ u = controllerReset s) ∨ Sends s u ∨ Frameless s u) := by
  obtain ⟨-, u, rfl, hu⟩ := step_next h
  refine ⟨u, rfl, ?_⟩
  rcases hu with hr | ⟨-, rfl⟩ | ⟨-, hc⟩
  · exact .inl hr
  · exact .inr (.inr (frameless_deviceComplete s))
  · exact .inr (controllerStep_next hc)

/-! ## All a command frame can do -/

/-- `u` is `s` with the frame on the bus, its device having reacted or not. -/
structure Framed (d : Descriptor) (o : FrameOutcome) (s u : State) : Prop where
  bus       : u.bus = frameEvents d o ++ s.bus
  cfg       : u.cfg = s.cfg
  maybeBusy : u.maybeBusy = s.maybeBusy
  operands  : SameOperands s u

theorem framed_busFrame (d : Descriptor) (o : FrameOutcome) (s : State) : Framed d o s (busFrame d o s) := by
  refine ⟨?_, ?_, ?_, ?_, ?_, ?_, ?_, ?_, ?_, ?_⟩ <;> simp [frameEvents]

theorem framed_busFrame_deliver (d : Descriptor) (o : FrameOutcome) (a : DeviceReply) (s : State) :
    Framed d o s (busFrame d o (deliver a s)) := by
  refine ⟨?_, ?_, ?_, ?_, ?_, ?_, ?_, ?_, ?_, ?_⟩ <;> simp [frameEvents]

/-- A frame that goes on: `k` runs on the frame's outcome; the bytes of a success are those of the device's reply. -/
theorem sendFrame_next_framed {d : Descriptor} {r : Except DeviceFault DeviceReply}
    {k : FrameOutcome → State → State} {s t : State} (h : sendFrame d r k s = .next t) :
    ∃ o u, t = k o u ∧ Framed d o s u ∧ ∀ bytes, o = .ok bytes → ∃ a, r = .ok a ∧ a.bytes = bytes := by
  rcases sendFrame_next h with ⟨a, ha, rfl⟩ | ⟨-, e, -, -, rfl⟩
  · refine ⟨_, _, rfl, framed_busFrame_deliver _ _ a s, fun bytes hb => ⟨a, ha, ?_⟩⟩
    cases ht : s.input.transport <;> simp_all [Transport.outcome]
  · exact ⟨.err e, _, rfl, framed_busFrame d _ s, nofun⟩

theorem afterErase_maybeBusy (size : Nat) (o : FrameOutcome) (u : State) : (afterErase size o u).maybeBusy = true := by
  cases o <;> rfl

theorem afterProgram_maybeBusy (n : Nat) (o : FrameOutcome) (u : State) : (afterProgram n o u).maybeBusy = true := by
  cases o <;> rfl

theorem pollByte_maybeBusy (b : Byte) (u : State) :
    (pollByte b u).maybeBusy = (statusBusy u.cfg b && u.maybeBusy) := by
  unfold pollByte
  split
  · next hb => split <;> simp [hb]
  · next hb => simp [hb]

section
variable {s : State} {d : Descriptor} {r : Except DeviceFault DeviceReply} {k : FrameOutcome → State → State}

theorem CommandFrame.sameOperands (h : CommandFrame s d r k) (o : FrameOutcome) (u : State) :
    SameOperands u (k o u) := by
  cases h <;> refine ⟨?_, ?_, ?_, ?_, ?_, ?_, ?_⟩ <;> simp

theorem CommandFrame.bus (h : CommandFrame s d r k) (o : FrameOutcome) (u : State) : (k o u).bus = u.bus := by
  cases h <;> simp

/-- An erase or program opcode at the head of a frame is one the other commands do not have, so the frame sets
`MAYBE_BUSY` (R30). -/
theorem CommandFrame.setsMaybeBusy (h : CommandFrame s d r k) (hl : s.cfg.Legal)
    (hd : d.commandBytes.head? = some s.cfg.opc.se ∨ d.commandBytes.head? = some s.cfg.opc.be ∨
      d.commandBytes.head? = some s.cfg.opc.pp) (o : FrameOutcome) (u : State) : (k o u).maybeBusy = true := by
  obtain ⟨-, ⟨hpw, hpr⟩, ⟨hsw, hsr, -⟩, ⟨hbw, hbr, -, -⟩, ⟨-, -, hip, his, hib⟩, ⟨-, -, hup, hus, hub, -⟩⟩ :=
    legal_opcodes hl
  cases h with
  | erase => exact afterErase_maybeBusy _ o u
  | program => exact afterProgram_maybeBusy _ o u
  | writeEnable => simp [frameOp, hpw.symm, hsw.symm, hbw.symm] at hd
  | readStatus => simp [frameOpR, hpr.symm, hsr.symm, hbr.symm] at hd
  | readId => simp [frameOpR, hip, his, hib] at hd
  | readUniqueId => simp [frameOpZR, hup, hus, hub] at hd

/-- Only a status read clears `MAYBE_BUSY`, and only by a byte without a busy bit (R30, R193). -/
theorem CommandFrame.clearsMaybeBusy (h : CommandFrame s d r k) {o : FrameOutcome} {u : State}
    (hs : u.maybeBusy = true) (ht : (k o u).maybeBusy = false) :
    d = frameOpR s.cfg.opc.rdsr 1 ∧ r = devReadStatus s ∧
      ∃ bytes, o = .ok bytes ∧ statusBusy u.cfg (bytes.headD 0) = false := by
  cases h with
  | readStatus =>
    refine ⟨rfl, rfl, ?_⟩
    cases o with
    | err e => simp [afterStatus, hs] at ht
    | ok bytes => exact ⟨bytes, rfl, by simpa [afterStatus, pollByte_maybeBusy, hs] using ht⟩
  | erase => simp [afterErase_maybeBusy] at ht
  | program => simp [afterProgram_maybeBusy] at ht
  | _ => simp [hs] at ht

end

/-- A frame is on the bus once, and can be told from no frame. -/
theorem frameEvents_append_ne (d : Descriptor) (o : FrameOutcome) (bus : List BusEvent) :
    frameEvents d o ++ bus ≠ bus := by
  intro h
  have := congrArg List.length h
  simp only [frameEvents, List.length_append, List.length_cons, List.length_nil] at this
  omega

/-- Settles O17: a step without a frame keeps the operands outside `IDLE`, and so does every command frame. -/
theorem operandsWrittenByAcceptOnly : Obligations.OperandsWrittenByAcceptOnly := by
  intro s t h hp ha
  obtain ⟨u, rfl, ⟨hr, -⟩ | ⟨d, r, k, hc, hs⟩ | hf⟩ := step_next_frame h
  · exact absurd hr ha
  · obtain ⟨o, u, rfl, hu, -⟩ := sendFrame_next_framed hs
    obtain ⟨h1, h2, h3, h4, h5, h6, h7⟩ := hu.operands.trans (hc.sameOperands o u)
    exact ⟨h1, h2, h3, h4, h5, h6, h7⟩
  · obtain ⟨h1, h2, h3, h4, h5, h6, h7⟩ := hf.operands hp
    exact ⟨h1, h2, h3, h4, h5, h6, h7⟩

/-- Settles O39: the frame on the bus is the one the step sent, and its opcode tells what follows its outcome. -/
theorem maybeBusyFollowsTheFrames : Obligations.MaybeBusyFollowsTheFrames := by
  intro s t h
  have hl := ((configOk_iff s).mp (step_next h).1).1
  obtain ⟨u, rfl, ⟨hr, rfl⟩ | ⟨d, r, k, hc, hs⟩ | hf⟩ := step_next_frame h
  · exact ⟨fun d o hb => absurd hb.symm (frameEvents_append_ne d o s.bus), fun ha => absurd hr ha⟩
  · obtain ⟨o, u, rfl, hu, hbytes⟩ := sendFrame_next_framed hs
    have hbus : (k o u).bus = frameEvents d o ++ s.bus := (hc.bus o u).trans hu.bus
    refine ⟨fun d' o' hb hd => ?_, fun _ hm ht => ?_⟩
    · have he := List.append_cancel_right (hbus.symm.trans hb)
      obtain ⟨rfl, -⟩ : d = d' ∧ o = o' := by simpa [frameEvents] using he
      exact hc.setsMaybeBusy hl hd o u
    · obtain ⟨rfl, rfl, bytes, rfl, hb⟩ := hc.clearsMaybeBusy (hu.maybeBusy.trans hm) ht
      obtain ⟨a, ha, rfl⟩ := hbytes bytes rfl
      obtain rfl := Except.ok.inj ha
      exact ⟨_, by simpa [statusBusy, hu.cfg] using hb, hbus⟩
  · refine ⟨fun d o hb => absurd (hb.symm.trans hf.bus) (frameEvents_append_ne d o s.bus), fun _ hm ht => ?_⟩
    exact absurd (hf.maybeBusy.trans hm) (by simpa using ht)

end Sys2Proof.Machine
end

section
/-! The obligations of spec/10_state.md about the invariant (R42 and what it rests on): the invariant as one
claim for each phase, each step's claim, and every reachable state. -/

namespace Sys2Proof.Machine

/-! ## The invariant, phase by phase -/

/-- The part of the invariant that speaks of neither the phase nor the arbiter: the configuration, the idle bus, the
identification cache (R42 (f)), the poll counter (R42 (e)) and the device. -/
structure Steady (s : State) : Prop where
  selectInactive : s.cs = false
  pollBound  : s.pollCnt < s.cfg.pollMax
  idCache    : s.idValid = true → s.idRaw = s.devId
  uidCache   : s.uidValid = true → s.uid = s.devUid
  config     : s.configOk = true
  idWidth    : s.idRaw.length = s.cfg.idLen
  uidWidth   : s.uid.length = s.cfg.uidLen
  idCode     : s.idValid = true → s.idCode = idCodeOf s.idRaw
  flash      : s.flash.wf
  flashEnd   : ∀ c ∈ s.flash, c.1 < s.cfg.capacity
  device     : s.devState.legal s.cfg

/-- What `MAYBE_BUSY` knows of the device before and after the first request (R30, R285). -/
structure Arbitrated (s : State) : Prop where
  fresh : s.launched = false → s.maybeBusy = false
  known : s.launched = true → s.maybeBusy = false → s.devState.busy = false

/-- A write is in progress. -/
structure Writing (s : State) : Prop where
  launched : s.launched = true
  writeOp  : s.reqOp = 1
  cursors  : WriteCursors s

/-- A write is in progress, nothing is programmed yet, and a unit is left to erase: the state before an erase frame. -/
structure EraseLeft (s : State) : Prop extends Writing s where
  unwritten : s.pcur.toNat = s.reqAddr.toNat
  quiet     : s.maybeBusy = false
  left      : s.ecur.toNat < s.eend.toNat

/-- A write is in progress, all of its range is erased, and a chunk is left: the state before a program frame. -/
structure ProgramLeft (s : State) : Prop extends Writing s where
  erased : s.ecur = s.eend
  quiet  : s.maybeBusy = false
  left   : s.pcur.toNat < s.pend.toNat

/-- A query is in progress and the device is not busy: the state before its identification frame. -/
structure Querying (op : BitVec 2) (s : State) : Prop where
  launched : s.launched = true
  queryOp  : s.reqOp = op
  quiet    : s.maybeBusy = false

/-- A request waits for the device: its cursors, if it is a write, stand where the accept step put them (R181). -/
structure Waiting (s : State) : Prop where
  launched : s.launched = true
  someOp   : s.reqOp ≠ 0
  start    : s.reqOp = 1 → WriteCursors s ∧ s.ecur.toNat = s.roundedStart ∧ s.pcur.toNat = s.reqAddr.toNat

/-- What the invariant claims of a state in phase `p` (R26, R42 (b) to (d), R290). -/
def Phase.Claim : Phase → State → Prop
  | .idle, _ => True
  | .prePoll, s => Waiting s
  | .eraseWren, s => EraseLeft s
  | .eraseCmd, s => EraseLeft s ∧ s.devState = .writeEnabled
  | .erasePoll, s => Writing s ∧ s.pcur.toNat = s.reqAddr.toNat ∧ s.devState ≠ .writeEnabled
  | .progWren, s => ProgramLeft s
  | .progCmd, s => ProgramLeft s ∧ s.devState = .writeEnabled
  | .progPoll, s => Writing s ∧ s.ecur = s.eend ∧ s.devState ≠ .writeEnabled
  | .idCmd, s => Querying 2 s
  | .uidCmd, s => Querying 3 s

theorem WriteCursors.eraseEnd_aligned {s : State} (h : WriteCursors s) : s.eend.toNat % 4096 = 0 := by
  simp [h.eraseEnd, ceilTo, sectorSize]

/-- The capacity is a whole number of sectors, so rounding up stays inside it. -/
theorem WriteCursors.eraseEnd_le_capacity {s : State} (h : WriteCursors s) (hc : s.cfg.Legal) :
    s.eend.toNat ≤ s.cfg.capacity := by
  have := legal_capacity_mod hc
  have := h.bound
  simp only [h.eraseEnd, ceilTo, sectorSize]
  omega

theorem Invariant.steady {s : State} (h : Invariant s) : Steady s :=
  { h, h.controller with }

theorem Invariant.arbitrated {s : State} (h : Invariant s) : Arbitrated s :=
  ⟨fun hl => (h.unlaunched hl).2, h.arbiter⟩

theorem Invariant.launched_of_active {s : State} (h : Invariant s) (hp : s.phase ≠ .idle) : s.launched = true := by
  by_contra hl
  exact hp (h.unlaunched (by simpa using hl)).1

/-- In a phase that sends a command the device is not busy (R42 (d), R196). -/
theorem Invariant.not_busy {s : State} (h : Invariant s) (hp : s.phase.inCommand = true) :
    s.devState.busy = false := by
  have hi : s.phase ≠ .idle := by rintro he; simp [he, Phase.inCommand] at hp
  exact h.arbiter (h.launched_of_active hi) (h.controller.commandNotBusy hp)

/-- The cursors of a write in progress, from the invariant (R22, R27, R28). -/
theorem Invariant.writing {s : State} (h : Invariant s) (hp : s.phase.inErase = true ∨ s.phase.inProgram = true) :
    Writing s := by
  have hi : s.phase ≠ .idle := by rintro he; simp [he, Phase.inErase, Phase.inProgram] at hp
  exact ⟨h.launched_of_active hi, h.writeOp hp, h.cursors hi (h.writeOp hp)⟩

theorem Invariant.eraseLeft {s : State} (h : Invariant s) (hp : s.phase = .eraseWren ∨ s.phase = .eraseCmd) :
    EraseLeft s := by
  have he : s.phase.inErase = true := by rcases hp with hp | hp <;> rw [hp] <;> rfl
  have hc : s.phase.inCommand = true := by rcases hp with hp | hp <;> rw [hp] <;> rfl
  have hw := h.writing (.inl he)
  exact ⟨hw, h.unwritten (.inr he) hw.writeOp, h.controller.commandNotBusy hc, h.controller.eraseLeft hp⟩

theorem Invariant.rangeErased {s : State} (h : Invariant s) (hp : s.phase.inProgram = true) : s.ecur = s.eend := by
  obtain ⟨-, -, -, -, he⟩ := h.controller.programCursors hp
  exact he

theorem Invariant.programLeft {s : State} (h : Invariant s) (hp : s.phase = .progWren ∨ s.phase = .progCmd) :
    ProgramLeft s := by
  have he : s.phase.inProgram = true := by rcases hp with hp | hp <;> rw [hp] <;> rfl
  have hc : s.phase.inCommand = true := by rcases hp with hp | hp <;> rw [hp] <;> rfl
  exact ⟨h.writing (.inr he), h.rangeErased he, h.controller.commandNotBusy hc, h.controller.programLeft hp⟩

theorem Invariant.claim {s : State} (h : Invariant s) : s.phase.Claim s := by
  have hl := h.launched_of_active
  have hq := h.controller.commandNotBusy
  cases hp : s.phase <;> rw [hp] at hl hq
  case idle => trivial
  case prePoll =>
    exact ⟨hl nofun, h.pollOp hp, fun h1 =>
      ⟨h.cursors (hp ▸ nofun) h1, h.unerased hp h1, h.unwritten (.inl hp) h1⟩⟩
  case eraseWren => exact h.eraseLeft (.inl hp)
  case eraseCmd => exact ⟨h.eraseLeft (.inr hp), h.latched (.inl hp)⟩
  case erasePoll =>
    have he : s.phase.inErase = true := congrArg Phase.inErase hp
    have hw := h.writing (.inl he)
    exact ⟨hw, h.unwritten (.inr he) hw.writeOp, h.polled (.inl hp)⟩
  case progWren => exact h.programLeft (.inl hp)
  case progCmd => exact ⟨h.programLeft (.inr hp), h.latched (.inr hp)⟩
  case progPoll =>
    have he : s.phase.inProgram = true := congrArg Phase.inProgram hp
    exact ⟨h.writing (.inr he), h.rangeErased he, h.polled (.inr hp)⟩
  case idCmd => exact ⟨hl nofun, h.idOp hp, hq rfl⟩
  case uidCmd => exact ⟨hl nofun, h.uidOp hp, hq rfl⟩

/-! What the claims of several phases have in common. -/

theorem launched_of_claim {p : Phase} {s : State} (h : p.Claim s) (hp : p ≠ .idle) : s.launched = true := by
  cases p with
  | idle => exact absurd rfl hp
  | prePoll | eraseWren | progWren | idCmd | uidCmd => exact h.launched
  | eraseCmd | erasePoll | progCmd | progPoll => exact h.1.launched

theorem writing_of_claim {p : Phase} {s : State} (h : p.Claim s) (hp : p.inErase = true ∨ p.inProgram = true) :
    Writing s := by
  cases p with
  | idle | prePoll | idCmd | uidCmd => simp [Phase.inErase, Phase.inProgram] at hp
  | eraseWren | progWren => exact h.toWriting
  | eraseCmd | progCmd => exact h.1.toWriting
  | erasePoll | progPoll => exact h.1

theorem eraseLeft_of_claim {p : Phase} {s : State} (h : p.Claim s) (hp : p = .eraseWren ∨ p = .eraseCmd) :
    EraseLeft s := by
  rcases hp with rfl | rfl
  · exact h
  · exact h.1

theorem programLeft_of_claim {p : Phase} {s : State} (h : p.Claim s) (hp : p = .progWren ∨ p = .progCmd) :
    ProgramLeft s := by
  rcases hp with rfl | rfl
  · exact h
  · exact h.1

theorem rangeErased_of_claim {p : Phase} {s : State} (h : p.Claim s) (hp : p.inProgram = true) : s.ecur = s.eend := by
  cases p with
  | progWren => exact h.erased
  | progCmd => exact h.1.erased
  | progPoll => exact h.2.1
  | _ => simp [Phase.inProgram] at hp

theorem notBusy_of_claim {p : Phase} {s : State} (h : p.Claim s) (hp : p.inCommand = true) : s.maybeBusy = false := by
  cases p with
  | eraseWren | progWren | idCmd | uidCmd => exact h.quiet
  | eraseCmd | progCmd => exact h.1.quiet
  | idle | prePoll | erasePoll | progPoll => simp [Phase.inCommand] at hp

theorem unwritten_of_claim {p : Phase} {s : State} (h : p.Claim s) (hp : p = .prePoll ∨ p.inErase = true)
    (h1 : s.reqOp = 1) : s.pcur.toNat = s.reqAddr.toNat := by
  cases p with
  | prePoll => exact (h.start h1).2.2
  | eraseWren => exact h.unwritten
  | eraseCmd => exact h.1.unwritten
  | erasePoll => exact h.2.1
  | _ => simp [Phase.inErase] at hp

theorem cursors_of_claim {p : Phase} {s : State} (h : p.Claim s) (hp : p ≠ .idle) (h1 : s.reqOp = 1) :
    WriteCursors s := by
  cases p with
  | idle => exact absurd rfl hp
  | prePoll => exact (h.start h1).1
  | eraseWren | progWren => exact h.cursors
  | eraseCmd | erasePoll | progCmd | progPoll => exact h.1.cursors
  | idCmd | uidCmd => simp [h.queryOp] at h1

/-- R42, from the claim of the phase. -/
theorem controllerInvariants_of_claim {s : State} (hs : Steady s) (hc : s.phase.Claim s) : ControllerInvariants s :=
  { hs with
    eraseCursors := fun hp =>
      have hw := (writing_of_claim hc (.inl hp)).cursors
      ⟨hw.eraseTop, hw.aligned, hw.eraseEnd_aligned,
        hw.eraseEnd_le_capacity ((configOk_iff s).mp hs.config).1⟩
    eraseLeft := fun hp => (eraseLeft_of_claim hc hp).left
    programCursors := fun hp =>
      have hw := (writing_of_claim hc (.inr hp)).cursors
      ⟨hw.progLow, hw.progTop, hw.ends, hw.ends ▸ hw.bound, rangeErased_of_claim hc hp⟩
    programLeft := fun hp => (programLeft_of_claim hc hp).left
    commandNotBusy := notBusy_of_claim hc }

/-- The invariant is its steady part, the arbiter's knowledge, and the claim of the phase the state is in. -/
theorem invariant_iff (s : State) : Invariant s ↔ Steady s ∧ Arbitrated s ∧ s.phase.Claim s := by
  refine ⟨fun h => ⟨h.steady, h.arbitrated, h.claim⟩, fun ⟨hs, ha, hc⟩ => ?_⟩
  exact { hs with
    controller := controllerInvariants_of_claim hs hc
    unlaunched := fun hl => ⟨by_contra fun hp => by simp [launched_of_claim hc hp] at hl, ha.fresh hl⟩
    arbiter := ha.known
    latched := by
      rintro (hp | hp) <;> rw [hp] at hc
      · exact hc.2
      · exact hc.2
    polled := by
      rintro (hp | hp) <;> rw [hp] at hc
      · exact hc.2.2
      · exact hc.2.2
    writeOp := fun hp => (writing_of_claim hc hp).writeOp
    idOp := fun hp => (hp ▸ hc : Phase.idCmd.Claim s).queryOp
    uidOp := fun hp => (hp ▸ hc : Phase.uidCmd.Claim s).queryOp
    pollOp := fun hp => (hp ▸ hc : Phase.prePoll.Claim s).someOp
    cursors := cursors_of_claim hc
    unerased := fun hp h1 => ((hp ▸ hc : Phase.prePoll.Claim s).start h1).2.1
    unwritten := unwritten_of_claim hc }

/-! ## The invariant under the shared updates -/

theorem Invariant.tick {s : State} (h : Invariant s) : Invariant s.tick :=
  { h with
    controller := { h.controller with }
    cursors := fun hp h1 => { h.cursors hp h1 with } }

theorem Invariant.busFrame {s : State} (h : Invariant s) (d : Descriptor) (o : FrameOutcome) :
    Invariant (busFrame d o s) :=
  { h with
    controller := { h.controller with selectInactive := rfl }
    cursors := fun hp h1 => { h.cursors hp h1 with } }

/-- The sequencer may go wherever the claim holds: the rest of the invariant does not speak of the phase. -/
theorem Invariant.goto {s : State} (h : Invariant s) {p : Phase} (hc : p.Claim { s with phase := p }) :
    Invariant { s with phase := p } :=
  (invariant_iff _).mpr ⟨{ h.steady with }, { h.arbitrated with }, hc⟩

theorem invariant_raise_of_steady {s : State} (k : ErrorKind) (hs : Steady s) (ha : Arbitrated s) :
    Invariant (raise k s) :=
  (invariant_iff _).mpr ⟨{ hs with }, { ha with }, trivial⟩

theorem invariant_respond_of_steady {s : State} (v : U32) (hs : Steady s) (ha : Arbitrated s) :
    Invariant (respond v s) :=
  (invariant_iff _).mpr ⟨{ hs with }, { ha with }, trivial⟩

/-- After the first request, a set `MAYBE_BUSY` claims nothing of the device. -/
theorem arbitrated_of_maybeBusy {s : State} (hl : s.launched = true) (hb : s.maybeBusy = true) : Arbitrated s :=
  ⟨fun h => by simp [h] at hl, fun _ h => by simp [h] at hb⟩

theorem Steady.busFrame {s : State} (h : Steady s) (d : Descriptor) (o : FrameOutcome) : Steady (busFrame d o s) :=
  { h with selectInactive := rfl }

/-- The device may take up any legal operation and leave any canonical array. -/
theorem Steady.react {s : State} (h : Steady s) {d : DevState} {m : Memory} (hd : d.legal s.cfg) (hm : m.wf)
    (hb : ∀ c ∈ m, c.1 < s.cfg.capacity) : Steady { s with devState := d, flash := m } :=
  { h with flash := hm, flashEnd := hb, device := hd }

/-- What holds before a frame and after the device's reaction holds whether the device received it or not (R88). -/
theorem deliver_cases {P : State → Prop} {s : State} {a : DeviceReply} (h : P s)
    (ha : P { s with devState := a.devState, flash := a.flash }) : P (deliver a s) := by
  cases hr : s.input.transport.received <;> simpa [deliver, hr]

/-! ## Reset and the device's step -/

theorem invariant_controllerReset {s : State} (h : Invariant s) : Invariant (controllerReset s) :=
  (invariant_iff _).mpr
    ⟨{ h.steady with
        selectInactive := rfl
        pollBound := legal_pollMax ((configOk_iff s).mp h.config).1
        idCache := nofun, uidCache := nofun, idCode := nofun
        idWidth := List.length_replicate
        uidWidth := List.length_replicate },
      ⟨fun _ => rfl, nofun⟩, trivial⟩

/-- An operation completes into any canonical array: no phase before a command has one in progress. -/
theorem Invariant.complete {s : State} (h : Invariant s) (hb : s.devState.busy = true) {m : Memory} (hm : m.wf)
    (he : ∀ c ∈ m, c.1 < s.cfg.capacity) : Invariant { s with flash := m, devState := .idle } :=
  { h with
    controller := { h.controller with }
    flash := hm
    flashEnd := he
    device := trivial
    arbiter := fun _ _ => rfl
    latched := fun hp => by simp [h.latched hp, DevState.busy] at hb
    polled := fun _ => nofun
    cursors := fun hp h1 => { h.cursors hp h1 with } }

theorem invariant_deviceComplete {s : State} (h : Invariant s) : Invariant (deviceComplete s) := by
  have hl := h.device
  unfold deviceComplete
  cases hd : s.devState with
  | idle => exact h
  | writeEnabled => exact h
  | erasing a size =>
    obtain ⟨-, -, hc⟩ := hd ▸ hl
    exact h.complete (by simp [hd, DevState.busy]) (Memory.wf_write h.flash _ _)
      (Memory.bounded_write h.flashEnd _ _ (by simpa using hc))
  | programming a data old =>
    obtain ⟨-, -, -, hc, ho⟩ := hd ▸ hl
    exact h.complete (by simp [hd, DevState.busy]) (Memory.wf_write h.flash _ _)
      (Memory.bounded_write h.flashEnd _ _ (by simpa [ho] using hc))

/-! ## The accept steps -/

/-- The cursors' 33 bits hold every end of a range inside the capacity (R27). -/
theorem toNat_cursor {n : Nat} (h : n ≤ 2 ^ 32) : (BitVec.ofNat 33 n).toNat = n := by
  simp only [BitVec.toNat_ofNat]
  omega

theorem toNat_cursor_add {c : Cursor} {n : Nat} (h : c.toNat + n ≤ 2 ^ 32) :
    (c + BitVec.ofNat 33 n).toNat = c.toNat + n := by
  simp only [BitVec.toNat_add, BitVec.toNat_ofNat]
  omega

/-- The accept step starts the cursors at the ends of the request and of its rounded range (R181). -/
theorem writeCursors_of_accepted {s : State} (hl : s.cfg.Legal) (h0 : s.reqLen ≠ 0)
    (hb : s.reqAddr.toNat + s.reqLen.toNat ≤ s.cfg.capacity)
    (he : s.ecur = BitVec.ofNat 33 (floorTo sectorSize s.reqAddr.toNat))
    (hee : s.eend = BitVec.ofNat 33 (ceilTo sectorSize (s.reqAddr.toNat + s.reqLen.toNat)))
    (hp : s.pcur = BitVec.ofNat 33 s.reqAddr.toNat)
    (hpe : s.pend = BitVec.ofNat 33 (s.reqAddr.toNat + s.reqLen.toNat)) :
    WriteCursors s ∧ s.ecur.toNat = s.roundedStart ∧ s.pcur.toNat = s.reqAddr.toNat := by
  have hc := legal_capacity_le hl
  have hm := legal_capacity_mod hl
  have hn : 0 < s.reqLen.toNat := Nat.pos_of_ne_zero fun h => h0 (BitVec.eq_of_toNat_eq h)
  have e1 : s.ecur.toNat = s.reqAddr.toNat / 4096 * 4096 := by
    rw [he, toNat_cursor]
    · rfl
    · simp only [floorTo, sectorSize]
      omega
  have e2 : s.eend.toNat = (s.reqAddr.toNat + s.reqLen.toNat + 4096 - 1) / 4096 * 4096 := by
    rw [hee, toNat_cursor]
    · rfl
    · simp only [ceilTo, sectorSize]
      omega
  have e3 : s.pcur.toNat = s.reqAddr.toNat := by rw [hp, toNat_cursor (by omega)]
  have e4 : s.pend.toNat = s.reqAddr.toNat + s.reqLen.toNat := by rw [hpe, toNat_cursor (by omega)]
  refine ⟨⟨hn, hb, e4, e2, ?_, ?_, ?_, ?_, ?_⟩, e1, e3⟩
  · exact e1.ge
  all_goals omega

theorem WriteCursors.start_lt_eraseEnd {s : State} (h : WriteCursors s) : s.roundedStart < s.eend.toNat := by
  have := h.nonempty
  simp only [State.roundedStart, h.eraseEnd, floorTo, ceilTo, sectorSize]
  omega

/-- A write whose cursors stand at the start has a unit to erase. -/
theorem Waiting.eraseLeft {s : State} (h : Waiting s) (h1 : s.reqOp = 1) (hq : s.maybeBusy = false) : EraseLeft s := by
  obtain ⟨hw, he, hp⟩ := h.start h1
  exact ⟨⟨h.launched, h1, hw⟩, hp, hq, he ▸ hw.start_lt_eraseEnd⟩

/-- A request starts in the phase of its command, or waits if the device may be busy (R182, R221, R224). -/
theorem claim_of_start {s : State} {cmd : Phase} (hp : s.phase = if s.maybeBusy then .prePoll else cmd)
    (h : Waiting s) (hc : Waiting s → s.maybeBusy = false → cmd.Claim s) : s.phase.Claim s := by
  rw [hp]
  split
  · exact h
  · next hq => exact hc h (by simpa using hq)

theorem invariant_acceptWrite {s : State} (hs : Steady s) (ha : Arbitrated s) (hl : s.launched = true)
    (h1 : s.reqOp = 1) : Invariant (acceptWrite s.reqAddr s.reqLen s) := by
  have hcfg := ((configOk_iff s).mp hs.config).1
  unfold acceptWrite
  split
  · exact invariant_raise_of_steady _ hs ha
  · next hb =>
    split
    · exact invariant_respond_of_steady _ hs ha
    · next h0 =>
      refine (invariant_iff _).mpr ⟨{ hs with pollBound := legal_pollMax hcfg }, { ha with }, ?_⟩
      refine claim_of_start (cmd := .eraseWren) rfl ⟨hl, by simp [h1], fun _ => ?_⟩ fun hw hq => hw.eraseLeft h1 hq
      exact writeCursors_of_accepted hcfg h0 (Nat.not_lt.mp hb) rfl rfl rfl rfl

theorem invariant_startQuery {s : State} {cmd : Phase} (hs : Steady s) (ha : Arbitrated s) (hl : s.launched = true)
    (h0 : s.reqOp ≠ 0) (h1 : s.reqOp ≠ 1) (hc : ∀ t : State, Querying s.reqOp t → cmd.Claim t) :
    Invariant (startQuery cmd s) := by
  have hcfg := ((configOk_iff s).mp hs.config).1
  exact (invariant_iff _).mpr ⟨{ hs with pollBound := legal_pollMax hcfg }, { ha with },
    claim_of_start rfl ⟨hl, h0, fun h => absurd h h1⟩ fun _ hq => hc _ ⟨hl, rfl, hq⟩⟩

/-- Every request is accepted into a state that meets the invariant. -/
theorem invariant_exec_request {s t : State} (hs : Steady s) (ha : Arbitrated s) (hl : s.launched = true)
    (hp : s.phase = .idle) (w : BitVec 66) (he : exec (decodeRequest w) s = .next t) : Invariant t := by
  have hs' (op a l) : Steady (latchRequest op a l s) := { hs with }
  have ha' (op a l) : Arbitrated (latchRequest op a l s) := { ha with }
  obtain ⟨a, l, hw⟩ := decodeRequest_cases w
  obtain ⟨hwrite, hid, huid, hres⟩ := exec_request_idle hp a l
  rcases hw with hw | hw | hw | hw <;> rw [hw] at he
  · obtain rfl := Host.Outcome.next.inj (hwrite.symm.trans he)
    exact invariant_acceptWrite (hs' 1 a l) (ha' 1 a l) hl rfl
  · obtain rfl := Host.Outcome.next.inj (hid.symm.trans he)
    split
    · exact invariant_respond_of_steady _ (hs' 2 a l) (ha' 2 a l)
    · exact invariant_startQuery (hs' 2 a l) (ha' 2 a l) hl (by simp) (by simp) fun _ => id
  · obtain rfl := Host.Outcome.next.inj (huid.symm.trans he)
    split
    · exact invariant_respond_of_steady _ (hs' 3 a l) (ha' 3 a l)
    · exact invariant_startQuery (hs' 3 a l) (ha' 3 a l) hl (by simp) (by simp) fun _ => id
  · obtain rfl := Host.Outcome.next.inj (hres.symm.trans he)
    exact invariant_raise_of_steady _ (hs' 0 a l) (ha' 0 a l)

theorem invariant_acceptStep {s t : State} (h : Invariant s) (hp : s.phase = .idle) (ht : acceptStep s = .next t) :
    Invariant t := by
  rcases acceptStep_next ht with ⟨-, rfl⟩ | ⟨r, rest, -, hl, he⟩
  · exact h
  · refine invariant_exec_request (s := takeRequest r rest s) { h.steady with } ⟨nofun, fun _ hq => ?_⟩ rfl hp
      r.word he
    rcases hl with hl | hd
    · exact h.arbiter hl hq
    · simp [hd, DevState.busy]

/-! ## The phase steps -/

/-- A frame that the device accepts, in the two ways it can end: it succeeds and the device has reacted, or it fails
and the device has reacted if it received it (R88). -/
theorem sendFrame_accepted {d : Descriptor} {a : DeviceReply} {k : FrameOutcome → State → State} {s t : State}
    (h : sendFrame d (.ok a) k s = .next t) :
    t = k (.ok a.bytes) (busFrame d (.ok a.bytes) { s with devState := a.devState, flash := a.flash }) ∨
    ∃ e, t = k (.err e) (busFrame d (.err e) (deliver a s)) := by
  rw [sendFrame_ok] at h
  obtain rfl := Host.Outcome.next.inj h
  cases hr : s.input.transport with
  | ok => exact .inl (by simp [deliver, hr, Transport.received, Transport.outcome])
  | fail e r => exact .inr ⟨e, rfl⟩

theorem Invariant.raise {s : State} (h : Invariant s) (k : ErrorKind) : Invariant (raise k s) :=
  invariant_raise_of_steady k h.steady h.arbitrated

/-- Before an erase or a program the device may be write-enabled (R69). -/
theorem Invariant.writeEnable {s : State} (h : Invariant s) (hp : s.phase = .eraseWren ∨ s.phase = .progWren) :
    Invariant { s with devState := .writeEnabled } := by
  refine (invariant_iff _).mpr ⟨h.steady.react trivial h.flash h.flashEnd, ⟨h.arbitrated.fresh, fun _ _ => rfl⟩, ?_⟩
  have hc := h.claim
  rcases hp with hp | hp <;> simp only [hp] at hc ⊢ <;> exact { hc with cursors := { hc.cursors with } }

/-- After a write-enable the sequencer goes on to the command it enables (R186, R189). -/
theorem Invariant.enabled {s : State} (h : Invariant s) (hp : s.phase = .eraseWren ∨ s.phase = .progWren)
    (hd : s.devState = .writeEnabled) (bytes : List Byte) : Invariant (afterWriteEnable (.ok bytes) s) := by
  have hc := h.claim
  unfold afterWriteEnable
  rcases hp with hp | hp <;> simp only [hp] at hc ⊢ <;>
    exact h.goto ⟨{ hc with cursors := { hc.cursors with } }, hd⟩

/-- The write-enable step (R186, R189): the device is not busy, so it takes the latch if it receives the frame. -/
theorem invariant_execWren {s t : State} (h : Invariant s) (hp : s.phase = .eraseWren ∨ s.phase = .progWren)
    (ht : execWren s = .next t) : Invariant t := by
  have hb := h.not_busy (by rcases hp with hp | hp <;> rw [hp] <;> rfl)
  rw [execWren, devWriteEnable_of_not_busy hb] at ht
  have he := h.writeEnable hp
  rcases sendFrame_accepted ht with rfl | ⟨e, rfl⟩
  · exact (he.busFrame _ _).enabled (by simpa using hp) (by simp) _
  · exact ((deliver_cases h he).busFrame _ _).raise _

/-- The erase cursor moves over a unit that ends inside the range (R187). -/
theorem WriteCursors.advanceErase {s : State} (h : WriteCursors s) (hc : s.eend.toNat ≤ 2 ^ 32) {size : Nat}
    (hb : s.ecur.toNat + size ≤ s.eend.toNat) (hm : (s.ecur.toNat + size) % 4096 = 0) :
    WriteCursors { s with ecur := s.ecur + BitVec.ofNat 33 size } := by
  have hcur := toNat_cursor_add (c := s.ecur) (n := size) (by omega)
  exact { h with
    eraseLow := hcur ▸ Nat.le_add_right_of_le h.eraseLow
    eraseTop := hcur ▸ hb
    aligned := hcur ▸ hm }

/-- The program cursor moves over a chunk that ends inside the request (R190). -/
theorem WriteCursors.advanceProgram {s : State} (h : WriteCursors s) (hc : s.pend.toNat ≤ 2 ^ 32) {n : Nat}
    (hb : s.pcur.toNat + n ≤ s.pend.toNat) : WriteCursors { s with pcur := s.pcur + BitVec.ofNat 33 n } := by
  have hcur := toNat_cursor_add (c := s.pcur) (n := n) (by omega)
  exact { h with
    progLow := hcur ▸ Nat.le_add_right_of_le h.progLow
    progTop := hcur ▸ hb }

theorem Writing.busFrame {s : State} (h : Writing s) (d : Descriptor) (o : FrameOutcome) : Writing (busFrame d o s) :=
  { h with cursors := { h.cursors with } }

theorem Writing.react {s : State} (h : Writing s) (d : DevState) (m : Memory) :
    Writing { s with devState := d, flash := m } :=
  { h with cursors := { h.cursors with } }

/-- After an erase or a program frame `MAYBE_BUSY` is set, so a failed one claims nothing more of the device (R187,
R190, R252). -/
theorem invariant_raise_maybeBusy {s : State} (k : ErrorKind) (hs : Steady s) (hl : s.launched = true) :
    Invariant (raise k { s with maybeBusy := true }) :=
  invariant_raise_of_steady k { hs with } (arbitrated_of_maybeBusy hl rfl)

theorem invariant_afterErase_err {s : State} (hs : Steady s) (hl : s.launched = true) (size : Nat)
    (e : TransportError) : Invariant (afterErase size (.err e) s) :=
  invariant_raise_maybeBusy _ hs hl

theorem invariant_afterProgram_err {s : State} (hs : Steady s) (hl : s.launched = true) (n : Nat)
    (e : TransportError) : Invariant (afterProgram n (.err e) s) :=
  invariant_raise_maybeBusy _ hs hl

/-- The unit's erase has started: the cursor moves to the unit's end and an episode begins (R187). -/
theorem invariant_afterErase_ok {s : State} (hs : Steady s) (hw : Writing s)
    (hu : s.pcur.toNat = s.reqAddr.toNat) (hd : s.devState ≠ .writeEnabled) {size : Nat}
    (hb : s.ecur.toNat + size ≤ s.eend.toNat) (hm : (s.ecur.toNat + size) % 4096 = 0) (bytes : List Byte) :
    Invariant (afterErase size (.ok bytes) s) := by
  have hcfg := ((configOk_iff s).mp hs.config).1
  have hend := (hw.cursors.eraseEnd_le_capacity hcfg).trans (legal_capacity_le hcfg)
  refine (invariant_iff _).mpr ⟨{ hs with pollBound := legal_pollMax hcfg },
    arbitrated_of_maybeBusy hw.launched rfl, ?_, hu, hd⟩
  exact { hw with cursors := { hw.cursors.advanceErase hend hb hm with } }

/-- The chunk's program has started: the cursor moves to the chunk's end and an episode begins (R190). -/
theorem invariant_afterProgram_ok {s : State} (hs : Steady s) (hw : Writing s) (he : s.ecur = s.eend)
    (hd : s.devState ≠ .writeEnabled) {n : Nat} (hb : s.pcur.toNat + n ≤ s.pend.toNat) (bytes : List Byte) :
    Invariant (afterProgram n (.ok bytes) s) := by
  have hcfg := ((configOk_iff s).mp hs.config).1
  have hend : s.pend.toNat ≤ 2 ^ 32 := hw.cursors.ends ▸ hw.cursors.bound.trans (legal_capacity_le hcfg)
  refine (invariant_iff _).mpr ⟨{ hs with pollBound := legal_pollMax hcfg },
    arbitrated_of_maybeBusy hw.launched rfl, ?_, he, hd⟩
  exact { hw with cursors := { hw.cursors.advanceProgram hend hb with } }

/-- The erase step (R187): the latch is set and the unit is legal, so the device takes it if it receives it (R70). -/
theorem invariant_eraseCmd {s t : State} (h : Invariant s) (hp : s.phase = .eraseCmd)
    (ht : controllerStep s = .next t) : Invariant t := by
  have hcfg := ((configOk_iff s).mp h.config).1
  obtain ⟨he, hd⟩ : EraseLeft s ∧ s.devState = .writeEnabled := (hp ▸ h.claim : Phase.eraseCmd.Claim s)
  have hal := he.cursors.aligned
  have hee := he.cursors.eraseEnd_aligned
  have hcap := he.cursors.eraseEnd_le_capacity hcfg
  obtain ⟨hu, ha, hb, hm⟩ := nextUnit_bounds he.left hal hee
  rw [controllerStep_eraseCmd hcfg hp ⟨he.left, hal, hee, hcap⟩, devErase_of_enabled hd ha (hb.trans hcap)] at ht
  generalize nextUnitSize s.ecur.toNat s.eend.toNat = size at *
  have hs : Steady { s with devState := .erasing s.ecur.toNat size, flash := s.flash.forget s.ecur.toNat size } :=
    h.steady.react ⟨hu, ha, hb.trans hcap⟩ (Memory.wf_forget h.flash _ _) (Memory.bounded_forget h.flashEnd _ _)
  rcases sendFrame_accepted ht with rfl | ⟨e, rfl⟩
  · exact invariant_afterErase_ok (hs.busFrame _ _) ((he.toWriting.react _ _).busFrame _ _)
      (by simpa using he.unwritten) (by simp) (by simpa using hb) (by simpa using hm) _
  · exact invariant_afterErase_err ((deliver_cases h.steady hs).busFrame _ _) (by simpa using he.launched) _ e

/-- The program step (R190): the latch is set and the chunk is legal, so the device takes it if it receives it
(R71). -/
theorem invariant_progCmd {s t : State} (h : Invariant s) (hp : s.phase = .progCmd)
    (ht : controllerStep s = .next t) : Invariant t := by
  have hcfg := ((configOk_iff s).mp h.config).1
  obtain ⟨hl, hd⟩ : ProgramLeft s ∧ s.devState = .writeEnabled := (hp ▸ h.claim : Phase.progCmd.Claim s)
  have hcap : s.pend.toNat ≤ s.cfg.capacity := hl.cursors.ends ▸ hl.cursors.bound
  obtain ⟨h1, hpage, hb⟩ := nextChunk_bounds (legal_pageSize hcfg).1 hl.left
  cases hbuf : s.bufRead s.pcur.toNat (nextChunkLen s.cfg.pageSize s.pcur.toNat s.pend.toNat) with
  | none => simp [controllerStep_progCmd_short hp hbuf] at ht
  | some data =>
    rw [← (bufRead_length hbuf).1] at h1 hpage hb
    rw [controllerStep_progCmd hcfg hp ⟨hl.left, hcap⟩ hbuf, devProgram_of_enabled hd h1 hpage (hb.trans hcap)] at ht
    have hs : Steady { s with
        devState := .programming s.pcur.toNat data (s.flash.readRange s.pcur.toNat data.length)
        flash := s.flash.forget s.pcur.toNat data.length } :=
      h.steady.react ⟨h1, by omega, hpage, hb.trans hcap, by simp⟩ (Memory.wf_forget h.flash _ _)
        (Memory.bounded_forget h.flashEnd _ _)
    rcases sendFrame_accepted ht with rfl | ⟨e, rfl⟩
    · exact invariant_afterProgram_ok (hs.busFrame _ _) ((hl.toWriting.react _ _).busFrame _ _)
        (by simpa using hl.erased) (by simp) (by simpa using hb) _
    · exact invariant_afterProgram_err ((deliver_cases h.steady hs).busFrame _ _) (by simpa using hl.launched) _ e

/-! ## Polling -/

/-- An episode that ended not busy goes on to the next command of its request, or ends it (R188, R191, R195). -/
theorem invariant_leaveEpisode {s : State} (h : Invariant s) (hq : s.maybeBusy = false) :
    Invariant (leaveEpisode s) := by
  have hc := h.claim
  unfold leaveEpisode
  cases hp : s.phase <;> simp only [hp] at hc ⊢
  case erasePoll =>
    obtain ⟨hw, hu, -⟩ := hc
    have hcur := hw.cursors
    split
    · next hlt => exact h.goto { hw with cursors := { hcur with }, unwritten := hu, quiet := hq, left := hlt }
    · next hlt =>
      have hend : s.ecur = s.eend := BitVec.eq_of_toNat_eq (Nat.le_antisymm hcur.eraseTop (Nat.not_lt.mp hlt))
      have hleft : s.pcur.toNat < s.pend.toNat := by have := hcur.ends; have := hcur.nonempty; omega
      exact h.goto { hw with cursors := { hcur with }, erased := hend, quiet := hq, left := hleft }
  case progPoll =>
    obtain ⟨hw, he, -⟩ := hc
    split
    · next hlt => exact h.goto { hw with cursors := { hw.cursors with }, erased := he, quiet := hq, left := hlt }
    · exact invariant_respond_of_steady _ h.steady h.arbitrated
  case prePoll =>
    split
    · next h1 =>
      have he := hc.eraseLeft h1 hq
      exact h.goto { he with cursors := { he.cursors with } }
    · split
      · next h2 => exact h.goto ⟨hc.launched, h2, hq⟩
      · split
        · next h3 => exact h.goto ⟨hc.launched, h3, hq⟩
        · exact h
  all_goals exact h

/-- The poll step, on a byte that tells whether the device is busy (R193, R194). -/
theorem invariant_pollByte {s : State} (h : Invariant s) {b : Byte} (hb : statusBusy s.cfg b = s.devState.busy) :
    Invariant (pollByte b s) := by
  have hcfg := ((configOk_iff s).mp h.config).1
  unfold pollByte
  split
  · split
    · exact h.raise _
    · next hne =>
      have hlt : s.pollCnt + 1 < s.cfg.pollMax := by have := h.controller.pollBound; omega
      exact { h with
        controller := { h.controller with pollBound := hlt }
        cursors := fun hp h1 => { h.cursors hp h1 with } }
  · next hn =>
    have hd : s.devState.busy = false := by rw [← hb]; simpa using hn
    refine invariant_leaveEpisode ?_ rfl
    exact { h with
      controller := { h.controller with pollBound := legal_pollMax hcfg, commandNotBusy := fun _ => rfl }
      unlaunched := fun hl => ⟨(h.unlaunched hl).1, rfl⟩
      arbiter := fun _ _ => hd
      cursors := fun hp h1 => { h.cursors hp h1 with } }

/-- A frame that the device answers without changing its state: what follows starts from the state with the frame on
the bus (R74 to R76). -/
theorem sendFrame_unchanged {d : Descriptor} {bytes : List Byte} {k : FrameOutcome → State → State} {s t : State}
    (h : sendFrame d (.ok ⟨s.devState, s.flash, bytes⟩) k s = .next t) :
    t = k (.ok bytes) (busFrame d (.ok bytes) s) ∨ ∃ e, t = k (.err e) (busFrame d (.err e) s) := by
  have hd : deliver ⟨s.devState, s.flash, bytes⟩ s = s := by simp [deliver]
  simpa only [hd] using sendFrame_accepted h

theorem invariant_execRdsr {s t : State} (h : Invariant s) (ht : execRdsr s = .next t) : Invariant t := by
  have hcfg := ((configOk_iff s).mp h.config).1
  rcases sendFrame_unchanged ht with rfl | ⟨e, rfl⟩
  · exact invariant_pollByte (h.busFrame _ _) (statusBusy_statusByte hcfg _ _)
  · exact (h.busFrame _ _).raise _

/-! ## Identification -/

/-- Before an identification frame the device is not busy, so it answers its constant (R75, R76). -/
theorem Invariant.devIdentify {s : State} (h : Invariant s) (hp : s.phase = .idCmd ∨ s.phase = .uidCmd)
    (ident : List Byte) : devIdentify ident s = .ok ⟨s.devState, s.flash, ident⟩ := by
  have hb := h.not_busy (by rcases hp with hp | hp <;> rw [hp] <;> rfl)
  exact devIdentify_of_not_busy hb ident

/-- The device's own constant fills the cache (R222, R42 (f)). -/
theorem Invariant.afterReadId {s : State} (h : Invariant s) : Invariant (afterReadId (.ok s.devId) s) := by
  obtain ⟨-, hid, -⟩ := (configOk_iff s).mp h.config
  exact invariant_respond_of_steady _ { h.steady with idCache := fun _ => rfl, idWidth := hid, idCode := fun _ => rfl }
    { h.arbitrated with }

theorem Invariant.afterReadUniqueId {s : State} (h : Invariant s) :
    Invariant (afterReadUniqueId (.ok s.devUid) s) := by
  obtain ⟨-, -, huid⟩ := (configOk_iff s).mp h.config
  exact invariant_respond_of_steady _ { h.steady with uidCache := fun _ => rfl, uidWidth := huid } { h.arbitrated with }

theorem invariant_execRdid {s t : State} (h : Invariant s) (hp : s.phase = .idCmd) (ht : execRdid s = .next t) :
    Invariant t := by
  rw [execRdid, h.devIdentify (.inl hp)] at ht
  rcases sendFrame_unchanged ht with rfl | ⟨e, rfl⟩
  · exact (h.busFrame _ _).afterReadId
  · exact (h.busFrame _ _).raise _

theorem invariant_execRuid {s t : State} (h : Invariant s) (hp : s.phase = .uidCmd) (ht : execRuid s = .next t) :
    Invariant t := by
  rw [execRuid, h.devIdentify (.inr hp)] at ht
  rcases sendFrame_unchanged ht with rfl | ⟨e, rfl⟩
  · exact (h.busFrame _ _).afterReadUniqueId
  · exact (h.busFrame _ _).raise _

/-! ## Every step -/

theorem invariant_controllerStep {s t : State} (h : Invariant s) (ht : controllerStep s = .next t) : Invariant t := by
  have hcfg := ((configOk_iff s).mp h.config).1
  cases hp : s.phase with
  | idle => exact invariant_acceptStep h hp (controllerStep_idle hp ▸ ht)
  | eraseWren => exact invariant_execWren h (.inl hp) (controllerStep_wren (.inl hp) ▸ ht)
  | progWren => exact invariant_execWren h (.inr hp) (controllerStep_wren (.inr hp) ▸ ht)
  | prePoll => exact invariant_execRdsr h (controllerStep_poll hcfg (.inl hp) ▸ ht)
  | erasePoll => exact invariant_execRdsr h (controllerStep_poll hcfg (.inr (.inl hp)) ▸ ht)
  | progPoll => exact invariant_execRdsr h (controllerStep_poll hcfg (.inr (.inr hp)) ▸ ht)
  | eraseCmd => exact invariant_eraseCmd h hp ht
  | progCmd => exact invariant_progCmd h hp ht
  | idCmd => exact invariant_execRdid h hp (controllerStep_idCmd hcfg hp ▸ ht)
  | uidCmd => exact invariant_execRuid h hp (controllerStep_uidCmd hcfg hp ▸ ht)

theorem Invariant.step {s t : State} (h : Invariant s) (hs : step s = .next t) : Invariant t := by
  obtain ⟨-, u, rfl, hu⟩ := step_next hs
  rcases hu with ⟨-, rfl⟩ | ⟨-, rfl⟩ | ⟨-, hu⟩
  · exact (invariant_controllerReset h).tick
  · exact (invariant_deviceComplete h).tick
  · exact (invariant_controllerStep h hu).tick

/-- A launch state meets the invariant: it is `IDLE`, nothing is cached, the device is idle. -/
theorem Launch.invariant {s : State} (h : Launch s) : Invariant s :=
  (invariant_iff s).mpr
    ⟨{ selectInactive := h.cs
       pollBound := h.pollCnt ▸ legal_pollMax ((configOk_iff s).mp h.config).1
       idCache := fun hv => by simp [h.idValid] at hv
       uidCache := fun hv => by simp [h.uidValid] at hv
       config := h.config
       idWidth := h.idWidth
       uidWidth := h.uidWidth
       idCode := fun hv => by simp [h.idValid] at hv
       flash := h.flash
       flashEnd := h.flashEnd
       device := h.device ▸ trivial },
      ⟨fun _ => h.maybeBusy, fun _ _ => h.device ▸ rfl⟩, h.phase ▸ trivial⟩

/-- The invariant holds at every launch and every step keeps it, so it holds along every run. -/
theorem Reachable.invariant {s : State} (h : Reachable s) : Invariant s := by
  induction h with
  | launch h => exact h.invariant
  | step _ hs ih => exact ih.step hs

/-- Settles O35, by cases on whose step it is and, for the controller's, on the phase. -/
theorem stepKeepsInvariant : Obligations.StepKeepsInvariant := fun _ _ h hs => h.step hs

/-- Settles O36, from the invariant of every reachable state. -/
theorem reachableStatesMeetR42 : Obligations.ReachableStatesMeetR42 := fun _ h => h.invariant.controller

end Sys2Proof.Machine
end

section
/-! The obligations of spec/20_memory.md about the device and its frames: each outcome of a command (R69 to R71, R74,
R77, R88), the completion steps (R72, R73), and that the machine goes on (R77). -/

namespace Sys2Proof.Machine

/-! ## A frame, by the way the transport ends it -/

section
variable {s : State} {a : DeviceReply} {e : TransportError}

theorem sendFrame_of_ok (ht : s.input.transport = .ok) (d : Descriptor) (k : FrameOutcome → State → State) :
    sendFrame d (.ok a) k s =
      .next (k (.ok a.bytes) (busFrame d (.ok a.bytes) { s with devState := a.devState, flash := a.flash })) := by
  simp [sendFrame_ok, deliver, ht, Transport.received, Transport.outcome]

/-- A failed frame that the device received: it has reacted, its bytes are discarded (R82, R88). -/
theorem sendFrame_of_fail_received (ht : s.input.transport = .fail e true) (d : Descriptor)
    (k : FrameOutcome → State → State) :
    sendFrame d (.ok a) k s =
      .next (k (.err e) (busFrame d (.err e) { s with devState := a.devState, flash := a.flash })) := by
  simp [sendFrame_ok, deliver, ht, Transport.received, Transport.outcome]

/-- A failed frame that the device did not receive, whatever the device would have answered (R88). -/
theorem sendFrame_of_fail_unreceived (ht : s.input.transport = .fail e false) (d : Descriptor)
    (r : Except DeviceFault DeviceReply) (k : FrameOutcome → State → State) :
    sendFrame d r k s = .next (k (.err e) (busFrame d (.err e) s)) := by
  cases r <;> simp [sendFrame, deliver, ht, Transport.received, Transport.outcome]

theorem sendFrame_of_received_error (hr : s.input.transport.received = true) (d : Descriptor) (f : DeviceFault)
    (k : FrameOutcome → State → State) : sendFrame d (.error f) k s = .fault (.device f) := by
  simp [sendFrame, hr]

end

/-- What a frame writes in the controller, and on the bus (R34, R104). -/
theorem busFrame_eq (d : Descriptor) (o : FrameOutcome) (s : State) :
    busFrame d o s = { s with cs := false, bus := frameEvents d o ++ s.bus } := by
  simp only [busFrame, chipSelect, recordTransact, frameEvents, List.cons_append, List.nil_append]

/-! ## The device faults of the commands -/

theorem devWriteEnable_of_busy {s : State} (h : s.devState.busy = true) :
    devWriteEnable s = .error .commandWhileBusy := by
  unfold devWriteEnable
  cases hd : s.devState <;> simp_all [DevState.busy]

theorem devErase_of_not_taken {s : State} {size a : Nat} (h : ¬ s.takesErase size a) :
    ∃ f, devErase size a s = .error f := by
  unfold State.takesErase at h
  unfold devErase
  cases hd : s.devState with
  | writeEnabled =>
    by_cases ha : a % size = 0
    · have hc : s.cfg.capacity < a + size := by simpa [hd, ha] using h
      exact ⟨.beyondCapacity, by simp [ha, hc]⟩
    · exact ⟨.eraseMisaligned, by simp [ha]⟩
  | _ => exact ⟨_, rfl⟩

theorem devProgram_of_not_taken {s : State} {a : Nat} {data : List Byte} (h : ¬ s.takesProgram a data.length) :
    ∃ f, devProgram a data s = .error f := by
  unfold State.takesProgram at h
  unfold devProgram
  cases hd : s.devState with
  | writeEnabled =>
    generalize a % s.cfg.pageSize = r at h ⊢
    simp only
    repeat' split
    case isFalse => exact absurd ⟨hd, by omega, by omega, by omega, by omega⟩ h
    all_goals exact ⟨_, rfl⟩
  | _ => exact ⟨_, rfl⟩

/-! ## The commands -/

/-- A failed write-enable frame ends the request (R186, R189, R252). -/
theorem afterWriteEnable_err_busFrame (e : TransportError) (d : Descriptor) (s : State) :
    afterWriteEnable (.err e) (busFrame d (.err e) s) = { s with
      cs := false, bus := frameEvents d (.err e) ++ s.bus
      rspStatus := 3, rspValue := 0, rspInfo := e, rspValid := true, phase := .idle } := by
  simp only [busFrame_eq, afterWriteEnable, raise, ErrorKind.code]

/-- An erase frame moves the cursor on and starts an episode (R187). -/
theorem afterErase_ok_busFrame (size : Nat) (bytes : List Byte) (d : Descriptor) (s : State) :
    afterErase size (.ok bytes) (busFrame d (.ok bytes) s) = { s with
      cs := false, bus := frameEvents d (.ok bytes) ++ s.bus
      maybeBusy := true, ecur := s.ecur + BitVec.ofNat 33 size, pollCnt := 0, phase := .erasePoll } := by
  simp only [busFrame_eq, afterErase]

/-- A failed erase frame ends the request, with `MAYBE_BUSY` set (R187, R252). -/
theorem afterErase_err_busFrame (size : Nat) (e : TransportError) (d : Descriptor) (s : State) :
    afterErase size (.err e) (busFrame d (.err e) s) = { s with
      cs := false, bus := frameEvents d (.err e) ++ s.bus
      maybeBusy := true, rspStatus := 3, rspValue := 0, rspInfo := e, rspValid := true, phase := .idle } := by
  simp only [busFrame_eq, afterErase, raise, ErrorKind.code]

/-- A program frame moves the cursor on and starts an episode (R190). -/
theorem afterProgram_ok_busFrame (n : Nat) (bytes : List Byte) (d : Descriptor) (s : State) :
    afterProgram n (.ok bytes) (busFrame d (.ok bytes) s) = { s with
      cs := false, bus := frameEvents d (.ok bytes) ++ s.bus
      maybeBusy := true, pcur := s.pcur + BitVec.ofNat 33 n, pollCnt := 0, phase := .progPoll } := by
  simp only [busFrame_eq, afterProgram]

/-- A failed program frame ends the request, with `MAYBE_BUSY` set (R190, R252). -/
theorem afterProgram_err_busFrame (n : Nat) (e : TransportError) (d : Descriptor) (s : State) :
    afterProgram n (.err e) (busFrame d (.err e) s) = { s with
      cs := false, bus := frameEvents d (.err e) ++ s.bus
      maybeBusy := true, rspStatus := 3, rspValue := 0, rspInfo := e, rspValid := true, phase := .idle } := by
  simp only [busFrame_eq, afterProgram, raise, ErrorKind.code]

/-- Settles O18: the device takes the latch unless it is busy, and the phase follows the outcome. -/
theorem writeEnableCommand : Obligations.WriteEnableCommand := by
  intro s hp
  have hx : exec .wren s = sendFrame (frameOp s.cfg.opc.wren) (devWriteEnable s) afterWriteEnable s := rfl
  rw [hx]
  refine ⟨fun ht hb => ?_, fun e r ht hr => ?_, fun ht hb => ?_⟩
  · rw [devWriteEnable_of_not_busy hb, sendFrame_of_ok ht]
    rcases hp with hp | hp <;> simp [afterWriteEnable, busFrame, chipSelect, recordTransact, frameEvents, frameOp, hp]
  · cases r with
    | true =>
      rw [devWriteEnable_of_not_busy (hr rfl), sendFrame_of_fail_received ht, afterWriteEnable_err_busFrame]
      simp only [if_true, frameOp]
    | false =>
      rw [sendFrame_of_fail_unreceived ht, afterWriteEnable_err_busFrame]
      simp [frameOp]
  · rw [devWriteEnable_of_busy hb, sendFrame_of_received_error ht]

/-- The erase command in the machine's own addressing mode, in each outcome of its frame. -/
theorem eraseOutcomes_of_exec {i : Instr} {opc : Byte} {size a : Nat} {s : State}
    (hx : exec i s = eraseCommand s.cfg.addrBytes opc size a s) : EraseOutcomes i opc size a s := by
  unfold EraseOutcomes
  rw [hx, eraseCommand_own_mode]
  refine ⟨fun ht ⟨hd, ha, hc⟩ => ?_, fun e r ht hr => ?_, fun ht hn => ?_⟩
  · rw [devErase_of_enabled hd ha hc, sendFrame_of_ok ht, afterErase_ok_busFrame]
    exact ⟨_, rfl, rfl, Memory.read_forget s.flash a size⟩
  · cases r with
    | true =>
      obtain ⟨hd, ha, hc⟩ := hr rfl
      rw [devErase_of_enabled hd ha hc, sendFrame_of_fail_received ht,
        afterErase_err_busFrame]
      exact ⟨_, rfl, by simp only [if_true], by simpa using Memory.read_forget s.flash a size⟩
    | false =>
      rw [sendFrame_of_fail_unreceived ht, afterErase_err_busFrame]
      exact ⟨_, rfl, by simp, by simp⟩
  · obtain ⟨f, hf⟩ := devErase_of_not_taken hn
    exact ⟨f, by rw [hf, sendFrame_of_received_error ht]⟩

/-- Settles O19: each of the four rows is the erase command in its addressing mode. -/
theorem eraseCommands : Obligations.EraseCommands := fun _ =>
  ⟨fun hn _ => ⟨eraseOutcomes_of_exec (hn ▸ rfl), eraseOutcomes_of_exec (hn ▸ rfl)⟩,
    fun hn _ => ⟨eraseOutcomes_of_exec (hn ▸ rfl), eraseOutcomes_of_exec (hn ▸ rfl)⟩⟩

/-- The page-program in the machine's own addressing mode, in each outcome of its frame. -/
theorem programOutcomes_of_exec {i : Instr} {a : Nat} {data : List Byte} {s : State}
    (hx : exec i s = programCommand s.cfg.addrBytes a data s) : ProgramOutcomes i a data s := by
  unfold ProgramOutcomes
  rw [hx, programCommand_own_mode, ← Memory.readRange_eq]
  refine ⟨fun ht ⟨hd, hn, _, hp, hc⟩ => ?_, fun e r ht hr => ?_, fun ht hn => ?_⟩
  · rw [devProgram_of_enabled hd hn hp hc, sendFrame_of_ok ht, afterProgram_ok_busFrame]
    exact ⟨_, rfl, rfl, Memory.read_forget s.flash a data.length⟩
  · cases r with
    | true =>
      obtain ⟨hd, hn, -, hp, hc⟩ := hr rfl
      rw [devProgram_of_enabled hd hn hp hc, sendFrame_of_fail_received ht,
        afterProgram_err_busFrame]
      exact ⟨_, rfl, by simp only [if_true], by simpa using Memory.read_forget s.flash a data.length⟩
    | false =>
      rw [sendFrame_of_fail_unreceived ht, afterProgram_err_busFrame]
      exact ⟨_, rfl, by simp, by simp⟩
  · obtain ⟨f, hf⟩ := devProgram_of_not_taken hn
    exact ⟨f, by rw [hf, sendFrame_of_received_error ht]⟩

/-- Settles O20: each of the two rows is the page-program in its addressing mode. -/
theorem programCommands : Obligations.ProgramCommands := fun _ _ =>
  ⟨fun hn _ => programOutcomes_of_exec (hn ▸ rfl), fun hn _ => programOutcomes_of_exec (hn ▸ rfl)⟩

/-! ## The status byte -/

/-- The status byte, bit by bit: the busy mask, the write-enable mask, and elsewhere the environment's choice (R38). -/
theorem getElem_statusByte (c : Cfg) (d : DevState) (free : Byte) (i : Nat) (hi : i < 8) :
    (statusByte c d free)[i] =
      (d.busy && c.busyMask[i] || d.latch && c.welMask[i] || free[i] && !(c.busyMask[i] || c.welMask[i])) := by
  unfold statusByte
  cases d.busy <;> cases d.latch <;> simp

/-- The three parts of the status byte, which do not meet (R38, R74). -/
theorem statusByte_parts {c : Cfg} (hm : c.busyMask &&& c.welMask = 0) (d : DevState) (free : Byte) :
    statusByte c d free &&& c.busyMask = (if d.busy then c.busyMask else 0) ∧
    statusByte c d free &&& c.welMask = (if d.latch then c.welMask else 0) ∧
    statusByte c d free &&& ~~~(c.busyMask ||| c.welMask) = free &&& ~~~(c.busyMask ||| c.welMask) := by
  have hbit (i : Nat) (hi : i < 8) : (c.busyMask[i] && c.welMask[i]) = false := by
    simpa using congrArg (fun b : Byte => b[i]) hm
  refine ⟨?_, ?_, ?_⟩ <;> ext i hi <;> have := hbit i hi <;>
    simp only [BitVec.getElem_and, BitVec.getElem_not, BitVec.getElem_or, getElem_statusByte]
  · cases d.busy <;> cases hb : c.busyMask[i] <;> simp_all
  · cases d.latch <;> cases hw : c.welMask[i] <;> simp_all
  · cases c.busyMask[i] <;> cases c.welMask[i] <;> simp

/-- Settles O21: the device answers its status byte in every state, and the poll step leaves the device alone. -/
theorem statusByteRead : Obligations.StatusByteRead := by
  intro s hl ht
  have hx : exec .rdsr s = sendFrame (frameOpR s.cfg.opc.rdsr 1) (devReadStatus s) afterStatus s := rfl
  obtain ⟨hbusy, hwel, hfree⟩ := statusByte_parts (legal_masks hl) s.devState s.input.statusBits
  rw [hx, devReadStatus, sendFrame_of_ok ht]
  refine ⟨_, _, rfl, by simp [frameEvents, frameOpR], by simp, by simp, hbusy, ?_, hfree⟩
  rw [hwel]
  cases s.devState <;> rfl

/-! ## The device's completion -/

theorem step_of_device {s : State} (hc : s.configOk = true) (ha : s.agent = .device) :
    step s = .next (deviceComplete s).tick := by
  simp [step, hc, agentStep, ha]

theorem deviceComplete_of_not_busy {s : State} (h : s.devState.busy = false) : deviceComplete s = s := by
  unfold deviceComplete
  split <;> simp_all [DevState.busy]

theorem deviceComplete_of_erasing {s : State} {a size : Nat} (h : s.devState = .erasing a size) :
    deviceComplete s =
      { s with flash := s.flash.write a (List.replicate size (some 0xFF)), devState := .idle } := by
  simp [deviceComplete, h]

theorem deviceComplete_of_programming {s : State} {a : Nat} {data : List Byte} {old : List (Option Byte)}
    (h : s.devState = .programming a data old) :
    deviceComplete s = { s with flash := s.flash.write a (List.zipWith programByte old data), devState := .idle } := by
  simp [deviceComplete, h]

theorem Memory.read_erased (m : Memory) (a size x : Nat) :
    (m.write a (List.replicate size (some 0xFF))).read x = if a ≤ x ∧ x < a + size then some 0xFF else m.read x := by
  rw [Memory.read_write, List.length_replicate]
  split
  · next hx => rw [List.getElem?_replicate, if_pos (by omega), Option.join_some]
  · rfl

/-- Settles O30, from what a read gives after the write of the completed operation. -/
theorem deviceCompletes : Obligations.DeviceCompletes := by
  intro s hc ha
  rw [step_of_device hc ha]
  refine ⟨fun a size hd => ?_, fun a data old hd => ?_⟩
  · rw [deviceComplete_of_erasing hd]
    exact ⟨_, rfl, rfl, Memory.read_erased s.flash a size⟩
  · rw [deviceComplete_of_programming hd]
    refine ⟨_, rfl, rfl, fun i d v hi ho => ?_, fun i hi ho => ?_, fun x hx => ?_⟩
    · exact Memory.read_write_in s.flash a (by simp [List.getElem?_zipWith, hi, ho, programByte])
    · exact Memory.read_write_in s.flash a
        (by simp [List.getElem?_zipWith, List.getElem?_eq_getElem hi, ho, programByte])
    · exact Memory.read_write_out s.flash a _ x (by simp only [List.length_zipWith]; omega)

/-! ## The frames of a run -/

section
variable {s : State} (h : Invariant s)
include h

/-- Before a command the device is not busy, so it takes the write-enable (R69, R196). -/
theorem Invariant.controllerStep_wren (hp : s.phase = .eraseWren ∨ s.phase = .progWren) :
    controllerStep s =
      sendFrame (frameOp s.cfg.opc.wren) (.ok ⟨.writeEnabled, s.flash, []⟩) afterWriteEnable s := by
  have hb := h.not_busy (by rcases hp with hp | hp <;> rw [hp] <;> rfl)
  rw [Machine.controllerStep_wren hp, execWren, devWriteEnable_of_not_busy hb]

theorem Invariant.controllerStep_poll (hp : s.phase = .prePoll ∨ s.phase = .erasePoll ∨ s.phase = .progPoll) :
    controllerStep s = sendFrame (frameOpR s.cfg.opc.rdsr 1)
      (.ok ⟨s.devState, s.flash, [statusByte s.cfg s.devState s.input.statusBits]⟩) afterStatus s :=
  Machine.controllerStep_poll ((configOk_iff s).mp h.config).1 hp

/-- The latch is set and the next unit is legal, so the device takes the erase (R70, R290). -/
theorem Invariant.controllerStep_eraseCmd (hp : s.phase = .eraseCmd) {size : Nat}
    (hs : size = nextUnitSize s.ecur.toNat s.eend.toNat) :
    controllerStep s = sendFrame (frameOpA s.cfg.addrBytes (eraseOpcode s.cfg size) s.ecur.toNat)
      (.ok ⟨.erasing s.ecur.toNat size, s.flash.forget s.ecur.toNat size, []⟩) (afterErase size) s := by
  have hlt := h.controller.eraseLeft (.inr hp)
  obtain ⟨-, hal, hee, hcap⟩ := h.controller.eraseCursors (congrArg Phase.inErase hp)
  obtain ⟨-, ha, hb, -⟩ := nextUnit_bounds hlt hal hee
  rw [Machine.controllerStep_eraseCmd ((configOk_iff s).mp h.config).1 hp ⟨hlt, hal, hee, hcap⟩,
    devErase_of_enabled (h.latched (.inl hp)) ha (hb.trans hcap), hs]

/-- The latch is set and the next chunk is legal, so the device takes the program (R71, R290). -/
theorem Invariant.controllerStep_progCmd (hp : s.phase = .progCmd) {data : List Byte}
    (hb : s.bufRead s.pcur.toNat (nextChunkLen s.cfg.pageSize s.pcur.toNat s.pend.toNat) = some data) :
    controllerStep s = sendFrame (frameOpAD s.cfg.addrBytes s.cfg.opc.pp s.pcur.toNat data)
      (.ok ⟨.programming s.pcur.toNat data (s.flash.readRange s.pcur.toNat data.length),
        s.flash.forget s.pcur.toNat data.length, []⟩) (afterProgram data.length) s := by
  have hcfg := ((configOk_iff s).mp h.config).1
  have hlt := h.controller.programLeft (.inr hp)
  obtain ⟨-, -, -, hcap, -⟩ := h.controller.programCursors (congrArg Phase.inProgram hp)
  obtain ⟨h1, hpage, hend⟩ := nextChunk_bounds (legal_pageSize hcfg).1 hlt
  rw [← (bufRead_length hb).1] at h1 hpage hend
  rw [Machine.controllerStep_progCmd hcfg hp ⟨hlt, hcap⟩ hb,
    devProgram_of_enabled (h.latched (.inr hp)) h1 hpage (hend.trans hcap)]

/-- Every frame of the sequencer is one the device accepts; only a chunk that is not in the host's buffer is not sent
(R77, U11). -/
theorem Invariant.controllerStep_goesOn (hp : s.phase ≠ .idle)
    (hb : s.phase = .progCmd →
      s.bufRead s.pcur.toNat (nextChunkLen s.cfg.pageSize s.pcur.toNat s.pend.toNat) ≠ none) :
    ∃ t, controllerStep s = .next t := by
  have hcfg := ((configOk_iff s).mp h.config).1
  cases he : s.phase with
  | idle => exact absurd he hp
  | eraseWren => exact ⟨_, h.controllerStep_wren (.inl he)⟩
  | progWren => exact ⟨_, h.controllerStep_wren (.inr he)⟩
  | prePoll => exact ⟨_, h.controllerStep_poll (.inl he)⟩
  | erasePoll => exact ⟨_, h.controllerStep_poll (.inr (.inl he))⟩
  | progPoll => exact ⟨_, h.controllerStep_poll (.inr (.inr he))⟩
  | eraseCmd => exact ⟨_, h.controllerStep_eraseCmd he rfl⟩
  | progCmd =>
    obtain ⟨data, hd⟩ := Option.ne_none_iff_exists'.mp (hb he)
    exact ⟨_, h.controllerStep_progCmd he hd⟩
  | idCmd => exact ⟨_, by rw [controllerStep_idCmd hcfg he, execRdid, h.devIdentify (.inl he), sendFrame_ok]⟩
  | uidCmd => exact ⟨_, by rw [controllerStep_uidCmd hcfg he, execRuid, h.devIdentify (.inr he), sendFrame_ok]⟩

end

theorem exec_request_goesOn {s : State} (hp : s.phase = .idle) (w : BitVec 66) :
    ∃ t, exec (decodeRequest w) s = .next t := by
  obtain ⟨a, l, hw⟩ := decodeRequest_cases w
  obtain ⟨hwrite, hid, huid, hres⟩ := exec_request_idle hp a l
  rcases hw with hw | hw | hw | hw <;> rw [hw]
  · exact ⟨_, hwrite⟩
  · exact ⟨_, hid⟩
  · exact ⟨_, huid⟩
  · exact ⟨_, hres⟩

/-- The accept step goes on, or it is the first one after reset and the device is not idle (R285). -/
theorem acceptStep_goesOn_or_refused {s : State} (hp : s.phase = .idle) :
    (∃ t, acceptStep s = .next t) ∨
    (acceptStep s = .refused .deviceNotIdleAtLaunch ∧ s.host ≠ [] ∧ s.launched = false ∧ s.devState ≠ .idle) := by
  cases hh : s.host with
  | nil => exact .inl ⟨s, by simp [acceptStep, hh]⟩
  | cons r rest =>
    by_cases hl : s.launched = true ∨ s.devState = .idle
    · rw [acceptStep_of_ready hh hl]
      exact .inl (exec_request_goesOn (s := takeRequest r rest s) hp r.word)
    · obtain ⟨hl, hd⟩ := not_or.mp hl
      have hl : s.launched = false := by simpa using hl
      exact .inr ⟨acceptStep_of_notReady hh hl hd, by simp, hl, hd⟩

/-- Settles O37, by cases on whose step it is: in `IDLE` the accept step goes on or is refused, in any other phase the
device accepts the frame. -/
theorem machineGoesOn : Obligations.MachineGoesOn := by
  intro s h
  cases ha : s.agent with
  | reset => exact .inl ⟨(controllerReset s).tick, by simp [step, h.config, agentStep, ha]⟩
  | device => exact .inl ⟨_, step_of_device h.config ha⟩
  | controller =>
    rw [step_of_controller h.config ha]
    by_cases hp : s.phase = .idle
    · rw [controllerStep_idle hp]
      rcases acceptStep_goesOn_or_refused hp with ⟨t, ht⟩ | ⟨hr, hh, hl, hd⟩
      · exact .inl ⟨_, by rw [ht, onNext_next]⟩
      · exact .inr (.inr ⟨by rw [hr, onNext_refused], hp, hh, hl, hd⟩)
    · by_cases hb : s.phase = .progCmd ∧
        s.bufRead s.pcur.toNat (nextChunkLen s.cfg.pageSize s.pcur.toNat s.pend.toNat) = none
      · exact .inr (.inl ⟨by rw [controllerStep_progCmd_short hb.1 hb.2, onNext_refused], hb⟩)
      · obtain ⟨t, ht⟩ := h.controllerStep_goesOn hp (not_and.mp hb)
        exact .inl ⟨_, by rw [ht, onNext_next]⟩

end Sys2Proof.Machine
end

section
/-! The obligation of spec/20_memory.md that the controller never reads the array (R85, R199): a step from the same
state with another array is the same step, but for the array and for what the device remembers of it. -/

namespace Sys2Proof.Machine

/-- With another array `f` goes on to the same state, but for the array and the old bytes the device remembers. -/
def BlindAt (s : State) (f : State → Host.Outcome State Fault Refusal) : Prop :=
  ∀ (t : State) (m : Memory), f s = .next t → ∃ m' d',
    f { s with flash := m } = .next { t with flash := m', devState := d' } ∧ d'.withoutOld = t.devState.withoutOld

/-- What follows a frame neither reads nor writes the device. -/
def SparesDevice (k : FrameOutcome → State → State) : Prop :=
  ∀ o s m d, k o { s with flash := m, devState := d } = { k o s with flash := m, devState := d }

/-- The device answers the same, but for the array and the old bytes it remembers. -/
inductive SameReply : Except DeviceFault DeviceReply → Except DeviceFault DeviceReply → Prop where
  | error (f : DeviceFault) : SameReply (.error f) (.error f)
  | ok {d d' : DevState} (m m' : Memory) (bytes : List Byte) (h : d'.withoutOld = d.withoutOld) :
      SameReply (.ok ⟨d, m, bytes⟩) (.ok ⟨d', m', bytes⟩)

theorem SparesDevice.devState {k : FrameOutcome → State → State} (hk : SparesDevice k) (o : FrameOutcome) (s : State) :
    (k o s).devState = s.devState := by
  have h := congrArg State.devState (hk o s s.flash s.devState)
  exact h

/-! ## Frames -/

theorem sendFrame_blind {d : Descriptor} {r r' : Except DeviceFault DeviceReply} {k : FrameOutcome → State → State}
    {s t : State} (hk : SparesDevice k) {m : Memory} (hr : SameReply r r') (h : sendFrame d r k s = .next t) :
    ∃ m' d', sendFrame d r' k { s with flash := m } = .next { t with flash := m', devState := d' } ∧
      d'.withoutOld = t.devState.withoutOld := by
  rcases sendFrame_next h with ⟨a, rfl, rfl⟩ | ⟨f, e, rfl, ht, rfl⟩
  · cases hr with
    | @ok dev dev' fl fl' bytes hd =>
      refine ⟨_, _, congrArg Host.Outcome.next (hk (s.input.transport.outcome bytes)
        (busFrame d (s.input.transport.outcome bytes) (deliver ⟨dev, fl, bytes⟩ s)) _ _), ?_⟩
      rw [hk.devState]
      show (if s.input.transport.received then dev' else s.devState).withoutOld =
        (if s.input.transport.received then dev else s.devState).withoutOld
      split
      · exact hd
      · rfl
  · cases hr
    refine ⟨m, s.devState, ?_, by rw [hk.devState]; rfl⟩
    rw [sendFrame_of_fail_unreceived (s := { s with flash := m }) ht]
    exact congrArg Host.Outcome.next (hk (.err e) (busFrame d (.err e) s) m s.devState)

theorem sparesDevice_afterWriteEnable : SparesDevice afterWriteEnable := by
  intro o s m d
  cases o with
  | err e => rfl
  | ok bytes =>
    unfold afterWriteEnable
    cases hp : s.phase <;> simp [hp]

theorem sparesDevice_afterErase (size : Nat) : SparesDevice (afterErase size) := by
  intro o s m d
  cases o <;> rfl

theorem sparesDevice_afterProgram (n : Nat) : SparesDevice (afterProgram n) := by
  intro o s m d
  cases o <;> rfl

theorem sparesDevice_afterReadId : SparesDevice afterReadId := by
  intro o s m d
  cases o <;> rfl

theorem sparesDevice_afterReadUniqueId : SparesDevice afterReadUniqueId := by
  intro o s m d
  cases o <;> rfl

theorem leaveEpisode_spares (s : State) (m : Memory) (d : DevState) :
    leaveEpisode { s with flash := m, devState := d } = { leaveEpisode s with flash := m, devState := d } := by
  obtain ⟨_, phase⟩ := s
  cases phase <;> dsimp only [leaveEpisode]
  case progPoll => split <;> rfl
  case prePoll =>
    split
    · rfl
    · split
      · rfl
      · split <;> rfl

theorem sparesDevice_afterStatus : SparesDevice afterStatus := by
  intro o s m d
  cases o with
  | err e => rfl
  | ok bytes =>
    simp only [afterStatus, pollByte]
    split
    · split <;> rfl
    · exact leaveEpisode_spares { s with maybeBusy := false, pollCnt := 0 } m d

/-! ## The device's reactions -/

section
variable (s : State) (m : Memory)

theorem sameReply_devWriteEnable : SameReply (devWriteEnable s) (devWriteEnable { s with flash := m }) := by
  unfold devWriteEnable
  dsimp only
  cases s.devState with
  | idle | writeEnabled => exact .ok _ _ _ rfl
  | erasing | programming => exact .error _

theorem sameReply_devReadStatus : SameReply (devReadStatus s) (devReadStatus { s with flash := m }) :=
  .ok _ _ _ rfl

theorem sameReply_devIdentify (ident : List Byte) :
    SameReply (devIdentify ident s) (devIdentify ident { s with flash := m }) := by
  unfold devIdentify
  dsimp only
  split
  · exact .error _
  · exact .ok _ _ _ rfl

theorem sameReply_devErase (size a : Nat) :
    SameReply (devErase size a s) (devErase size a { s with flash := m }) := by
  unfold devErase
  dsimp only
  cases s.devState with
  | writeEnabled =>
    dsimp only
    repeat' split
    case isFalse.isFalse => exact .ok _ _ _ rfl
    all_goals exact .error _
  | _ => exact .error _

/-- The old bytes a program remembers are as many, whatever the array holds (R71). -/
theorem sameReply_devProgram (a : Nat) (data : List Byte) :
    SameReply (devProgram a data s) (devProgram a data { s with flash := m }) := by
  unfold devProgram
  dsimp only
  cases s.devState with
  | writeEnabled =>
    dsimp only
    repeat' split
    case isFalse.isFalse.isFalse.isFalse =>
      exact .ok _ _ _ (by simp [DevState.withoutOld])
    all_goals exact .error _
  | _ => exact .error _

end

/-! ## The steps -/

theorem eraseCommand_blind (s : State) (n size a : Nat) (opc : Byte) : BlindAt s (eraseCommand n opc size a) := by
  intro t m h
  unfold eraseCommand at h ⊢
  dsimp only
  split at h
  · next hn =>
    rw [if_pos hn]
    exact sendFrame_blind (sparesDevice_afterErase size) (sameReply_devErase s m size a) h
  · simp at h

theorem programCommand_blind (s : State) (n a : Nat) (data : List Byte) : BlindAt s (programCommand n a data) := by
  intro t m h
  unfold programCommand at h ⊢
  dsimp only
  split at h
  · next hn =>
    rw [if_pos hn]
    exact sendFrame_blind (sparesDevice_afterProgram data.length) (sameReply_devProgram s m a data) h
  · simp at h

/-- A state that goes on to itself, or to what an update that leaves the device alone makes of it. -/
theorem blindAt_next {s : State} {f : State → State}
    (hf : ∀ m, f { s with flash := m } = { f s with flash := m }) : BlindAt s (fun u => .next (f u)) := by
  intro t m h
  obtain rfl := Host.Outcome.next.inj h
  exact ⟨m, (f s).devState, congrArg Host.Outcome.next (hf m), rfl⟩

theorem whenIdle_blind {s : State} {accept : State → State}
    (ha : ∀ m, accept { s with flash := m } = { accept s with flash := m }) : BlindAt s (whenIdle accept) := by
  unfold whenIdle
  intro t m h
  dsimp only at h ⊢
  split at h
  · next hp =>
    rw [if_pos hp]
    exact blindAt_next ha t m h
  · next hp =>
    rw [if_neg hp]
    exact blindAt_next (f := id) (fun _ => rfl) t m h

theorem acceptWrite_otherArray (a l : U32) (s : State) (m : Memory) :
    acceptWrite a l { s with flash := m } = { acceptWrite a l s with flash := m } := by
  unfold acceptWrite
  by_cases hb : s.cfg.capacity < a.toNat + l.toNat
  · simp only [if_pos hb]
    rfl
  · by_cases hl : l = 0
    · simp only [if_neg hb, if_pos hl]
      rfl
    · simp only [if_neg hb, if_neg hl]

/-- No instruction looks at the array: every arm is a frame or an accept step that does not. -/
theorem exec_blind (s : State) (i : Instr) : BlindAt s (exec i) := by
  cases i with
  | wren =>
    intro t m h
    simp only [exec, execWren] at h ⊢
    exact sendFrame_blind sparesDevice_afterWriteEnable (sameReply_devWriteEnable s m) h
  | rdsr =>
    intro t m h
    simp only [exec, execRdsr] at h ⊢
    exact sendFrame_blind sparesDevice_afterStatus (sameReply_devReadStatus s m) h
  | rdid =>
    intro t m h
    simp only [exec, execRdid] at h ⊢
    exact sendFrame_blind sparesDevice_afterReadId (sameReply_devIdentify s m s.devId) h
  | ruid =>
    intro t m h
    simp only [exec, execRuid] at h ⊢
    exact sendFrame_blind sparesDevice_afterReadUniqueId (sameReply_devIdentify s m s.devUid) h
  | se3 | se4 | be3 | be4 =>
    intro t m h
    simp only [exec, execSe3, execSe4, execBe3, execBe4] at h ⊢
    exact eraseCommand_blind s _ _ _ _ t m h
  | pp3 | pp4 => exact programCommand_blind s _ _ _
  | writeStream a l =>
    exact whenIdle_blind fun m => acceptWrite_otherArray a l (latchRequest 1 a l s) m
  | readId a l | readUniqueId a l => exact whenIdle_blind fun m => by dsimp only; split <;> rfl
  | reservedOp0 a l => exact whenIdle_blind fun m => rfl

theorem acceptStep_blind (s : State) : BlindAt s acceptStep := by
  intro t m h
  rcases acceptStep_next h with ⟨hh, rfl⟩ | ⟨r, rest, hh, hl, he⟩
  · exact ⟨m, t.devState, by simp [acceptStep, hh], rfl⟩
  · rw [acceptStep_of_ready (s := { s with flash := m }) hh hl]
    exact exec_blind (takeRequest r rest s) (decodeRequest r.word) t m he

theorem sendOp_blind (s : State) (op : LogicalOp) : BlindAt s (sendOp op) := by
  intro t m h
  unfold sendOp at h ⊢
  dsimp only
  cases he : encodeOp s.cfg op with
  | error size =>
    rw [he] at h
    exact blindAt_next (f := raise (.unsupportedOperation size)) (fun _ => rfl) t m h
  | ok d =>
    rw [he] at h
    dsimp only at h ⊢
    cases hd : decodeFrame s.cfg d with
    | error e => simp [hd] at h
    | ok i =>
      rw [hd] at h
      exact exec_blind s i t m h

theorem commandStep_blind (s : State) (op : LogicalOp) : BlindAt s (commandStep op) := by
  intro t m h
  rcases commandStep_cases op s with ⟨why, -, hr⟩ | ⟨hw, hs⟩
  · simp [hr] at h
  · rw [commandStep_of_wellFormed (s := { s with flash := m }) hw]
    exact sendOp_blind s op t m (hs ▸ h)

theorem controllerStep_blind (s : State) : BlindAt s controllerStep := by
  intro t m h
  have hop : State.phaseOp { s with flash := m } = s.phaseOp := rfl
  unfold controllerStep at h ⊢
  rw [hop]
  split at h
  · simp at h
  · exact acceptStep_blind s t m h
  · exact commandStep_blind s _ t m h

/-- The device completes the same operation; only the array shows what was in it (R72, R73). -/
theorem deviceComplete_otherArray (s : State) (m : Memory) :
    ∃ m', deviceComplete { s with flash := m } = { deviceComplete s with flash := m' } := by
  obtain ⟨⟩ := s
  unfold deviceComplete
  dsimp only
  split <;> exact ⟨_, rfl⟩

theorem agentStep_blind (s : State) : BlindAt s agentStep := by
  intro t m h
  have hag : State.agent { s with flash := m } = s.agent := rfl
  unfold agentStep at h ⊢
  rw [hag]
  split at h
  · exact blindAt_next (f := controllerReset) (fun _ => rfl) t m h
  · obtain rfl := Host.Outcome.next.inj h
    obtain ⟨m', hm⟩ := deviceComplete_otherArray s m
    exact ⟨m', (deviceComplete s).devState, congrArg Host.Outcome.next hm, rfl⟩
  · exact controllerStep_blind s t m h

/-- Whoever takes the step, what it does and what it leaves do not depend on the array. -/
theorem step_blind (s : State) : BlindAt s step := by
  intro t m h
  have hcfg : State.configOk { s with flash := m } = s.configOk := rfl
  unfold step at h ⊢
  rw [hcfg]
  split at h
  · next hc =>
    obtain ⟨u, hu, rfl⟩ := onNext_eq_next h
    obtain ⟨m', d', hstep, hd⟩ := agentStep_blind s u m hu
    exact ⟨m', d', by rw [if_pos hc, hstep]; rfl, hd⟩
  · simp at h

/-- Settles O45, by cases on whose step it is and, for the controller's, on the instruction that runs. -/
theorem controllerNeverReadsTheArray : Obligations.ControllerNeverReadsTheArray := by
  intro s t m h
  obtain ⟨m', d', hs, hd⟩ := step_blind s t m h
  exact ⟨_, hs, rfl, hd⟩

end Sys2Proof.Machine
end

section
/-! The planner and the pages one element at a time (spec/41_erase_unit_planner.md R164, R171, R173): the sequencers'
cursors cut the next unit and the next chunk off what is left. -/

namespace Sys2Proof.Machine

theorem sectorSize_le_nextUnitSize (c hi : Nat) : sectorSize ≤ nextUnitSize c hi := by
  rcases nextUnitSize_cases c hi with ⟨hs, -⟩ | ⟨hs, -⟩
  · exact (by decide : sectorSize ≤ blockSize).trans hs.ge
  · exact hs.ge

/-- Every unit has at least 4096 bytes, so any fuel that covers the range in sectors gives the same units. -/
theorem planFrom_eq_of_fuel {hi : Nat} (n k c : Nat) (hn : hi - c ≤ n * sectorSize) (hk : hi - c ≤ k * sectorSize) :
    planFrom hi n c = planFrom hi k c := by
  induction n generalizing k c with
  | zero =>
    cases k with
    | zero => rfl
    | succ k => simp [planFrom, show ¬ c < hi by omega]
  | succ n ih =>
    cases k with
    | zero => simp [planFrom, show ¬ c < hi by omega]
    | succ k =>
      have hu := sectorSize_le_nextUnitSize c hi
      simp only [planFrom]
      rw [ih k (c + nextUnitSize c hi)]
      all_goals rw [Nat.succ_mul] at hn hk; omega

theorem unitsFrom_of_le {c hi : Nat} (h : hi ≤ c) : unitsFrom c hi = [] := by
  simp [unitsFrom, Nat.sub_eq_zero_of_le h, sectorSize, planFrom]

theorem unitsFrom_of_lt {c hi : Nat} (h : c < hi) :
    unitsFrom c hi = nextUnit c hi :: unitsFrom (c + nextUnitSize c hi) hi := by
  have hu := sectorSize_le_nextUnitSize c hi
  unfold unitsFrom
  obtain ⟨k, hk⟩ : ∃ k, (hi - c + sectorSize - 1) / sectorSize = k + 1 :=
    ⟨_, (Nat.sub_add_cancel (Nat.div_pos (by omega) (by decide))).symm⟩
  rw [hk, planFrom, if_pos h]
  congr 1
  simp only [sectorSize] at *
  exact planFrom_eq_of_fuel _ _ _ (by simp only [sectorSize]; omega) (by simp only [sectorSize]; omega)

/-- Every chunk has at least one byte, so any fuel that covers the range in bytes gives the same chunks. -/
theorem pagesLoop_eq_of_fuel {p e : Nat} (hp : 0 < p) (n k c : Nat) (hn : e - c ≤ n) (hk : e - c ≤ k) :
    pagesLoop p e n c = pagesLoop p e k c := by
  induction n generalizing k c with
  | zero =>
    cases k with
    | zero => rfl
    | succ k => simp [pagesLoop, show ¬ c < e by omega]
  | succ n ih =>
    cases k with
    | zero => simp [pagesLoop, show ¬ c < e by omega]
    | succ k =>
      simp only [pagesLoop]
      split
      · next hc =>
        have hl := (nextChunk_bounds hp hc).1
        rw [ih k (c + nextChunkLen p c e) (by omega) (by omega)]
      · rfl

theorem chunksFrom_of_le (p : Nat) {c e : Nat} (h : e ≤ c) : chunksFrom p c e = [] := by
  simp [chunksFrom, Nat.sub_eq_zero_of_le h, pagesLoop]

theorem chunksFrom_of_lt {p c e : Nat} (hp : 0 < p) (h : c < e) :
    chunksFrom p c e = nextChunk p c e :: chunksFrom p (c + nextChunkLen p c e) e := by
  have hl := (nextChunk_bounds hp h).1
  unfold chunksFrom
  obtain ⟨k, hk⟩ : ∃ k, e - c = k + 1 := ⟨e - c - 1, by omega⟩
  rw [hk, pagesLoop, if_pos h, pagesLoop_eq_of_fuel hp k (e - (c + nextChunkLen p c e)) _ (by omega) (by omega)]

end Sys2Proof.Machine
end

section
/-! The obligations of spec/20_memory.md about a whole write (R86, R87): what each step of a write does, how far it has
brought the array and the bus, and what stands there when it has ended with `Ok`. -/

namespace Sys2Proof.Machine

/-! ## The steps of a write -/

/-- The command phase that a write-enable phase goes on to (R186, R189). -/
def Enables (p p' : Phase) : Prop := p = .eraseWren ∧ p' = .eraseCmd ∨ p = .progWren ∧ p' = .progCmd

theorem afterWriteEnable_ok_busFrame {s : State} {p : Phase} (hp : Enables s.phase p) (d : Descriptor)
    (bytes : List Byte) : afterWriteEnable (.ok bytes) (busFrame d (.ok bytes) s) = { s with
      cs := false, bus := frameEvents d (.ok bytes) ++ s.bus, phase := p } := by
  rw [busFrame_eq]
  rcases hp with ⟨hp, rfl⟩ | ⟨hp, rfl⟩ <;> simp [afterWriteEnable, hp]

/-- A step of a write in progress that does not abort it, before the step is counted: the device completes its
operation, or the frame of the phase succeeds (R72, R73, R186 to R195). -/
inductive WriteStep (s : State) : State → Prop where
  | complete (hb : s.devState.busy = true) : WriteStep s (deviceComplete s)
  | enable {p : Phase} (hp : Enables s.phase p) (hb : s.devState.busy = false) :
      WriteStep s { s with
        cs := false, bus := frameEvents (frameOp s.cfg.opc.wren) (.ok []) ++ s.bus
        devState := .writeEnabled, phase := p }
  | erase (hp : s.phase = .eraseCmd) {size : Nat} (hs : size = nextUnitSize s.ecur.toNat s.eend.toNat) :
      WriteStep s { s with
        cs := false
        bus := frameEvents (frameOpA s.cfg.addrBytes (eraseOpcode s.cfg size) s.ecur.toNat) (.ok []) ++ s.bus
        devState := .erasing s.ecur.toNat size, flash := s.flash.forget s.ecur.toNat size
        maybeBusy := true, ecur := s.ecur + BitVec.ofNat 33 size, pollCnt := 0, phase := .erasePoll }
  | program (hp : s.phase = .progCmd) {data : List Byte}
      (hd : s.bufRead s.pcur.toNat (nextChunkLen s.cfg.pageSize s.pcur.toNat s.pend.toNat) = some data) :
      WriteStep s { s with
        cs := false
        bus := frameEvents (frameOpAD s.cfg.addrBytes s.cfg.opc.pp s.pcur.toNat data) (.ok []) ++ s.bus
        devState := .programming s.pcur.toNat data (s.flash.readRange s.pcur.toNat data.length)
        flash := s.flash.forget s.pcur.toNat data.length
        maybeBusy := true, pcur := s.pcur + BitVec.ofNat 33 data.length, pollCnt := 0, phase := .progPoll }
  | stillBusy (hp : s.phase.inPoll = true) (b : Byte) :
      WriteStep s { s with
        cs := false, bus := frameEvents (frameOpR s.cfg.opc.rdsr 1) (.ok [b]) ++ s.bus, pollCnt := s.pollCnt + 1 }
  | leave (hp : s.phase.inPoll = true) (hb : s.devState.busy = false) (b : Byte) :
      WriteStep s (leaveEpisode { s with
        cs := false, bus := frameEvents (frameOpR s.cfg.opc.rdsr 1) (.ok [b]) ++ s.bus
        maybeBusy := false, pollCnt := 0 })

/-- The request of `t` has ended without success (R200, R252, R280). -/
def Aborted (t : State) : Prop := t.phase = .idle ∧ (t.rspValid = true → t.rspStatus ≠ 0)

theorem aborted_raise (k : ErrorKind) (s : State) : Aborted (raise k s) :=
  ⟨rfl, fun _ => by cases k <;> simp [raise, ErrorKind.code]⟩

section
variable {s u : State}

theorem writeStep_or_aborted_of_poll (h : Invariant s)
    (hp : s.phase = .prePoll ∨ s.phase = .erasePoll ∨ s.phase = .progPoll) (hs : controllerStep s = .next u) :
    WriteStep s u ∨ Aborted u := by
  have hcfg := ((configOk_iff s).mp h.config).1
  have hin : s.phase.inPoll = true := by rcases hp with hp | hp | hp <;> rw [hp] <;> rfl
  rw [h.controllerStep_poll hp] at hs
  rcases sendFrame_accepted hs with rfl | ⟨e, rfl⟩
  · have hb := statusBusy_statusByte hcfg s.devState s.input.statusBits
    dsimp only
    generalize statusByte s.cfg s.devState s.input.statusBits = b at hb
    rw [busFrame_eq]
    simp only [afterStatus, pollByte, List.headD_cons]
    split
    · split
      · exact .inr (aborted_raise _ _)
      · exact .inl (.stillBusy hin b)
    · next hn => exact .inl (.leave hin (by rw [← hb]; simpa using hn) b)
  · exact .inr (aborted_raise _ _)

theorem writeStep_or_aborted_of_wren (h : Invariant s) {p : Phase} (hp : Enables s.phase p)
    (hs : controllerStep s = .next u) : WriteStep s u ∨ Aborted u := by
  have hph : s.phase = .eraseWren ∨ s.phase = .progWren := hp.imp And.left And.left
  have hb := h.not_busy (by rcases hph with hp | hp <;> rw [hp] <;> rfl)
  rw [h.controllerStep_wren hph] at hs
  rcases sendFrame_accepted hs with rfl | ⟨e, rfl⟩
  · rw [afterWriteEnable_ok_busFrame (s := { s with devState := .writeEnabled }) hp]
    exact .inl (.enable hp hb)
  · exact .inr (aborted_raise _ _)

theorem writeStep_or_aborted_of_eraseCmd (h : Invariant s) (hp : s.phase = .eraseCmd)
    (hs : controllerStep s = .next u) : WriteStep s u ∨ Aborted u := by
  rw [h.controllerStep_eraseCmd hp rfl] at hs
  rcases sendFrame_accepted hs with rfl | ⟨e, rfl⟩
  · rw [afterErase_ok_busFrame]
    exact .inl (.erase hp rfl)
  · exact .inr (aborted_raise _ _)

theorem writeStep_or_aborted_of_progCmd (h : Invariant s) (hp : s.phase = .progCmd)
    (hs : controllerStep s = .next u) : WriteStep s u ∨ Aborted u := by
  cases hd : s.bufRead s.pcur.toNat (nextChunkLen s.cfg.pageSize s.pcur.toNat s.pend.toNat) with
  | none => simp [controllerStep_progCmd_short hp hd] at hs
  | some data =>
    rw [h.controllerStep_progCmd hp hd] at hs
    rcases sendFrame_accepted hs with rfl | ⟨e, rfl⟩
    · rw [afterProgram_ok_busFrame]
      exact .inl (.program hp hd)
    · exact .inr (aborted_raise _ _)

/-- All the controller can do in a write in progress: its frame succeeds, or the request is aborted. -/
theorem controllerStep_write (h : Invariant s) (hw : s.reqOp = 1) (hi : s.phase ≠ .idle)
    (hs : controllerStep s = .next u) : WriteStep s u ∨ Aborted u := by
  cases hp : s.phase with
  | idle => exact absurd hp hi
  | prePoll => exact writeStep_or_aborted_of_poll h (.inl hp) hs
  | erasePoll => exact writeStep_or_aborted_of_poll h (.inr (.inl hp)) hs
  | progPoll => exact writeStep_or_aborted_of_poll h (.inr (.inr hp)) hs
  | eraseWren => exact writeStep_or_aborted_of_wren h (.inl ⟨hp, rfl⟩) hs
  | progWren => exact writeStep_or_aborted_of_wren h (.inr ⟨hp, rfl⟩) hs
  | eraseCmd => exact writeStep_or_aborted_of_eraseCmd h hp hs
  | progCmd => exact writeStep_or_aborted_of_progCmd h hp hs
  | idCmd => simp [h.idOp hp] at hw
  | uidCmd => simp [h.uidOp hp] at hw

end

/-- All a step can do in a write in progress, whoever takes it. -/
theorem step_write {s t : State} (h : Invariant s) (hw : s.reqOp = 1) (hi : s.phase ≠ .idle)
    (hs : step s = .next t) : ∃ u, t = u.tick ∧ (WriteStep s u ∨ Aborted u) := by
  obtain ⟨-, u, rfl, hu⟩ := step_next hs
  refine ⟨u, rfl, ?_⟩
  rcases hu with ⟨-, rfl⟩ | ⟨ha, rfl⟩ | ⟨-, hc⟩
  · exact .inr ⟨rfl, nofun⟩
  · exact .inl (.complete (busy_of_device_turn ha))
  · exact controllerStep_write h hw hi hc

theorem WriteStep.sameOperands {s u : State} (h : WriteStep s u) : SameOperands s u := by
  cases h <;> refine ⟨?_, ?_, ?_, ?_, ?_, ?_, ?_⟩ <;> simp

/-! ## How far a step brings the array -/

theorem DevState.covers_of_not_busy {d : DevState} (h : d.busy = false) (x : Nat) : d.covers x = false := by
  cases d <;> simp_all [DevState.busy, DevState.covers]

theorem DevState.covers_erasing (a size x : Nat) :
    (DevState.erasing a size).covers x = false ↔ x < a ∨ a + size ≤ x := by
  simp only [DevState.covers, decide_eq_false_iff_not]
  omega

theorem DevState.covers_programming (a : Nat) (data : List Byte) (old : List (Option Byte)) (x : Nat) :
    (DevState.programming a data old).covers x = false ↔ x < a ∨ a + data.length ≤ x := by
  simp only [DevState.covers, decide_eq_false_iff_not]
  omega

theorem deviceComplete_devState {s : State} (h : s.devState.busy = true) : (deviceComplete s).devState = .idle := by
  unfold deviceComplete
  split <;> simp_all [DevState.busy]

/-- The device completes its operation in the bytes it is working on (R72, R73). -/
theorem deviceComplete_read_uncovered {s : State} {x : Nat} (h : s.devState.covers x = false) :
    (deviceComplete s).flash.read x = s.flash.read x := by
  cases hd : s.devState with
  | idle | writeEnabled => rw [deviceComplete_of_not_busy (by rw [hd]; rfl)]
  | erasing a size =>
    rw [hd, DevState.covers_erasing] at h
    rw [deviceComplete_of_erasing hd, Memory.read_write_out _ _ _ _ (by simpa using h)]
  | programming a data old =>
    rw [hd, DevState.covers_programming] at h
    rw [deviceComplete_of_programming hd, Memory.read_write_out _ _ _ _ (by simp; omega)]

theorem intended_of_unwritten {s : State} {x : Nat} (h : x < s.reqAddr.toNat ∨ s.pcur.toNat ≤ x) :
    s.intended x = some 0xFF :=
  if_neg (by omega)

theorem intended_of_written {s : State} {x : Nat} (h : s.reqAddr.toNat ≤ x ∧ x < s.pcur.toNat) :
    s.intended x = s.buf[x - s.reqAddr.toNat]? :=
  if_pos h

/-- A program over erased bytes leaves the data (R67). -/
theorem zipWith_programByte_erased (data : List Byte) :
    List.zipWith programByte (List.replicate data.length (some 0xFF)) data = data.map some := by
  induction data with
  | nil => rfl
  | cons d ds ih =>
    have hd : programByte (some 0xFF) d = some d := congrArg some BitVec.allOnes_and
    rw [List.length_cons, List.replicate_succ, List.zipWith_cons_cons, ih, hd, List.map_cons]

section
variable {s₀ s : State}

/-- The sequencer goes on while the device is not busy: the array is as it was. -/
theorem WriteProgress.goto (h : WriteProgress s₀ s) (hb : s.devState.busy = false) {d : DevState}
    (hd : d.busy = false) {p : Phase} (hp : p.inErase = true ∨ p.inProgram = true)
    (hs : s.phase = .prePoll → s.ecur.toNat = s.roundedStart) :
    WriteProgress s₀ { s with phase := p, devState := d } where
  active := .inr hp
  write := h.write
  before _ := .inr hd
  outside := h.outside
  inside _ x hlo hhi _ := by
    by_cases hpre : s.phase = .prePoll
    · exact absurd (hs hpre ▸ hhi) (Nat.not_lt.mpr hlo)
    · exact h.inside hpre x hlo hhi (DevState.covers_of_not_busy hb x)
  erase _ a size he := by simp [show d = _ from he, DevState.busy] at hd
  program _ a data old he := by simp [show d = _ from he, DevState.busy] at hd

/-- The device works inside the rounded range, or is still at what it was doing when the write was accepted. -/
theorem WriteProgress.uncovered_outside (h : WriteProgress s₀ s) (hw : WriteCursors s) {x : Nat}
    (hx : x < s.roundedStart ∨ s.eend.toNat ≤ x) (h₀ : s₀.devState.covers x = false) :
    s.devState.covers x = false := by
  by_cases hp : s.phase = .prePoll
  · rcases h.before hp with hd | hb
    · rwa [hd]
    · exact DevState.covers_of_not_busy hb x
  · have htop := hw.eraseTop
    cases hd : s.devState with
    | idle | writeEnabled => rfl
    | erasing a size =>
      obtain ⟨-, ha, hend⟩ := h.erase hp a size hd
      rw [DevState.covers_erasing]
      omega
    | programming a data old =>
      obtain ⟨-, ha, hend, -⟩ := h.program hp a data old hd
      have hptop := hw.progTop
      have hends := hw.ends
      have hee := hw.eraseEnd
      rw [DevState.covers_programming]
      simp only [State.roundedStart, floorTo, ceilTo, sectorSize] at hx hee
      omega

/-- What the device completes in a write is what the write intends there (R66, R67, R72, R73). -/
theorem WriteProgress.completed_inside (h : WriteProgress s₀ s) (hp : s.phase ≠ .prePoll)
    (hu : s.phase = .erasePoll → s.pcur.toNat = s.reqAddr.toNat) {x : Nat} (hx : s.devState.covers x = true) :
    (deviceComplete s).flash.read x = s.intended x := by
  cases hd : s.devState with
  | idle | writeEnabled => simp [hd, DevState.covers] at hx
  | erasing a size =>
    obtain ⟨hph, -⟩ := h.erase hp a size hd
    have hpc := hu hph
    have hin : a ≤ x ∧ x < a + size := by simpa [hd, DevState.covers] using hx
    rw [deviceComplete_of_erasing hd, intended_of_unwritten (by omega)]
    exact (Memory.read_erased _ _ _ _).trans (if_pos hin)
  | programming a data old =>
    obtain ⟨-, ha, hend, hold, hdata⟩ := h.program hp a data old hd
    have hin : a ≤ x ∧ x < a + data.length := by simpa [hd, DevState.covers] using hx
    obtain ⟨i, rfl⟩ : ∃ i, x = a + i := ⟨x - a, by omega⟩
    have hi : i < data.length := by omega
    have hbyte : s.buf[a + i - s.reqAddr.toNat]? = some data[i] := by
      have hget : data[i]? = ((s.buf.drop (a - s.reqAddr.toNat)).take data.length)[i]? := by rw [← hdata]
      rw [List.getElem?_take_of_lt hi, List.getElem?_drop, List.getElem?_eq_getElem hi] at hget
      rw [hget]
      congr 1
      omega
    rw [deviceComplete_of_programming hd, intended_of_written (by omega), hbyte, hold, zipWith_programByte_erased]
    exact Memory.read_write_in _ _ (by simp [hi])

theorem WriteProgress.complete (h : WriteProgress s₀ s) (hw : WriteCursors s)
    (hu : s.phase = .erasePoll → s.pcur.toNat = s.reqAddr.toNat) (hb : s.devState.busy = true) :
    WriteProgress s₀ (deviceComplete s) where
  active := by simpa using h.active
  write := by simpa using h.write
  before _ := .inr (by rw [deviceComplete_devState hb]; rfl)
  outside x hx h₀ := by
    have hx : x < s.roundedStart ∨ s.eend.toNat ≤ x := by simpa [State.roundedStart] using hx
    exact (deviceComplete_read_uncovered (h.uncovered_outside hw hx h₀)).trans (h.outside x hx h₀)
  inside hp x hlo hhi _ := by
    simp only [deviceComplete_phase, State.roundedStart, deviceComplete_reqAddr, deviceComplete_ecur] at hp hlo hhi
    have hint : (deviceComplete s).intended x = s.intended x := by simp [State.intended]
    rw [hint]
    cases hc : s.devState.covers x with
    | true => exact h.completed_inside hp hu hc
    | false => exact (deviceComplete_read_uncovered hc).trans (h.inside hp x hlo hhi hc)
  erase _ a size hd := by simp [deviceComplete_devState hb] at hd
  program _ a data old hd := by simp [deviceComplete_devState hb] at hd

/-- The next unit is being erased: nothing else has changed (R70, R187). -/
theorem WriteProgress.erased (h : WriteProgress s₀ s) (hw : WriteCursors s) (hp : s.phase = .eraseCmd)
    (hd : s.devState.busy = false) {size : Nat} (hc : s.ecur.toNat + size ≤ s.eend.toNat)
    (hcur : (s.ecur + BitVec.ofNat 33 size).toNat = s.ecur.toNat + size) :
    WriteProgress s₀ { s with
      devState := .erasing s.ecur.toNat size, flash := s.flash.forget s.ecur.toNat size
      ecur := s.ecur + BitVec.ofNat 33 size, phase := .erasePoll } where
  active := .inr (.inl rfl)
  write := h.write
  before := nofun
  outside x hx h₀ := by
    have hlow := hw.eraseLow
    refine (Memory.read_forget_out _ _ _ _ ?_).trans (h.outside x hx h₀)
    simp only [State.roundedStart] at hx hlow
    omega
  inside _ x hlo hhi hx := by
    simp only [hcur] at hhi
    have hx := (DevState.covers_erasing _ _ _).mp hx
    refine (Memory.read_forget_out _ _ _ _ hx).trans ?_
    exact h.inside (by simp [hp]) x hlo (by omega) (DevState.covers_of_not_busy hd x)
  erase _ a n he := by
    obtain ⟨rfl, rfl⟩ := DevState.erasing.inj he
    exact ⟨rfl, hw.eraseLow, hcur.symm⟩
  program _ a data old he := by simp at he

/-- The next chunk is being programmed over erased bytes: nothing else has changed (R71, R190). -/
theorem WriteProgress.programmed (h : WriteProgress s₀ s) (hw : WriteCursors s) (hp : s.phase = .progCmd)
    (he : s.ecur = s.eend) (hd : s.devState.busy = false) {data : List Byte}
    (hdata : data = (s.buf.drop (s.pcur.toNat - s.reqAddr.toNat)).take data.length)
    (hc : s.pcur.toNat + data.length ≤ s.pend.toNat)
    (hcur : (s.pcur + BitVec.ofNat 33 data.length).toNat = s.pcur.toNat + data.length) :
    WriteProgress s₀ { s with
      devState := .programming s.pcur.toNat data (s.flash.readRange s.pcur.toNat data.length)
      flash := s.flash.forget s.pcur.toNat data.length
      pcur := s.pcur + BitVec.ofNat 33 data.length, phase := .progPoll } where
  active := .inr (.inr rfl)
  write := h.write
  before := nofun
  outside x hx h₀ := by
    have hlow := hw.progLow
    have hends := hw.ends
    have hee := hw.eraseEnd
    refine (Memory.read_forget_out _ _ _ _ ?_).trans (h.outside x hx h₀)
    simp only [State.roundedStart, floorTo, ceilTo, sectorSize] at hx hee
    omega
  inside _ x hlo hhi hx := by
    have hx := (DevState.covers_programming _ _ _ _).mp hx
    refine (Memory.read_forget_out _ _ _ _ hx).trans ?_
    rw [h.inside (by simp [hp]) x hlo hhi (DevState.covers_of_not_busy hd x)]
    unfold State.intended
    simp only [hcur]
    exact if_congr (by omega) rfl rfl
  erase _ a n hd := by simp at hd
  program _ a data' old hd' := by
    obtain ⟨rfl, rfl, rfl⟩ := DevState.programming.inj hd'
    refine ⟨rfl, hw.progLow, hcur.symm, ?_, hdata⟩
    rw [Memory.readRange_eq, List.eq_replicate_iff]
    refine ⟨by simp, fun v hv => ?_⟩
    obtain ⟨x, hx, rfl⟩ := List.mem_map.mp hv
    rw [List.mem_range'_1] at hx
    have hlow := hw.progLow
    have hends := hw.ends
    have hee := hw.eraseEnd
    rw [h.inside (by simp [hp]) x _ _ (DevState.covers_of_not_busy hd x), intended_of_unwritten (.inr hx.1)]
    · simp only [State.roundedStart, floorTo, ceilTo, sectorSize] at *
      omega
    · rw [he]
      simp only [ceilTo, sectorSize] at *
      omega

end

section
variable {s₀ s : State}

/-- An episode that ended not busy goes on with the device idle or write-enabled, if it does not end the request. -/
theorem WriteProgress.leaveEpisode (h : WriteProgress s₀ s) (hb : s.devState.busy = false)
    (hs : s.phase = .prePoll → s.ecur.toNat = s.roundedStart) (hi : (leaveEpisode s).phase ≠ .idle) :
    WriteProgress s₀ (leaveEpisode s) := by
  have hg (p : Phase) (hp : p.inErase = true ∨ p.inProgram = true) : WriteProgress s₀ { s with phase := p } :=
    h.goto hb hb hp hs
  unfold Machine.leaveEpisode at hi ⊢
  split
  · split
    · exact hg _ (.inl rfl)
    · exact hg _ (.inr rfl)
  · next hp =>
    split
    · exact hg _ (.inr rfl)
    · next hlt => simp [hp, hlt] at hi
  · rw [if_pos h.write]
    exact hg _ (.inl rfl)
  · exact h

/-- Every step of a write that does not end it keeps what the array holds in step with the cursors. -/
theorem WriteStep.progress {u : State} (h : WriteStep s u) (hinv : Invariant s) (hw : WriteProgress s₀ s)
    (hi : s.phase ≠ .idle) (hu : u.phase ≠ .idle) : WriteProgress s₀ u := by
  have hcur := hinv.cursors hi hw.write
  have hcfg := ((configOk_iff s).mp hinv.config).1
  cases h with
  | complete hb =>
    exact hw.complete hcur (fun hp => hinv.unwritten (.inr (congrArg Phase.inErase hp)) hw.write) hb
  | @enable p hp hb =>
    have hp' : p.inErase = true ∨ p.inProgram = true := by
      rcases hp with ⟨-, rfl⟩ | ⟨-, rfl⟩
      · exact .inl rfl
      · exact .inr rfl
    have hpre : s.phase ≠ .prePoll := by rcases hp with ⟨hp, -⟩ | ⟨hp, -⟩ <;> simp [hp]
    exact { (hw.goto hb (d := .writeEnabled) rfl hp' fun hp => absurd hp hpre) with }
  | @erase hp size hs =>
    have hcap := hcur.eraseEnd_le_capacity hcfg
    have hcap32 := legal_capacity_le hcfg
    obtain ⟨-, -, hend, -⟩ :=
      nextUnit_bounds (hinv.controller.eraseLeft (.inr hp)) hcur.aligned hcur.eraseEnd_aligned
    rw [← hs] at hend
    have hd : s.devState.busy = false := by rw [hinv.latched (.inl hp)]; rfl
    exact { (hw.erased hcur hp hd hend (toNat_cursor_add (by omega))) with }
  | @program hp data hbuf =>
    obtain ⟨hlen, -, hdata⟩ := bufRead_length hbuf
    have hlt := hinv.controller.programLeft (.inr hp)
    have hends := hcur.ends
    have hbound := hcur.bound
    have hcap32 := legal_capacity_le hcfg
    obtain ⟨-, -, hend⟩ := nextChunk_bounds (legal_pageSize hcfg).1 hlt
    rw [← hlen] at hend hdata
    have hd : s.devState.busy = false := by rw [hinv.latched (.inr hp)]; rfl
    exact { (hw.programmed hcur hp (hinv.rangeErased (congrArg Phase.inProgram hp)) hd hdata hend
      (toNat_cursor_add (by omega))) with }
  | stillBusy hp b => exact { hw with }
  | leave hp hb b =>
    refine WriteProgress.leaveEpisode ?_ hb (fun hp => hinv.unerased hp hw.write) hu
    exact { hw with }

end

/-! ## How far a step brings the bus -/

/-- The frames of the units and the chunks from the cursors on (R173, R184). -/
def State.framesFromCursors (s : State) : List Descriptor :=
  (unitsFrom s.ecur.toNat s.eend.toNat).flatMap (eraseFrames s.cfg) ++
    (chunksFrom s.cfg.pageSize s.pcur.toNat s.pend.toNat).flatMap (programFrames s.cfg s.reqAddr.toNat s.buf)

/-- The frames a write in progress has still to send, status reads apart: before a command its write-enable has been
sent (R290). -/
def State.commandsLeft (s : State) : List Descriptor :=
  if s.phase = .eraseCmd ∨ s.phase = .progCmd then s.framesFromCursors.tail else s.framesFromCursors

theorem commandsOn_frame {c : Cfg} {d : Descriptor} (h : d.commandBytes.head? ≠ some c.opc.rdsr) (o : FrameOutcome)
    (es : List BusEvent) : commandsOn c (frameEvents d o ++ es) = commandsOn c es ++ [d] := by
  simp [frameEvents, commandsOn, h]

theorem commandsOn_statusFrame (c : Cfg) (o : FrameOutcome) (es : List BusEvent) :
    commandsOn c (frameEvents (frameOpR c.opc.rdsr 1) o ++ es) = commandsOn c es := by
  simp [frameEvents, commandsOn, frameOpR]

section
variable {s : State}

/-- Before an erase the next frames are its write-enable and its command. -/
theorem framesFromCursors_of_erase (h : s.ecur.toNat < s.eend.toNat) {size : Nat}
    (hs : size = nextUnitSize s.ecur.toNat s.eend.toNat)
    (hc : (s.ecur + BitVec.ofNat 33 size).toNat = s.ecur.toNat + size) :
    s.framesFromCursors = frameOp s.cfg.opc.wren ::
      frameOpA s.cfg.addrBytes (eraseOpcode s.cfg size) s.ecur.toNat ::
      State.framesFromCursors { s with ecur := s.ecur + BitVec.ofNat 33 size } := by
  simp [State.framesFromCursors, unitsFrom_of_lt h, hc, eraseFrames, nextUnit, ← hs]

/-- With the range erased the next frames are those of the next chunk. -/
theorem framesFromCursors_of_program (hl : s.cfg.Legal) (he : s.ecur = s.eend) (h : s.pcur.toNat < s.pend.toNat)
    {n : Nat} (hn : n = nextChunkLen s.cfg.pageSize s.pcur.toNat s.pend.toNat)
    (hc : (s.pcur + BitVec.ofNat 33 n).toNat = s.pcur.toNat + n) :
    s.framesFromCursors = frameOp s.cfg.opc.wren ::
      frameOpAD s.cfg.addrBytes s.cfg.opc.pp s.pcur.toNat ((s.buf.drop (s.pcur.toNat - s.reqAddr.toNat)).take n) ::
      State.framesFromCursors { s with pcur := s.pcur + BitVec.ofNat 33 n } := by
  simp [State.framesFromCursors, unitsFrom_of_le (Nat.le_refl _), chunksFrom_of_lt (legal_pageSize hl).1 h, hc, he,
    programFrames, nextChunk, ← hn]

theorem framesFromCursors_of_done (he : s.eend.toNat ≤ s.ecur.toNat) (hp : s.pend.toNat ≤ s.pcur.toNat) :
    s.framesFromCursors = [] := by
  simp [State.framesFromCursors, unitsFrom_of_le he, chunksFrom_of_le _ hp]

theorem commandsLeft_congr {u : State} (hp : u.phase = s.phase) (hf : u.framesFromCursors = s.framesFromCursors) :
    u.commandsLeft = s.commandsLeft := by
  rw [State.commandsLeft, State.commandsLeft, hp, hf]

theorem commandsLeft_of_command (hp : s.phase = .eraseCmd ∨ s.phase = .progCmd) :
    s.commandsLeft = s.framesFromCursors.tail :=
  if_pos hp

theorem commandsLeft_of_not_command (hp : s.phase ≠ .eraseCmd) (hp' : s.phase ≠ .progCmd) :
    s.commandsLeft = s.framesFromCursors :=
  if_neg (by simp [hp, hp'])

theorem commandsLeft_of_poll (hp : s.phase.inPoll = true) : s.commandsLeft = s.framesFromCursors :=
  commandsLeft_of_not_command (by rintro h; simp [h, Phase.inPoll] at hp) (by rintro h; simp [h, Phase.inPoll] at hp)

/-- The next frame of a write-enable phase is its write-enable. -/
theorem Invariant.framesFromCursors_eq_wren (h : Invariant s) {p : Phase} (hp : Enables s.phase p) :
    s.framesFromCursors = frameOp s.cfg.opc.wren :: s.framesFromCursors.tail := by
  rcases hp with ⟨hp, -⟩ | ⟨hp, -⟩
  · simp [State.framesFromCursors, unitsFrom_of_lt (h.controller.eraseLeft (.inl hp)), eraseFrames]
  · have he := h.rangeErased (congrArg Phase.inProgram hp)
    have hl := legal_pageSize ((configOk_iff s).mp h.config).1
    simp [State.framesFromCursors, unitsFrom_of_le (Nat.le_refl _), he,
      chunksFrom_of_lt hl.1 (h.controller.programLeft (.inl hp)), programFrames]

theorem leaveEpisode_commandsLeft (hp : s.phase.inPoll = true) :
    (leaveEpisode s).commandsLeft = s.framesFromCursors := by
  unfold leaveEpisode
  split
  · exact commandsLeft_of_not_command (by dsimp only; split <;> simp) (by dsimp only; split <;> simp)
  · split <;> exact commandsLeft_of_not_command (by simp) (by simp)
  · split
    · exact commandsLeft_of_not_command (by simp) (by simp)
    · split
      · exact commandsLeft_of_not_command (by simp) (by simp)
      · split
        · exact commandsLeft_of_not_command (by simp) (by simp)
        · exact commandsLeft_of_poll hp
  · exact commandsLeft_of_poll hp

/-- A step of a write sends the next of the frames that are left, or a status read, or none. -/
theorem WriteStep.commands {u : State} (h : WriteStep s u) (hinv : Invariant s) (hi : s.phase ≠ .idle)
    (hw : s.reqOp = 1) :
    commandsOn s.cfg u.bus ++ u.commandsLeft = commandsOn s.cfg s.bus ++ s.commandsLeft := by
  have hcfg := ((configOk_iff s).mp hinv.config).1
  have hcur := hinv.cursors hi hw
  have hcap32 := legal_capacity_le hcfg
  obtain ⟨hrw, ⟨-, hpr⟩, ⟨-, hsr, -⟩, ⟨-, hbr, -, -⟩, -, -⟩ := legal_opcodes hcfg
  cases h with
  | complete hb =>
    rw [deviceComplete_bus, commandsLeft_congr (deviceComplete_phase s) (by simp [State.framesFromCursors])]
  | @enable p hp hb =>
    have hs : s.commandsLeft = s.framesFromCursors :=
      commandsLeft_of_not_command (by rcases hp with ⟨hp, -⟩ | ⟨hp, -⟩ <;> simp [hp])
        (by rcases hp with ⟨hp, -⟩ | ⟨hp, -⟩ <;> simp [hp])
    rw [commandsOn_frame (by simpa [frameOp] using hrw.symm), commandsLeft_of_command
      (by rcases hp with ⟨-, rfl⟩ | ⟨-, rfl⟩ <;> simp), hs, hinv.framesFromCursors_eq_wren hp, List.append_assoc,
      List.singleton_append]
    simp only [State.framesFromCursors]
  | @erase hp size hs =>
    have hlt := hinv.controller.eraseLeft (.inr hp)
    have hcap := hcur.eraseEnd_le_capacity hcfg
    obtain ⟨-, -, hend, -⟩ := nextUnit_bounds hlt hcur.aligned hcur.eraseEnd_aligned
    rw [← hs] at hend
    have hopc : eraseOpcode s.cfg size ≠ s.cfg.opc.rdsr := by
      unfold eraseOpcode
      split
      · exact hbr
      · exact hsr
    rw [commandsOn_frame (by simpa [frameOpA] using hopc), commandsLeft_of_poll rfl, commandsLeft_of_command (.inl hp),
      framesFromCursors_of_erase hlt hs (toNat_cursor_add (by omega)), List.append_assoc, List.singleton_append,
      List.tail_cons]
    simp only [State.framesFromCursors]
  | @program hp data hbuf =>
    have hlt := hinv.controller.programLeft (.inr hp)
    obtain ⟨hlen, -, hdata⟩ := bufRead_length hbuf
    obtain ⟨-, -, hend⟩ := nextChunk_bounds (legal_pageSize hcfg).1 hlt
    have hends := hcur.ends
    have hbound := hcur.bound
    rw [← hlen] at hend hdata
    rw [commandsOn_frame (by simpa [frameOpAD] using hpr), commandsLeft_of_poll rfl, commandsLeft_of_command (.inr hp),
      framesFromCursors_of_program hcfg (hinv.rangeErased (congrArg Phase.inProgram hp)) hlt hlen
        (toNat_cursor_add (by omega)), ← hdata, List.append_assoc, List.singleton_append, List.tail_cons]
    simp only [State.framesFromCursors]
  | stillBusy hp b =>
    rw [commandsOn_statusFrame]
    exact congrArg _ (commandsLeft_congr rfl (by simp only [State.framesFromCursors]))
  | leave hp hb b =>
    rw [leaveEpisode_bus, commandsOn_statusFrame, commandsLeft_of_poll hp]
    exact congrArg _ (leaveEpisode_commandsLeft hp)

end

/-! ## A write from its acceptance on -/

/-- A write of `l` bytes of `data` at `a`, presented in `s₀`, is in progress in `s`: its operands are latched, the
array is as far as the cursors, and the frames on the bus and those left are the write's. -/
structure Underway (a l : U32) (data : List Byte) (s₀ s : State) : Prop where
  invariant : Invariant s
  progress  : WriteProgress s₀ s
  cfg       : s.cfg = s₀.cfg
  reqAddr   : s.reqAddr = a
  reqLen    : s.reqLen = l
  buf       : s.buf = data
  commands  : commandsOn s₀.cfg s.bus ++ s.commandsLeft =
    commandsOn s₀.cfg s₀.bus ++ writeFrames s₀.cfg a.toNat l.toNat data

section
variable {a l : U32} {data : List Byte} {s₀ s t : State}

/-- A write that is accepted without being answered in the same step (R181). -/
theorem acceptWrite_of_active (h : (acceptWrite a l s).phase ≠ .idle) :
    a.toNat + l.toNat ≤ s.cfg.capacity ∧ l ≠ 0 ∧ acceptWrite a l s = { s with
      ecur := BitVec.ofNat 33 (floorTo sectorSize a.toNat)
      eend := BitVec.ofNat 33 (ceilTo sectorSize (a.toNat + l.toNat))
      pcur := BitVec.ofNat 33 a.toNat
      pend := BitVec.ofNat 33 (a.toNat + l.toNat)
      pollCnt := 0
      phase := if s.maybeBusy then .prePoll else .eraseWren } := by
  unfold acceptWrite at h ⊢
  split
  · next hb => simp [hb] at h
  · next hb =>
    split
    · next h0 =>
      rw [if_neg hb, if_pos h0] at h
      exact absurd rfl h
    · next h0 => exact ⟨Nat.not_lt.mp hb, h0, rfl⟩

/-- The step that accepts a presented write. -/
theorem Presents.accepted (h : Presents a l data s₀) (hs : step s₀ = .next t) :
    ∃ rest, t = (acceptWrite a l (latchRequest 1 a l (takeRequest ⟨requestWord 1 a l, data⟩ rest s₀))).tick := by
  obtain ⟨hp, ha, rest, hh⟩ := h
  obtain ⟨-, u, rfl, ⟨hr, -⟩ | ⟨hd, -⟩ | ⟨-, hc⟩⟩ := step_next hs
  · simp [ha] at hr
  · simp [ha] at hd
  · refine ⟨rest, congrArg State.tick ?_⟩
    rw [controllerStep_idle hp] at hc
    rcases acceptStep_next hc with ⟨hn, -⟩ | ⟨r, rest', hh', -, he⟩
    · simp [hh] at hn
    · obtain ⟨rfl, rfl⟩ := List.cons.inj (hh.symm.trans hh')
      rw [show decodeRequest (requestWord 1 a l) = .writeStream a l by simp [decodeRequest]] at he
      obtain ⟨hwrite, -⟩ := exec_request_idle (s := takeRequest ⟨requestWord 1 a l, data⟩ rest s₀) hp a l
      exact (Host.Outcome.next.inj (hwrite.symm.trans he)).symm

/-- A write whose cursors stand at its ends has all of its frames left. -/
theorem framesFromCursors_of_start (he : s.ecur.toNat = floorTo sectorSize s.reqAddr.toNat)
    (hp : s.pcur.toNat = s.reqAddr.toNat) (hw : WriteCursors s) :
    s.framesFromCursors = writeFrames s.cfg s.reqAddr.toNat s.reqLen.toNat s.buf := by
  rw [State.framesFromCursors, writeFrames, pages, he, hp, hw.eraseEnd, hw.ends]

/-- A write that is waiting for the device, or about to enable its first erase, has changed nothing yet. -/
theorem writeProgress_of_start (h : Invariant s) (hw : s.reqOp = 1)
    (hp : s.phase = if s.maybeBusy then .prePoll else .eraseWren) (hl : s.launched = true)
    (he : s.ecur.toNat = s.roundedStart) (hf : s.flash = s₀.flash) (hd : s.devState = s₀.devState) :
    WriteProgress s₀ s := by
  have hquiet (hne : s.phase ≠ .prePoll) : s.devState.busy = false :=
    h.arbiter hl (by by_contra hb; simp [hp, hb] at hne)
  exact
    { active := by rw [hp]; split <;> simp [Phase.inErase]
      write := hw
      before := fun _ => .inl hd
      outside := fun x _ _ => by rw [hf]
      inside := fun _ x hlo hhi => absurd (he ▸ hhi) (Nat.not_lt.mpr hlo)
      erase := fun hne a size hop => by simp [hop, DevState.busy] at hquiet; exact absurd hquiet hne
      program := fun hne a data old hop => by simp [hop, DevState.busy] at hquiet; exact absurd hquiet hne }

/-- The accept step starts a write: nothing is sent, the array is as it was, and all of the write's frames are left. -/
theorem Presents.underway (hp : Presents a l data s₀) (h : Invariant s₀) (hs : Machine.step s₀ = .next t)
    (hi : t.phase ≠ .idle) : Underway a l data s₀ t := by
  have hinv := h.step hs
  obtain ⟨rest, rfl⟩ := hp.accepted hs
  obtain ⟨hbound, hl0, heq⟩ := acceptWrite_of_active hi
  rw [heq] at hinv ⊢
  obtain ⟨hcur, hec, hpc⟩ :=
    writeCursors_of_accepted (s := State.tick _) ((configOk_iff _).mp hinv.config).1 hl0 hbound rfl rfl rfl rfl
  refine ⟨hinv, writeProgress_of_start hinv rfl rfl rfl hec rfl rfl, rfl, rfl, rfl, rfl, ?_⟩
  rw [commandsLeft_of_not_command, framesFromCursors_of_start hec hpc hcur]
  · rfl
  all_goals
    simp only [State.tick_phase]
    split <;> simp

theorem Underway.active (h : Underway a l data s₀ s) : s.phase ≠ .idle := by
  intro hi
  simpa [hi, Phase.inErase, Phase.inProgram] using h.progress.active

/-- A step of the write that has not ended it. -/
theorem Underway.step (h : Underway a l data s₀ s) (hs : Machine.step s = .next t) (hi : t.phase ≠ .idle) :
    Underway a l data s₀ t := by
  have hw := h.progress.write
  have hcfg := (step_sameConstants hs).1.trans h.cfg
  have hinv := h.invariant.step hs
  obtain ⟨u, rfl, hu | ⟨hidle, -⟩⟩ := step_write h.invariant hw h.active hs
  · obtain ⟨-, hbuf, -, haddr, hlen, -, -⟩ := hu.sameOperands
    have hcmd := hu.commands h.invariant h.active hw
    rw [h.cfg] at hcmd
    exact
      { invariant := hinv
        progress := { (hu.progress h.invariant h.progress h.active hi) with }
        cfg := hcfg
        reqAddr := haddr.trans h.reqAddr
        reqLen := hlen.trans h.reqLen
        buf := hbuf.trans h.buf
        commands := hcmd.trans h.commands }
  · exact absurd hidle hi

theorem Underway.within (h : Underway a l data s₀ s) (hs : WithinRequest s t) : Underway a l data s₀ t := by
  induction hs with
  | refl => exact h
  | step _ hstep hi ih => exact ih.step hstep hi

/-- The one step of a write that ends it with success: the last episode of its last chunk ends not busy (R191, R197). -/
theorem WriteStep.last {u : State} (h : WriteStep s u) (hi : s.phase ≠ .idle) (hw : s.reqOp = 1)
    (hu : u.phase = .idle) :
    s.phase = .progPoll ∧ s.devState.busy = false ∧ s.pend.toNat ≤ s.pcur.toNat ∧ ∃ b : Byte,
      u = respond s.reqLen { s with
        cs := false, bus := frameEvents (frameOpR s.cfg.opc.rdsr 1) (.ok [b]) ++ s.bus
        maybeBusy := false, pollCnt := 0 } := by
  cases h with
  | complete => exact absurd (deviceComplete_phase s ▸ hu) hi
  | enable hp => rcases hp with ⟨-, rfl⟩ | ⟨-, rfl⟩ <;> simp at hu
  | erase => simp at hu
  | program => simp at hu
  | stillBusy => exact absurd hu hi
  | leave hp hb b =>
    have hlast : s.phase = .progPoll ∧ ¬ s.pcur < s.pend := by
      revert hu
      cases hph : s.phase <;> simp [hph, leaveEpisode, Phase.inPoll, hw] at hp ⊢
      case erasePoll => split <;> simp
      case progPoll => split <;> simp_all
    obtain ⟨hph, hlt⟩ := hlast
    exact ⟨hph, hb, Nat.not_lt.mp hlt, b, by simp [leaveEpisode, hph, hlt]⟩

/-- What a write of `l` bytes of `data` at `a`, presented in `s` and ended with `Ok` in `t`, leaves behind (R86, R197,
R202): the array inside and outside the rounded range, and its frames. -/
structure WriteEnded (a l : U32) (data : List Byte) (s t : State) : Prop where
  invariant : Invariant t
  cfg       : t.cfg = s.cfg
  value     : t.rspValue = l
  device    : t.devState = .idle
  quiet     : t.maybeBusy = false
  inside    : ∀ x, floorTo sectorSize a.toNat ≤ x → x < ceilTo sectorSize (a.toNat + l.toNat) →
    t.flash.read x = if a.toNat ≤ x ∧ x < a.toNat + l.toNat then data[x - a.toNat]? else some 0xFF
  outside   : ∀ x, x < floorTo sectorSize a.toNat ∨ ceilTo sectorSize (a.toNat + l.toNat) ≤ x →
    s.devState.covers x = false → t.flash.read x = s.flash.read x
  commands  : commandsOn s.cfg t.bus = commandsOn s.cfg s.bus ++ writeFrames s.cfg a.toNat l.toNat data

theorem Underway.ended (h : Underway a l data s₀ s) (hs : Machine.step s = .next t) (hi : t.phase = .idle)
    (hv : t.rspValid = true) (h0 : t.rspStatus = 0) : WriteEnded a l data s₀ t := by
  have hw := h.progress.write
  have hinv := h.invariant.step hs
  obtain ⟨u, rfl, hu | ⟨-, hne⟩⟩ := step_write h.invariant hw h.active hs
  · obtain ⟨hph, hb, hpc, b, rfl⟩ := hu.last h.active hw hi
    have hcur := h.invariant.cursors h.active hw
    have hec := congrArg BitVec.toNat (h.invariant.rangeErased (congrArg Phase.inProgram hph))
    have hstart : s.roundedStart = floorTo sectorSize a.toNat := by rw [State.roundedStart, h.reqAddr]
    have hee : s.eend.toNat = ceilTo sectorSize (a.toNat + l.toNat) := by rw [hcur.eraseEnd, h.reqAddr, h.reqLen]
    have hpcur : s.pcur.toNat = a.toNat + l.toNat := by
      rw [Nat.le_antisymm hcur.progTop hpc, hcur.ends, h.reqAddr, h.reqLen]
    have hleft : s.commandsLeft = [] := by
      rw [commandsLeft_of_poll (by rw [hph]; rfl), framesFromCursors_of_done hec.ge hpc]
    exact
      { invariant := hinv
        cfg := h.cfg
        value := h.reqLen
        device := by
          have hd := h.invariant.polled (.inr hph)
          show s.devState = .idle
          cases hds : s.devState <;> simp_all [DevState.busy]
        quiet := rfl
        inside := fun x hlo hhi => by
          have hx := h.progress.inside (by simp [hph]) x (hstart ▸ hlo) (by omega) (DevState.covers_of_not_busy hb x)
          rw [State.intended, h.reqAddr, hpcur, h.buf] at hx
          exact hx
        outside := fun x hx hc => h.progress.outside x (by rwa [hstart, hee]) hc
        commands := by
          have hcmd := h.commands
          rw [hleft, List.append_nil] at hcmd
          simpa [h.cfg, commandsOn_statusFrame] using hcmd }
  · exact absurd h0 (hne hv)

end

theorem WriteCompletes.ended {a l : U32} {data : List Byte} {s t : State} (h : WriteCompletes a l data s t)
    (hinv : Invariant s) : WriteEnded a l data s t := by
  obtain ⟨hp, ⟨m, n, hm, hmi, hmn, hn⟩, hi, hv, h0⟩ := h
  exact ((hp.underway hinv hm hmi).within hmn).ended hn hi hv h0

/-! ## The obligations -/

theorem WriteEnded.read {a l : U32} {data : List Byte} {s t : State} (h : WriteEnded a l data s t) {i : Nat}
    (hi : i < l.toNat) : t.flash.read (a.toNat + i) = data[i]? := by
  have hlo : floorTo sectorSize a.toNat ≤ a.toNat + i := by simp only [floorTo, sectorSize]; omega
  have hhi : a.toNat + i < ceilTo sectorSize (a.toNat + l.toNat) := by simp only [ceilTo, sectorSize]; omega
  rw [h.inside _ hlo hhi, if_pos ⟨by omega, by omega⟩, Nat.add_sub_cancel_left]

/-- Settles O52: what the write left, read back byte by byte. -/
theorem writeRoundTrip : Obligations.WriteRoundTrip := by
  intro s t a l data hinv h hlen
  have hend := h.ended hinv
  rw [Memory.readRange_eq]
  refine List.ext_getElem (by simp [hlen]) fun i hi _ => ?_
  have hil : i < l.toNat := by simpa using hi
  simp [hend.read hil, List.getElem?_eq_getElem (hil.trans_le hlen)]

/-- A write that follows a finished one with the same operands finds the array as it leaves it (R87). -/
theorem WriteEnded.flash_eq {a l : U32} {data : List Byte} {s t u : State} (h : WriteEnded a l data s t)
    (h' : WriteEnded a l data t u) : u.flash = t.flash := by
  refine Memory.eq_of_read h'.invariant.flash h.invariant.flash fun x => ?_
  by_cases hx : floorTo sectorSize a.toNat ≤ x ∧ x < ceilTo sectorSize (a.toNat + l.toNat)
  · rw [h'.inside x hx.1 hx.2, h.inside x hx.1 hx.2]
  · exact h'.outside x (by omega) (DevState.covers_of_not_busy (by rw [h.device]; rfl) x)

/-- Settles O54: both writes leave the same bytes inside the rounded range, the second none outside, and each sends its
whole plan. -/
theorem writeIsIdempotent : Obligations.WriteIsIdempotent := by
  intro s t u a l data hinv h h'
  have hend := h.ended hinv
  have hend' := h'.ended hend.invariant
  exact ⟨hend.flash_eq hend', hend.commands, hend.cfg ▸ hend'.commands⟩

end Sys2Proof.Machine
end

section
/-! The obligations of spec/30_encoding.md about the two encoding levels (R100, R105 to R117): said once, which byte
streams are commands, and of which instruction; from it, that the decoder and the encoder agree both ways. -/

namespace Sys2Proof

/-! ## Addresses as bytes -/

theorem fromBe_lt (bs : List Byte) : fromBe bs < 256 ^ bs.length := by
  induction bs with
  | nil => simp [fromBe]
  | cons b bs ih =>
    have hb : (b.toNat + 1) * 256 ^ bs.length ≤ 256 * 256 ^ bs.length := Nat.mul_le_mul_right _ b.isLt
    rw [fromBe, List.length_cons, pow_succ']
    linarith

/-- What stands above the bytes written does not matter. -/
theorem beBytes_mul_add (n k v : Nat) : beBytes n (k * 256 ^ n + v) = beBytes n v := by
  induction n generalizing k with
  | zero => rfl
  | succ n ih =>
    have hk : k * 256 ^ (n + 1) = k * 256 * 256 ^ n := by rw [pow_succ, mul_assoc, mul_comm 256]
    have hd : (k * 256 * 256 ^ n + v) / 256 ^ n = k * 256 + v / 256 ^ n := by
      rw [add_comm, Nat.add_mul_div_right _ _ (by positivity), add_comm]
    have hb : BitVec.ofNat 8 (k * 256 + v / 256 ^ n) = BitVec.ofNat 8 (v / 256 ^ n) :=
      BitVec.eq_of_toNat_eq (by simp)
    rw [hk, beBytes, beBytes, hd, hb, ih]

theorem beBytes_fromBe (bs : List Byte) : beBytes bs.length (fromBe bs) = bs := by
  induction bs with
  | nil => rfl
  | cons b bs ih =>
    have hd : (b.toNat * 256 ^ bs.length + fromBe bs) / 256 ^ bs.length = b.toNat := by
      rw [add_comm, Nat.add_mul_div_right _ _ (by positivity), Nat.div_eq_of_lt (fromBe_lt bs), zero_add]
    rw [fromBe, List.length_cons, beBytes, hd, beBytes_mul_add, ih, BitVec.ofNat_toNat, BitVec.setWidth_eq]

/-- Some bytes are an address's exactly when the address is the word read from them. -/
theorem eq_beBytes_iff {n : Nat} {bs : List Byte} (hl : bs.length = n) (a : BitVec (8 * n)) :
    bs = beBytes n a.toNat ↔ a = BitVec.ofNat (8 * n) (fromBe bs) := by
  subst hl
  constructor
  · intro h
    have hv : fromBe bs = a.toNat := (congrArg fromBe h).trans (fromBe_beBytes _ _ a.isLt)
    rw [hv, BitVec.ofNat_toNat, BitVec.setWidth_eq]
  · rintro rfl
    have hlt : fromBe bs < 2 ^ (8 * bs.length) := by
      rw [pow_mul]
      exact fromBe_lt bs
    rw [BitVec.toNat_ofNat, Nat.mod_eq_of_lt hlt, beBytes_fromBe]

theorem eq_beBytes_append_iff {n v : Nat} {bs data : List Byte} :
    bs = beBytes n v ++ data ↔ n ≤ bs.length ∧ bs.take n = beBytes n v ∧ bs.drop n = data := by
  constructor
  · rintro rfl
    simp
  · rintro ⟨-, ht, hd⟩
    rw [← ht, ← hd, List.take_append_drop]

/-! ## Which byte streams are commands -/

/-- The byte streams that are the command `i` under `c` (R105, R109, R110): its opcode, then an address of
`CFG.ADDR_BYTES` bytes and any payload, or read-unique-id's dummy bytes of any value (R76). -/
inductive CommandBytes (c : Cfg) : List Byte → Instr → Prop
  | wren : CommandBytes c [c.opc.wren] .wren
  | rdsr : CommandBytes c [c.opc.rdsr] .rdsr
  | pp3 (h : c.addrBytes = 3) (a : BitVec 24) (data : List Byte) :
      CommandBytes c (c.opc.pp :: (beBytes 3 a.toNat ++ data)) (.pp3 a data)
  | pp4 (h : c.addrBytes = 4) (a : BitVec 32) (data : List Byte) :
      CommandBytes c (c.opc.pp :: (beBytes 4 a.toNat ++ data)) (.pp4 a data)
  | se3 (h : c.addrBytes = 3) (a : BitVec 24) : CommandBytes c (c.opc.se :: beBytes 3 a.toNat) (.se3 a)
  | se4 (h : c.addrBytes = 4) (a : BitVec 32) : CommandBytes c (c.opc.se :: beBytes 4 a.toNat) (.se4 a)
  | be3 (h : c.addrBytes = 3) (a : BitVec 24) : CommandBytes c (c.opc.be :: beBytes 3 a.toNat) (.be3 a)
  | be4 (h : c.addrBytes = 4) (a : BitVec 32) : CommandBytes c (c.opc.be :: beBytes 4 a.toNat) (.be4 a)
  | rdid : CommandBytes c [c.opc.rdid] .rdid
  | ruid (dummies : List Byte) (h : dummies.length = c.uidDummy) : CommandBytes c (c.opc.ruid :: dummies) .ruid

theorem decodeBare_eq_ok_iff {i j : Instr} {rest : List Byte} : decodeBare i rest = .ok j ↔ rest = [] ∧ i = j := by
  cases rest <;> simp [decodeBare]

/-- An erase decodes in the configuration's addressing mode, from exactly its address bytes. -/
theorem decodeErase_eq_ok_iff {c : Cfg} {k3 : BitVec 24 → Instr} {k4 : BitVec 32 → Instr} {rest : List Byte}
    {i : Instr} : decodeErase c k3 k4 rest = .ok i ↔
      (c.addrBytes = 3 ∧ ∃ a : BitVec 24, rest = beBytes 3 a.toNat ∧ k3 a = i) ∨
      (c.addrBytes = 4 ∧ ∃ a : BitVec 32, rest = beBytes 4 a.toNat ∧ k4 a = i) := by
  unfold decodeErase
  split
  · next hl =>
    simp only [reduceCtorEq, false_iff]
    rintro (⟨h3, a, rfl, -⟩ | ⟨h4, a, rfl, -⟩)
    · simp [h3] at hl
    · simp [h4] at hl
  · next hl =>
    rw [not_not] at hl
    split
    · next h3 =>
      have hr : ∀ a : BitVec 24, rest = beBytes 3 a.toNat ↔ a = BitVec.ofNat 24 (fromBe rest) :=
        eq_beBytes_iff (hl.trans h3)
      simp [h3, hr]
    · split
      · next h4 =>
        have hr : ∀ a : BitVec 32, rest = beBytes 4 a.toNat ↔ a = BitVec.ofNat 32 (fromBe rest) :=
          eq_beBytes_iff (hl.trans h4)
        simp [h4, hr]
      · next h3 h4 => simp [h3, h4]

/-- A page-program decodes in the configuration's addressing mode, what follows its address being its payload. -/
theorem decodeProgram_eq_ok_iff {c : Cfg} {rest : List Byte} {i : Instr} : decodeProgram c rest = .ok i ↔
      (c.addrBytes = 3 ∧ ∃ (a : BitVec 24) (data : List Byte), rest = beBytes 3 a.toNat ++ data ∧ .pp3 a data = i) ∨
      (c.addrBytes = 4 ∧ ∃ (a : BitVec 32) (data : List Byte), rest = beBytes 4 a.toNat ++ data ∧ .pp4 a data = i) := by
  unfold decodeProgram
  split
  · next hl =>
    simp only [reduceCtorEq, false_iff]
    rintro (⟨h3, a, data, rfl, -⟩ | ⟨h4, a, data, rfl, -⟩)
    · simp [h3] at hl
    · simp [h4] at hl
  · next hl =>
    rw [not_lt] at hl
    split
    · next h3 =>
      rw [h3] at hl
      have hr : ∀ a : BitVec 24, rest.take 3 = beBytes 3 a.toNat ↔ a = BitVec.ofNat 24 (fromBe (rest.take 3)) :=
        eq_beBytes_iff (List.length_take_of_le hl)
      simp [h3, eq_beBytes_append_iff, hr, hl]
    · split
      · next h4 =>
        rw [h4] at hl
        have hr : ∀ a : BitVec 32, rest.take 4 = beBytes 4 a.toNat ↔ a = BitVec.ofNat 32 (fromBe (rest.take 4)) :=
          eq_beBytes_iff (List.length_take_of_le hl)
        simp [h4, eq_beBytes_append_iff, hr, hl]
      · next h3 h4 => simp [h3, h4]

/-- Bytes that decode are the bytes of a command: the first byte is the command's opcode. -/
theorem commandBytes_of_decodeBytes {c : Cfg} {bytes : List Byte} {i : Instr} (h : decodeBytes c bytes = .ok i) :
    CommandBytes c bytes i := by
  cases bytes with
  | nil => simp [decodeBytes] at h
  | cons b rest =>
    simp only [decodeBytes] at h
    split_ifs at h with hb hb hb hb hb hb hb hd
    · obtain ⟨rfl, rfl⟩ := decodeBare_eq_ok_iff.mp h
      exact hb ▸ .wren
    · obtain ⟨rfl, rfl⟩ := decodeBare_eq_ok_iff.mp h
      exact hb ▸ .rdsr
    · obtain ⟨h3, a, data, rfl, rfl⟩ | ⟨h4, a, data, rfl, rfl⟩ := decodeProgram_eq_ok_iff.mp h
      · exact hb ▸ .pp3 h3 a data
      · exact hb ▸ .pp4 h4 a data
    · obtain ⟨h3, a, rfl, rfl⟩ | ⟨h4, a, rfl, rfl⟩ := decodeErase_eq_ok_iff.mp h
      · exact hb ▸ .se3 h3 a
      · exact hb ▸ .se4 h4 a
    · obtain ⟨h3, a, rfl, rfl⟩ | ⟨h4, a, rfl, rfl⟩ := decodeErase_eq_ok_iff.mp h
      · exact hb ▸ .be3 h3 a
      · exact hb ▸ .be4 h4 a
    · obtain ⟨rfl, rfl⟩ := decodeBare_eq_ok_iff.mp h
      exact hb ▸ .rdid
    · obtain rfl := Except.ok.inj h
      exact hb ▸ .ruid rest hd

/-- The bytes of a command decode to it: under a legal configuration no other opcode is taken for its own. -/
theorem decodeBytes_of_commandBytes {c : Cfg} (hc : c.Legal) {bytes : List Byte} {i : Instr}
    (h : CommandBytes c bytes i) : decodeBytes c bytes = .ok i := by
  obtain ⟨hr, ⟨hp1, hp2⟩, ⟨hs1, hs2, hs3⟩, ⟨hb1, hb2, hb3, hb4⟩, ⟨hi1, hi2, hi3, hi4, hi5⟩,
    ⟨hu1, hu2, hu3, hu4, hu5, hu6⟩⟩ := legal_opcodes hc
  cases h with
  | wren => simp [decodeBytes, decodeBare]
  | rdsr => simp [decodeBytes, hr, decodeBare]
  | pp3 h3 a data =>
    simpa [decodeBytes, hp1, hp2] using decodeProgram_eq_ok_iff.mpr (.inl ⟨h3, a, data, rfl, rfl⟩)
  | pp4 h4 a data =>
    simpa [decodeBytes, hp1, hp2] using decodeProgram_eq_ok_iff.mpr (.inr ⟨h4, a, data, rfl, rfl⟩)
  | se3 h3 a =>
    simpa [decodeBytes, hs1, hs2, hs3] using decodeErase_eq_ok_iff.mpr (.inl ⟨h3, a, rfl, rfl⟩)
  | se4 h4 a =>
    simpa [decodeBytes, hs1, hs2, hs3] using decodeErase_eq_ok_iff.mpr (.inr ⟨h4, a, rfl, rfl⟩)
  | be3 h3 a =>
    simpa [decodeBytes, hb1, hb2, hb3, hb4] using decodeErase_eq_ok_iff.mpr (.inl ⟨h3, a, rfl, rfl⟩)
  | be4 h4 a =>
    simpa [decodeBytes, hb1, hb2, hb3, hb4] using decodeErase_eq_ok_iff.mpr (.inr ⟨h4, a, rfl, rfl⟩)
  | rdid => simp [decodeBytes, hi1, hi2, hi3, hi4, hi5, decodeBare]
  | ruid dummies hd => simp [decodeBytes, hu1, hu2, hu3, hu4, hu5, hu6, hd]

/-- A frame decodes to the command of its byte stream, if it reads as many bytes as that command returns (R105). -/
theorem decodeFrame_eq_ok_iff {c : Cfg} (hc : c.Legal) {d : Descriptor} {i : Instr} :
    decodeFrame c d = .ok i ↔ CommandBytes c (d.commandBytes ++ d.writePayload) i ∧ d.readLen = replyLen c i := by
  unfold decodeFrame
  constructor
  · intro h
    split at h
    · simp at h
    · next hb =>
      split at h
      · next hr =>
        obtain rfl := Except.ok.inj h
        exact ⟨commandBytes_of_decodeBytes hb, hr⟩
      · simp at h
  · rintro ⟨hb, hr⟩
    simp [decodeBytes_of_commandBytes hc hb, hr]

theorem CommandBytes.opcode_mem {c : Cfg} {b : Byte} {rest : List Byte} {i : Instr}
    (h : CommandBytes c (b :: rest) i) : b ∈ c.opc.toList := by
  cases h <;> simp [Opcodes.toList]

/-! ## The encoder against the decoder -/

theorem addrBytes_of_eraseIllFormed {c : Cfg} {width size a : Nat} (h : eraseIllFormed c width size a = none) :
    c.addrBytes = width := by
  by_contra hn
  simp [eraseIllFormed, hn] at h

theorem addrBytes_of_programIllFormed {c : Cfg} {width a n : Nat} (h : programIllFormed c width a n = none) :
    c.addrBytes = width := by
  by_contra hn
  simp [programIllFormed, hn] at h

/-- The command's frame carries the command's bytes: a well-formed instruction has its configuration's addressing
mode (R106). -/
theorem commandBytes_of_encode {c : Cfg} {i : Instr} {d : Descriptor} (hi : i.illFormed? c = none)
    (h : encode c i = .frame d) : CommandBytes c (d.commandBytes ++ d.writePayload) i ∧ d.readLen = replyLen c i := by
  cases i <;> simp only [encode, Encoded.frame.injEq, reduceCtorEq] at h <;> subst h
  case wren => exact ⟨.wren, rfl⟩
  case rdsr => exact ⟨.rdsr, rfl⟩
  case rdid => exact ⟨.rdid, rfl⟩
  case ruid =>
    have hb : CommandBytes c (c.opc.ruid :: List.replicate c.uidDummy 0) .ruid := .ruid _ List.length_replicate
    exact ⟨by simpa [frameOpZR] using hb, rfl⟩
  case pp3 a data => exact ⟨.pp3 (addrBytes_of_programIllFormed hi) a data, rfl⟩
  case pp4 a data => exact ⟨.pp4 (addrBytes_of_programIllFormed hi) a data, rfl⟩
  case se3 a => exact ⟨.se3 (addrBytes_of_eraseIllFormed hi) a, rfl⟩
  case se4 a => exact ⟨.se4 (addrBytes_of_eraseIllFormed hi) a, rfl⟩
  case be3 a => exact ⟨.be3 (addrBytes_of_eraseIllFormed hi) a, rfl⟩
  case be4 a => exact ⟨.be4 (addrBytes_of_eraseIllFormed hi) a, rfl⟩

/-- The bytes of a command are those of its encoding, but for the values of read-unique-id's dummy bytes (R76). -/
theorem encode_of_commandBytes {c : Cfg} {bytes : List Byte} {i : Instr} (h : CommandBytes c bytes i) :
    ∃ e, encode c i = .frame e ∧ e.readLen = replyLen c i ∧
      (bytes = e.commandBytes ++ e.writePayload ∨
        i = .ruid ∧ ∃ dummies, dummies.length = c.uidDummy ∧ bytes = c.opc.ruid :: dummies) := by
  cases h with
  | ruid dummies hd => exact ⟨_, rfl, rfl, .inr ⟨rfl, dummies, hd, rfl⟩⟩
  | _ => exact ⟨_, rfl, rfl, .inl rfl⟩

/-! ## Request words -/

theorem requestCode_cases (op : BitVec 2) : op = 0 ∨ op = 1 ∨ op = 2 ∨ op = 3 := by
  revert op
  decide

/-- The fields stand at 65:64, 63:32 and 31:0 (R115). -/
theorem requestWord_toNat (op : BitVec 2) (a l : U32) :
    (requestWord op a l).toNat = op.toNat * 2 ^ 64 + a.toNat * 2 ^ 32 + l.toNat := by
  show (op ++ a ++ l : BitVec (2 + 32 + 32)).toNat = _
  rw [BitVec.toNat_append, BitVec.toNat_append, ← Nat.shiftLeft_add_eq_or_of_lt a.isLt,
    ← Nat.shiftLeft_add_eq_or_of_lt l.isLt, Nat.shiftLeft_eq, Nat.shiftLeft_eq]
  omega

/-- A request word decodes to the request whose fields it carries. -/
theorem decodeRequest_of_encode {c : Cfg} {i : Instr} {w : BitVec 66} (h : encode c i = .request w) :
    decodeRequest w = i := by
  cases i <;> simp only [encode, Encoded.request.injEq, reduceCtorEq] at h <;> subst h <;> simp [decodeRequest]

/-- Every word is the encoding of what it decodes to: the code that selects a request is the one it is encoded with. -/
theorem encode_decodeRequest (c : Cfg) (w : BitVec 66) : encode c (decodeRequest w) = .request w := by
  have hw := requestWord_fields w
  rcases requestCode_cases (requestOp w) with h | h | h | h <;> rw [h] at hw <;>
    simpa [decodeRequest, h, encode] using hw

/-! ## The obligations about encodings -/

/-- Settles O1: a command's frame carries the command's bytes, which decode to it; a request word keeps its fields. -/
theorem decodeEncodeRoundTrip : Obligations.DecodeEncodeRoundTrip := by
  intro c i hc hw
  cases he : encode c i with
  | frame d => exact (decodeFrame_eq_ok_iff hc).mpr (commandBytes_of_encode (Option.isNone_iff_eq_none.mp hw) he)
  | request w => exact congrArg Except.ok (decodeRequest_of_encode he)

/-- Settles O2: a frame that decodes carries the bytes of its command, and these are the encoding's. -/
theorem decodedFrameReencodes : Obligations.DecodedFrameReencodes := by
  intro c d i hc h
  obtain ⟨hb, hr⟩ := (decodeFrame_eq_ok_iff hc).mp h
  obtain ⟨e, he, hre, hbytes | ⟨rfl, dummies, hd, hbytes⟩⟩ := encode_of_commandBytes hb
  · exact ⟨e, he, hr.trans hre.symm, congrArg _ hbytes, congrArg _ hbytes, fun _ => hbytes⟩
  · obtain rfl := Encoded.frame.inj he
    exact ⟨_, rfl, hr, by simp [hbytes, hd, frameOpZR], by simp [hbytes, frameOpZR], fun hn => absurd rfl hn⟩

/-- Settles O5: the decoder tries the seven opcodes and no other; bytes that decode are a command's. -/
theorem sevenOpcodesOnly : Obligations.SevenOpcodesOnly := by
  intro c b rest
  refine ⟨fun hb => ?_, fun i h => (commandBytes_of_decodeBytes h).opcode_mem⟩
  simp only [Opcodes.toList, List.mem_cons, List.not_mem_nil, or_false, not_or] at hb
  obtain ⟨h1, h2, h3, h4, h5, h6, h7⟩ := hb
  simp [decodeBytes, h1, h2, h3, h4, h5, h6, h7]

/-- Settles O4: each of R114's lines is computed, the encoder's and the decoder's. -/
theorem workedEncodings : Obligations.WorkedEncodings :=
  ⟨⟨rfl, rfl⟩, ⟨rfl, rfl⟩, ⟨rfl, rfl⟩, ⟨rfl, rfl⟩, ⟨rfl, rfl⟩, ⟨rfl, rfl⟩, ⟨rfl, rfl⟩, ⟨rfl, rfl⟩⟩

/-- Settles O3: the word is its fields side by side, and decoding reads them and the code. -/
theorem requestWordRoundTrip : Obligations.RequestWordRoundTrip := by
  refine ⟨fun op a l => ⟨requestWord_toNat op a l, ?_⟩, encode_decodeRequest⟩
  rcases requestCode_cases op with rfl | rfl | rfl | rfl <;> simp [decodeRequest]

end Sys2Proof
end

section
/-! The obligations about what a step does with a frame or a request: at most one frame a step (R104), the reserved
request code (R117), the rows of the other addressing mode (R106). -/

namespace Sys2Proof.Machine

/-- After a frame, and what follows its outcome, chip-select is released, on an error too (R104). -/
theorem CommandFrame.cs_of_sendFrame {s t : State} {d : Descriptor} {r : Except DeviceFault DeviceReply}
    {k : FrameOutcome → State → State} (hk : CommandFrame s d r k) (h : sendFrame d r k s = .next t) :
    t.cs = false := by
  have hcs : ∀ o u, (k o u).cs = u.cs := by
    intro o u
    cases hk <;> simp
  rcases sendFrame_next h with ⟨a, -, rfl⟩ | ⟨f, e, -, -, rfl⟩ <;> rw [hcs, busFrame_cs]

/-- A step that sends adds exactly its frame to the bus. -/
theorem Sends.frame {s t : State} (h : Sends s t) : t.cs = false ∧ ∃ d o, t.bus = frameEvents d o ++ s.bus := by
  obtain ⟨d, r, k, hk, hs⟩ := h
  obtain ⟨o, u, ht, hu, -⟩ := sendFrame_next_framed hs
  exact ⟨hk.cs_of_sendFrame hs, d, o, by rw [ht, hk.bus, hu.bus]⟩

/-- Settles O41: the reset event and the device's step leave the bus alone, and so does the accept step in `IDLE`; in
any other phase the controller sends one command frame or none. -/
theorem oneFramePerStep : Obligations.OneFramePerStep := by
  intro s t h
  obtain ⟨-, u, rfl, ⟨-, rfl⟩ | ⟨-, rfl⟩ | ⟨ha, hc⟩⟩ := step_next h
  · exact .inl rfl
  · exact .inl (frameless_deviceComplete s).bus
  · by_cases hp : s.phase = .idle
    · rw [controllerStep_idle hp] at hc
      exact .inl (acceptStep_frameless hp hc).bus
    · rcases controllerStep_next hc with hs | hf
      · obtain ⟨hcs, d, o, hb⟩ := hs.frame
        exact .inr ⟨d, o, hb, hcs, ha, hp⟩
      · exact .inl hf.bus

/-- Settles O15: in `IDLE` the reserved code is latched and raised. -/
theorem reservedCodeRaises : Obligations.ReservedCodeRaises := by
  intro s a l hp
  obtain ⟨-, -, -, h⟩ := exec_request_idle hp a l
  exact h

theorem eraseCommand_otherMode {n : Nat} {s : State} (h : s.cfg.addrBytes ≠ n) (opc : Byte) (size a : Nat) :
    eraseCommand n opc size a s = .refused .addressingMode :=
  if_neg h

theorem programCommand_otherMode {n : Nat} {s : State} (h : s.cfg.addrBytes ≠ n) (a : Nat) (data : List Byte) :
    programCommand n a data s = .refused .addressingMode :=
  if_neg h

/-- Settles O27: each of the six rows is the erase or program command of its own number of address bytes. -/
theorem otherAddressingModeRefused : Obligations.OtherAddressingModeRefused := fun _ =>
  ⟨fun h _ _ => ⟨programCommand_otherMode h _ _, eraseCommand_otherMode h _ _ _, eraseCommand_otherMode h _ _ _⟩,
    fun h _ _ => ⟨programCommand_otherMode h _ _, eraseCommand_otherMode h _ _ _, eraseCommand_otherMode h _ _ _⟩⟩

end Sys2Proof.Machine
end

section
/-! The obligations of spec/40_command_encoder.md (R132 to R141): said once, what the encoder makes of each call of its
own, which instruction that frame is, and that only the check of R140 refuses a call by a violated precondition. -/

namespace Sys2Proof.Machine

/-! ## What the encoder answers to an erase (R135, R136, R139) -/

theorem encodeOp_erase_otherSize (c : Cfg) {size : Nat} (hs : ¬ (size = sectorSize ∨ size = blockSize)) (a : Nat) :
    encodeOp c (.erase size a) = .error size := by
  obtain ⟨hsec, hblk⟩ := not_or.mp hs
  simp [encodeOp, hsec, hblk]

section
variable {c : Cfg} (h : c.Legal)
include h

theorem encodeOp_erase {size : Nat} (hs : size = sectorSize ∨ size = blockSize) (a : Nat) :
    encodeOp c (.erase size a) = .ok (frameOpA c.addrBytes (eraseOpcode c size) a) := by
  have he := legal_eraseSet h
  have hne : blockSize ≠ sectorSize := by decide
  rcases hs with rfl | rfl
  · simp [encodeOp, he, eraseOpcode, hne.symm]
  · simp [encodeOp, he, eraseOpcode, hne]

/-! ## The instruction of a call -/

/-- The erase of a unit that the address bytes can carry: its frame, and what is wrong with it. -/
theorem eraseInstr_spec {size a : Nat} (hs : size = sectorSize ∨ size = blockSize) (ha : a < 2 ^ (8 * c.addrBytes)) :
    encode c (eraseInstr c size a) = .frame (frameOpA c.addrBytes (eraseOpcode c size) a) ∧
      (eraseInstr c size a).illFormed? c = eraseIllFormed c c.addrBytes size a := by
  have hne : sectorSize ≠ blockSize := by decide
  rcases legal_addrBytes h with hn | hn
  · have hm : a % 16777216 = a := Nat.mod_eq_of_lt (by simpa [hn] using ha)
    rcases hs with rfl | rfl <;> simp [eraseInstr, eraseOpcode, hn, hne, encode, Instr.illFormed?, hm]
  · have hm : a % 4294967296 = a := Nat.mod_eq_of_lt (by simpa [hn] using ha)
    rcases hs with rfl | rfl <;> simp [eraseInstr, eraseOpcode, hn, hne, encode, Instr.illFormed?, hm]

/-- The page-program at an address that the address bytes can carry: its frame, and what is wrong with it. -/
theorem programInstr_spec {a : Nat} (ha : a < 2 ^ (8 * c.addrBytes)) (data : List Byte) :
    encode c (programInstr c a data) = .frame (frameOpAD c.addrBytes c.opc.pp a data) ∧
      (programInstr c a data).illFormed? c = programIllFormed c c.addrBytes a data.length := by
  rcases legal_addrBytes h with hn | hn
  · have hm : a % 16777216 = a := Nat.mod_eq_of_lt (by simpa [hn] using ha)
    simp [programInstr, hn, encode, Instr.illFormed?, hm]
  · have hm : a % 4294967296 = a := Nat.mod_eq_of_lt (by simpa [hn] using ha)
    simp [programInstr, hn, encode, Instr.illFormed?, hm]

/-- A call that violates no precondition asks for an erase of another size, or its frame is the encoding of an
instruction that violates none. -/
theorem encodeOp_of_wellFormed {op : LogicalOp} (hw : op.illFormed? c = none) :
    (∃ size, encodeOp c op = .error size ∧ ¬ (size = sectorSize ∨ size = blockSize)) ∨
    ∃ d i, encodeOp c op = .ok d ∧ encode c i = .frame d ∧ i.illFormed? c = none := by
  cases op with
  | writeEnable => exact .inr ⟨_, .wren, rfl, rfl, rfl⟩
  | readStatus => exact .inr ⟨_, .rdsr, rfl, rfl, rfl⟩
  | readId => exact .inr ⟨_, .rdid, rfl, rfl, rfl⟩
  | readUniqueId => exact .inr ⟨_, .ruid, rfl, rfl, rfl⟩
  | pageProgram a data =>
    simp only [LogicalOp.illFormed?] at hw
    split at hw
    · simp at hw
    · next ha =>
      obtain ⟨hi, hill⟩ := programInstr_spec h (not_le.mp ha) data
      exact .inr ⟨_, _, rfl, hi, hill.trans hw⟩
  | erase size a =>
    by_cases hs : size = sectorSize ∨ size = blockSize
    · have hm : size ∈ c.eraseSet := by simpa [legal_eraseSet h] using hs
      simp only [LogicalOp.illFormed?, hm, not_true_eq_false, if_false] at hw
      split at hw
      · simp at hw
      · next ha =>
        obtain ⟨hi, hill⟩ := eraseInstr_spec h hs (not_le.mp ha)
        exact .inr ⟨_, _, encodeOp_erase h hs a, hi, hill.trans hw⟩
    · exact .inl ⟨size, encodeOp_erase_otherSize _ hs a, hs⟩

end

/-! ## What refuses a call -/

theorem eraseCommand_refused {n size a : Nat} {opc : Byte} {s : State} {x : Refusal}
    (h : eraseCommand n opc size a s = .refused x) : x = .addressingMode := by
  unfold eraseCommand at h
  split at h
  · exact absurd h (sendFrame_ne_refused _ _ _ s x)
  · exact (Host.Outcome.refused.inj h).symm

theorem programCommand_refused {n a : Nat} {data : List Byte} {s : State} {x : Refusal}
    (h : programCommand n a data s = .refused x) : x = .addressingMode := by
  unfold programCommand at h
  split at h
  · exact absurd h (sendFrame_ne_refused _ _ _ s x)
  · exact (Host.Outcome.refused.inj h).symm

/-- A request is accepted or held, never refused (R25). -/
theorem whenIdle_ne_refused (accept : State → State) (s : State) (x : Refusal) : whenIdle accept s ≠ .refused x := by
  unfold whenIdle
  split <;> simp

/-- An instruction is refused for its addressing mode only (R106). -/
theorem exec_refused {i : Instr} {s : State} {x : Refusal} (h : exec i s = .refused x) : x = .addressingMode := by
  cases i with
  | wren | rdsr | rdid | ruid =>
    simp only [exec, execWren, execRdsr, execRdid, execRuid] at h
    exact absurd h (sendFrame_ne_refused _ _ _ s x)
  | se3 | be3 | se4 | be4 => exact eraseCommand_refused h
  | pp3 | pp4 => exact programCommand_refused h
  | writeStream | readId | readUniqueId | reservedOp0 =>
    simp only [exec, execWriteStream, execReadId, execReadUniqueId, execReservedOp0] at h
    exact absurd h (whenIdle_ne_refused _ s x)

theorem sendOp_of_encoderError {s : State} {op : LogicalOp} {size : Nat} (he : encodeOp s.cfg op = .error size) :
    sendOp op s = .next (raise (.unsupportedOperation size) s) := by
  simp [sendOp, he]

/-- A call that is sent is not refused for a precondition: its frame's instruction runs. -/
theorem sendOp_ne_encoderPrecondition (op : LogicalOp) (s : State) (why : IllFormed) :
    sendOp op s ≠ .refused (.encoderPrecondition why) := by
  intro h
  unfold sendOp at h
  split at h
  · simp at h
  · split at h
    · simp at h
    · exact absurd (exec_refused h) (by simp)

/-- A call is refused for a precondition exactly when it violates one (R140). -/
theorem commandStep_refused_iff (op : LogicalOp) (s : State) :
    (∃ why, commandStep op s = .refused (.encoderPrecondition why)) ↔ ¬ op.illFormed? s.cfg = none := by
  rcases commandStep_cases op s with ⟨why, hi, hr⟩ | ⟨hi, hs⟩
  · simp [hi, hr]
  · simp [hi, hs, sendOp_ne_encoderPrecondition]

/-! ## The obligations about the encoder -/

/-- Settles O6: the erases by their two sizes and by any other, the other rows by the encoder's definition. -/
theorem encoderTable : Obligations.EncoderTable := fun _ h =>
  ⟨rfl, rfl, fun _ _ => rfl, encodeOp_erase h (.inl rfl), encodeOp_erase h (.inr rfl),
    fun _ a hsec hblk => encodeOp_erase_otherSize _ (not_or.mpr ⟨hsec, hblk⟩) a, rfl, rfl⟩

/-- Settles O7: a call is refused exactly when the check finds something wrong with it; one that is sent ends in the
encoder's error, or its frame is that of a well-formed instruction, which decodes to it. -/
theorem encoderCallsRefused : Obligations.EncoderCallsRefused := by
  intro s h
  refine ⟨fun size a hs => ?_, fun a data => ?_, fun op => ?_⟩
  · rw [commandStep_refused_iff, erase_illFormed_iff h hs]
  · rw [commandStep_refused_iff, pageProgram_illFormed_iff h]
  · rcases commandStep_cases op s with ⟨why, -, hr⟩ | ⟨hw, hs⟩
    · exact .inl ⟨why, hr⟩
    · rcases encodeOp_of_wellFormed h hw with ⟨size, he, hsize⟩ | ⟨d, i, he, hi, hill⟩
      · obtain ⟨hsec, hblk⟩ := not_or.mp hsize
        exact .inr (.inl ⟨size, he, hsec, hblk, hs.trans (sendOp_of_encoderError he)⟩)
      · have hd : decodeFrame s.cfg d = .ok i := (decodeFrame_eq_ok_iff h).mpr (commandBytes_of_encode hill hi)
        exact .inr (.inr ⟨d, i, he, hd, Option.isNone_iff_eq_none.mpr hill, hi, hs.trans (sendOp_of_decoded he hd)⟩)

end Sys2Proof.Machine
end

section
/-! The obligations of spec/41_erase_unit_planner.md (R160 to R173): what abutting pieces have in common, then the units
from a cursor and how many they are, then the chunks from a cursor and the list they are from a page boundary on. -/

namespace Sys2Proof.Machine

/-! ## Abutting pieces (R166, R172) -/

@[simp] theorem abut_nil {lo hi : Nat} : Abut [] lo hi ↔ lo = hi := .rfl

@[simp] theorem abut_cons {u : Nat × Nat} {us : List (Nat × Nat)} {lo hi : Nat} :
    Abut (u :: us) lo hi ↔ u.1 = lo ∧ Abut us (lo + u.2) hi := .rfl

theorem Abut.le {us : List (Nat × Nat)} {lo hi : Nat} (h : Abut us lo hi) : lo ≤ hi := by
  induction us generalizing lo with
  | nil => exact Nat.le_of_eq h
  | cons u us ih => exact (Nat.le_add_right _ _).trans (ih h.2)

theorem Abut.bounds {us : List (Nat × Nat)} {lo hi : Nat} (h : Abut us lo hi) :
    ∀ u ∈ us, lo ≤ u.1 ∧ u.1 + u.2 ≤ hi := by
  induction us generalizing lo with
  | nil => simp
  | cons u us ih =>
    obtain ⟨rfl, hrest⟩ := h
    rintro v (_ | ⟨_, hv⟩)
    · exact ⟨Nat.le_refl _, hrest.le⟩
    · obtain ⟨hlo, hhi⟩ := ih hrest v hv
      exact ⟨by omega, hhi⟩

theorem Abut.pairwise {us : List (Nat × Nat)} {lo hi : Nat} (h : Abut us lo hi) :
    us.Pairwise (fun u v => u.1 + u.2 ≤ v.1) := by
  induction us generalizing lo with
  | nil => exact .nil
  | cons u us ih =>
    obtain ⟨rfl, hrest⟩ := h
    exact .cons (fun v hv => (hrest.bounds v hv).1) (ih hrest)

theorem Abut.covers {us : List (Nat × Nat)} {lo hi x : Nat} (h : Abut us lo hi) (hlo : lo ≤ x) (hhi : x < hi) :
    ∃ u ∈ us, u.1 ≤ x ∧ x < u.1 + u.2 := by
  induction us generalizing lo with
  | nil => rw [abut_nil] at h; omega
  | cons u us ih =>
    obtain ⟨rfl, hrest⟩ := h
    rcases Nat.lt_or_ge x (u.1 + u.2) with hx | hx
    · exact ⟨u, List.mem_cons_self, hlo, hx⟩
    · obtain ⟨v, hv, hin⟩ := ih hrest hx
      exact ⟨v, List.mem_cons_of_mem _ hv, hin⟩

@[simp] theorem tiles_nil {lo hi : Nat} : Tiles [] lo hi ↔ lo = hi := by simp [Tiles]

theorem tiles_cons {u : Nat × Nat} {us : List (Nat × Nat)} {lo hi : Nat} :
    Tiles (u :: us) lo hi ↔
      u.1 = lo ∧ (u.2 = sectorSize ∨ u.2 = blockSize) ∧ lo % u.2 = 0 ∧ Tiles us (lo + u.2) hi := by
  simp only [Tiles, abut_cons, List.forall_mem_cons]
  constructor
  · rintro ⟨⟨rfl, hrest⟩, ⟨hsize, halign⟩, hall⟩
    exact ⟨rfl, hsize, halign, hrest, hall⟩
  · rintro ⟨rfl, hsize, halign, hrest, hall⟩
    exact ⟨⟨rfl, hrest⟩, ⟨hsize, halign⟩, hall⟩

/-! ## The units from a cursor (R164, R168) -/

/-- A cursor that moves on below its end reaches it: what holds at the end and at a cursor when it holds at the next
one holds at every cursor. -/
theorem cursor_induction {e : Nat} {len : Nat → Nat} (hlen : ∀ c, c < e → 0 < len c) {P : Nat → Prop}
    (done : ∀ c, e ≤ c → P c) (next : ∀ c, c < e → P (c + len c) → P c) (c : Nat) : P c :=
  if h : c < e then next c h (cursor_induction hlen done next (c + len c)) else done c (Nat.le_of_not_lt h)
termination_by e - c
decreasing_by have := hlen c h; omega

theorem unit_induction {hi : Nat} {P : Nat → Prop} (done : ∀ c, hi ≤ c → P c)
    (next : ∀ c, c < hi → P (c + nextUnitSize c hi) → P c) (c : Nat) : P c :=
  cursor_induction (fun c _ => Nat.lt_of_lt_of_le (by decide) (sectorSize_le_nextUnitSize c hi)) done next c

theorem unitsFrom_tiles {c hi : Nat} (hc : c % 4096 = 0) (hhi : hi % 4096 = 0) (hle : c ≤ hi) :
    Tiles (unitsFrom c hi) c hi := by
  induction c using unit_induction (hi := hi) with
  | done c h => simpa [unitsFrom_of_le h] using Nat.le_antisymm hle h
  | next c h ih =>
    obtain ⟨hsize, halign, hend, hal⟩ := nextUnit_bounds h hc hhi
    rw [unitsFrom_of_lt h, tiles_cons]
    exact ⟨rfl, hsize, halign, ih hal hend⟩

/-- `m_lo` of R168: where the whole blocks of `[lo, hi)` start, or `hi`. -/
def blocksStart (lo hi : Nat) : Nat := min ((lo + 65535) / 65536 * 65536) hi

/-- `m_hi` of R168: where the whole blocks of `[lo, hi)` end. -/
def blocksEnd (lo hi : Nat) : Nat := max (hi / 65536 * 65536) (blocksStart lo hi)

/-- The number of units that R168 counts. -/
def unitCount (lo hi : Nat) : Nat :=
  (blocksStart lo hi - lo) / 4096 + (blocksEnd lo hi - blocksStart lo hi) / 65536 + (hi - blocksEnd lo hi) / 4096

/-- R168: when no whole aligned block lies in `[lo, hi)` the count is that of its sectors. -/
theorem unitCount_of_noBlock {lo hi : Nat} (hlo : lo % 4096 = 0) (hhi : hi % 4096 = 0)
    (h : hi < (lo + 65535) / 65536 * 65536 + 65536) : unitCount lo hi = (hi - lo) / 4096 := by
  have hend : blocksEnd lo hi = blocksStart lo hi := by unfold blocksEnd blocksStart; omega
  rw [unitCount, hend]
  unfold blocksStart
  omega

/-- When one does, the blocks between the two block boundaries count once each. -/
theorem unitCount_of_block {lo hi : Nat} (h : (lo + 65535) / 65536 * 65536 + 65536 ≤ hi) :
    unitCount lo hi = ((lo + 65535) / 65536 * 65536 - lo) / 4096 + (hi / 65536 - (lo + 65535) / 65536) +
      (hi - hi / 65536 * 65536) / 4096 := by
  have hstart : blocksStart lo hi = (lo + 65535) / 65536 * 65536 := by unfold blocksStart; omega
  have hend : blocksEnd lo hi = hi / 65536 * 65536 := by rw [blocksEnd, hstart]; omega
  rw [unitCount, hend, hstart]
  omega

/-- Where a whole block fits, it is one unit; after one sector of it instead, the other fifteen sectors remain. -/
theorem unitCount_blockStart {c hi : Nat} (hc : c % 65536 = 0) (hfit : c + 65536 ≤ hi) (hhi : hi % 4096 = 0) :
    unitCount c hi = unitCount (c + 65536) hi + 1 ∧ unitCount (c + 4096) hi = unitCount (c + 65536) hi + 15 := by
  rw [unitCount_of_block (lo := c) (by omega)]
  rcases Nat.lt_or_ge hi (c + 65536 + 65536) with hlast | hmore
  · rw [unitCount_of_noBlock (lo := c + 65536) (by omega) hhi (by omega),
      unitCount_of_noBlock (lo := c + 4096) (by omega) hhi (by omega)]
    omega
  · rw [unitCount_of_block (lo := c + 65536) (by omega), unitCount_of_block (lo := c + 4096) (by omega)]
    omega

theorem unitCount_sector {c hi : Nat} (h : c < hi) (hc : c % 4096 = 0) (hhi : hi % 4096 = 0)
    (hno : ¬ (c % 65536 = 0 ∧ c + 65536 ≤ hi)) : unitCount c hi = unitCount (c + 4096) hi + 1 := by
  rcases Nat.lt_or_ge hi ((c + 65535) / 65536 * 65536 + 65536) with hnone | hblock
  · have hceil : (c + 65535) / 65536 ≤ (c + 4096 + 65535) / 65536 := Nat.div_le_div_right (by omega)
    have hrest : hi < (c + 4096 + 65535) / 65536 * 65536 + 65536 :=
      hnone.trans_le (Nat.add_le_add_right (Nat.mul_le_mul_right _ hceil) _)
    rw [unitCount_of_noBlock hc hhi hnone, unitCount_of_noBlock (by omega) hhi hrest]
    omega
  · have hceil : (c + 4096 + 65535) / 65536 = (c + 65535) / 65536 := by omega
    rw [unitCount_of_block hblock, unitCount_of_block (by rwa [hceil]), hceil]
    omega

theorem unitCount_nextUnit {c hi : Nat} (h : c < hi) (hc : c % 4096 = 0) (hhi : hi % 4096 = 0) :
    unitCount c hi = unitCount (c + nextUnitSize c hi) hi + 1 := by
  rcases nextUnitSize_cases c hi with ⟨hs, halign, hfit⟩ | ⟨hs, hno⟩ <;> rw [hs]
  · exact (unitCount_blockStart halign hfit hhi).1
  · exact unitCount_sector h hc hhi hno

theorem length_unitsFrom {c hi : Nat} (hc : c % 4096 = 0) (hhi : hi % 4096 = 0) (hle : c ≤ hi) :
    (unitsFrom c hi).length = unitCount c hi := by
  induction c using unit_induction (hi := hi) with
  | done c h =>
    obtain rfl := Nat.le_antisymm hle h
    simp only [unitsFrom_of_le h, List.length_nil, unitCount, blocksStart, blocksEnd]
    omega
  | next c h ih =>
    obtain ⟨-, -, hend, hal⟩ := nextUnit_bounds h hc hhi
    rw [unitsFrom_of_lt h, List.length_cons, ih hal hend, unitCount_nextUnit h hc hhi]

/-- A unit that can start a partition is the next unit, or a sector where a whole block fits. -/
theorem unitSize_cases {c hi size : Nat} (hsize : size = sectorSize ∨ size = blockSize) (halign : c % size = 0)
    (hfit : c + size ≤ hi) :
    size = nextUnitSize c hi ∨ (size = sectorSize ∧ c % blockSize = 0 ∧ c + blockSize ≤ hi) := by
  rcases nextUnitSize_cases c hi with ⟨hs, hc, hb⟩ | ⟨hs, hno⟩
  · exact hsize.symm.imp (·.trans hs.symm) (⟨·, hc, hb⟩)
  · rcases hsize with rfl | rfl
    · exact .inl hs.symm
    · exact absurd ⟨halign, hfit⟩ hno

/-- No partition has fewer units than the planner's, and no other has as few (R168): one that takes the next unit is as
good as its rest, and one that takes a sector where a block fits is worse. -/
theorem unitsFrom_fewest {us : List (Nat × Nat)} {c hi : Nat} (hc : c % 4096 = 0) (hhi : hi % 4096 = 0)
    (h : Tiles us c hi) :
    (unitsFrom c hi).length ≤ us.length ∧ (us.length = (unitsFrom c hi).length → us = unitsFrom c hi) := by
  induction us generalizing c with
  | nil => simp [unitsFrom_of_le (tiles_nil.mp h).ge]
  | cons u us ih =>
    obtain ⟨rfl, hsize, halign, hrest⟩ := tiles_cons.mp h
    have hfit : u.1 + u.2 ≤ hi := hrest.1.le
    have hal : (u.1 + u.2) % 4096 = 0 := by
      rcases hsize with hs | hs <;> simp only [hs, sectorSize, blockSize] <;> omega
    have hlt : u.1 < hi := by
      rcases hsize with hs | hs <;> simp only [hs, sectorSize, blockSize] at hfit <;> omega
    obtain ⟨hlen, huniq⟩ := ih hal hrest
    rcases unitSize_cases hsize halign hfit with hs | ⟨hs, hblock, hbfit⟩
    · rw [unitsFrom_of_lt hlt, nextUnit, ← hs, List.length_cons, List.length_cons]
      exact ⟨Nat.succ_le_succ hlen, fun heq => by rw [huniq (Nat.succ.inj heq)]⟩
    · obtain ⟨hone, hfifteen⟩ := unitCount_blockStart hblock hbfit hhi
      rw [length_unitsFrom hal hhi hfit, hs, sectorSize] at hlen
      rw [length_unitsFrom hc hhi hlt.le, List.length_cons]
      omega

theorem plan_of_outOfBounds {c : Cfg} {a l : Nat} (h : c.capacity < a + l) : plan c a l = none := if_pos h

theorem plan_of_empty {c : Cfg} {a : Nat} (h : a ≤ c.capacity) : plan c a 0 = some [] := by
  simp [plan, Nat.not_lt.mpr h]

theorem plan_eq_unitsFrom {c : Cfg} {a l : Nat} (h : a + l ≤ c.capacity) (hl : 0 < l) :
    plan c a l = some (unitsFrom (a / 4096 * 4096) ((a + l + 4095) / 4096 * 4096)) := by
  rw [plan, if_neg (Nat.not_lt.mpr h), if_neg (Nat.ne_of_gt hl)]
  rfl

/-! ## The chunks from a cursor (R171, R172) -/

theorem chunk_induction {p e : Nat} (hp : 0 < p) {P : Nat → Prop} (done : ∀ c, e ≤ c → P c)
    (next : ∀ c, c < e → P (c + nextChunkLen p c e) → P c) (c : Nat) : P c :=
  cursor_induction (fun _ h => (nextChunk_bounds hp h).1) done next c

theorem chunksFrom_abut {p c e : Nat} (hp : 0 < p) (hle : c ≤ e) : Abut (chunksFrom p c e) c e := by
  induction c using chunk_induction hp (e := e) with
  | done c h => simpa [chunksFrom_of_le p h] using Nat.le_antisymm hle h
  | next c h ih =>
    rw [chunksFrom_of_lt hp h]
    exact ⟨rfl, ih (nextChunk_bounds hp h).2.2⟩

theorem chunksFrom_withinPage {p e : Nat} (hp : 0 < p) (c : Nat) :
    ∀ u ∈ chunksFrom p c e, 1 ≤ u.2 ∧ u.1 % p + u.2 ≤ p := by
  induction c using chunk_induction hp (e := e) with
  | done c h => simp [chunksFrom_of_le p h]
  | next c h ih =>
    obtain ⟨hpos, hpage, -⟩ := nextChunk_bounds hp h
    rw [chunksFrom_of_lt hp h, List.forall_mem_cons]
    exact ⟨⟨hpos, hpage⟩, ih⟩

/-- The next chunk ends at the end of the request or at the next page boundary, whichever comes first. -/
theorem nextChunk_end {p c e : Nat} (hp : 0 < p) (h : c < e) : c + nextChunkLen p c e = min e ((c / p + 1) * p) := by
  have hlt := Nat.mod_lt c hp
  have hdiv := Nat.div_add_mod' c p
  rw [nextChunkLen, Nat.succ_mul]
  omega

/-- The chunks after the next one are those from the next page boundary. -/
theorem chunksFrom_after {p c e : Nat} (hp : 0 < p) (h : c < e) :
    chunksFrom p (c + nextChunkLen p c e) e = chunksFrom p ((c / p + 1) * p) e := by
  rw [nextChunk_end hp h]
  rcases Nat.le_total e ((c / p + 1) * p) with hb | hb
  · rw [Nat.min_eq_left hb, chunksFrom_of_le p (Nat.le_refl e), chunksFrom_of_le p hb]
  · rw [Nat.min_eq_right hb]

/-- `ceil_p(e)/p`: the page `k` starts below `e` exactly when `k` is below it (R172). -/
def pagesBelow (p e : Nat) : Nat := (e + p - 1) / p

theorem lt_pagesBelow {p k e : Nat} (hp : 0 < p) : k < pagesBelow p e ↔ k * p < e := by
  rw [pagesBelow, ← Nat.succ_le_iff, Nat.le_div_iff_mul_le hp, Nat.succ_mul]
  omega

/-- The chunk that starts page `k`. -/
def pageChunk (p e k : Nat) : Nat × Nat := (k * p, min (e - k * p) p)

theorem pageChunk_full {p e k : Nat} (hp : 0 < p) (h : k + 1 < pagesBelow p e) : (pageChunk p e k).2 = p := by
  have := (lt_pagesBelow hp).mp h
  rw [Nat.succ_mul] at this
  exact Nat.min_eq_right (by omega)

/-- From a page boundary there is one chunk for each page that starts below the end. -/
theorem chunksFrom_boundary {p e : Nat} (hp : 0 < p) (k : Nat) :
    chunksFrom p (k * p) e = (List.range' k (pagesBelow p e - k)).map (pageChunk p e) := by
  induction hn : pagesBelow p e - k generalizing k with
  | zero =>
    have hk : ¬ k * p < e := (lt_pagesBelow hp).not.mp (by omega)
    exact chunksFrom_of_le p (Nat.le_of_not_lt hk)
  | succ n ih =>
    have hk : k * p < e := (lt_pagesBelow hp).mp (by omega)
    have hfirst : nextChunk p (k * p) e = pageChunk p e k := by simp [nextChunk, nextChunkLen, pageChunk]
    rw [chunksFrom_of_lt hp hk, chunksFrom_after hp hk, Nat.mul_div_cancel _ hp, ih (k + 1) (by omega), hfirst,
      List.range'_succ, List.map_cons]

theorem tail_chunksFrom {p c e : Nat} (hp : 0 < p) (h : c < e) :
    (chunksFrom p c e).tail = (List.range' (c / p + 1) (pagesBelow p e - (c / p + 1))).map (pageChunk p e) := by
  rw [chunksFrom_of_lt hp h, List.tail_cons, chunksFrom_after hp h, chunksFrom_boundary hp]

theorem tail_chunksFrom_aligned {p c e : Nat} (hp : 0 < p) : ∀ u ∈ (chunksFrom p c e).tail, u.1 % p = 0 := by
  rcases Nat.lt_or_ge c e with h | h
  · rw [tail_chunksFrom hp h]
    intro u hu
    obtain ⟨k, -, rfl⟩ := List.mem_map.mp hu
    exact Nat.mul_mod_left k p
  · simp [chunksFrom_of_le p h]

theorem tail_dropLast_chunksFrom_full {p c e : Nat} (hp : 0 < p) :
    ∀ u ∈ (chunksFrom p c e).tail.dropLast, u.2 = p := by
  rcases Nat.lt_or_ge c e with h | h
  · rw [tail_chunksFrom hp h, ← List.map_dropLast, List.dropLast_eq_take, List.length_range',
      List.take_range'_of_length_ge (Nat.sub_le _ _)]
    intro u hu
    obtain ⟨k, hk, rfl⟩ := List.mem_map.mp hu
    rw [List.mem_range'_1] at hk
    exact pageChunk_full hp (by omega)
  · simp [chunksFrom_of_le p h]

theorem length_chunksFrom {p c e : Nat} (hp : 0 < p) (h : c < e) :
    (chunksFrom p c e).length = pagesBelow p e - c / p := by
  have hpage : c / p < pagesBelow p e := (lt_pagesBelow hp).mpr (Nat.lt_of_le_of_lt (Nat.div_mul_le_self c p) h)
  rw [chunksFrom_of_lt hp h, List.length_cons, chunksFrom_after hp h, chunksFrom_boundary hp, List.length_map,
    List.length_range']
  omega

/-! ## The obligations about the planner and the pages -/

/-- Settles O47: the units tile the rounded range, and pieces that abut are apart and cover their range. -/
theorem planCoversTheRoundedRange : Obligations.PlanCoversTheRoundedRange := by
  intro c a l hc
  refine ⟨plan_of_outOfBounds, fun h hl => ?_, fun h hl => ⟨_, plan_eq_unitsFrom h hl, ?_⟩⟩
  · subst hl
    exact plan_of_empty h
  · have hcap := legal_capacity_mod hc
    have htiles := unitsFrom_tiles (c := a / 4096 * 4096) (hi := (a + l + 4095) / 4096 * 4096)
      (Nat.mul_mod_left _ _) (Nat.mul_mod_left _ _) (by omega)
    have habut := htiles.1
    refine ⟨htiles, fun u hu => ?_, habut.pairwise, fun x hlo hhi => habut.covers (by omega) (by omega)⟩
    exact (habut.bounds u hu).2.trans (by omega)

/-- Settles O48: the next unit is the block, and nothing is left after it. -/
theorem planOfAWholeBlock : Obligations.PlanOfAWholeBlock := by
  intro c a l lo h hl hlo hblock hhi
  have hsize : nextUnitSize lo (lo + 65536) = 65536 := if_pos ⟨hblock, Nat.le_refl _⟩
  rw [plan_eq_unitsFrom h hl, ← hlo, hhi, unitsFrom_of_lt (by omega), nextUnit, hsize,
    unitsFrom_of_le (Nat.le_refl _)]

/-- Settles O49, by induction on the other partition: it takes the next unit, or a sector where a block fits. -/
theorem planIsTheFewestUnits : Obligations.PlanIsTheFewestUnits := by
  intro lo hi hlo hhi hle
  refine ⟨unitsFrom_tiles hlo hhi hle, fun us hus => unitsFrom_fewest hlo hhi hus, ?_⟩
  rintro mlo mhi rfl rfl
  exact length_unitsFrom hlo hhi hle

/-- Settles O50: after the first chunk, one chunk for each page boundary below the end. -/
theorem pagesCutAtPageBoundaries : Obligations.PagesCutAtPageBoundaries := by
  intro c a l hc
  have hp := (legal_pageSize hc).1
  refine ⟨chunksFrom_abut hp (Nat.le_add_right a l), fun u hu => ?_, tail_chunksFrom_aligned hp,
    tail_dropLast_chunksFrom_full hp, ?_⟩
  · obtain ⟨hpos, hpage⟩ := chunksFrom_withinPage hp a u hu
    exact ⟨hpos, (Nat.le_add_left _ _).trans hpage, hpage⟩
  · rcases Nat.eq_zero_or_pos l with rfl | hl
    · simp [pages, chunksFrom_of_le]
    · rw [if_neg (Nat.ne_of_gt hl)]
      exact length_chunksFrom hp (Nat.lt_add_of_pos_right hl)

/-- Settles O51: the loops of R164 and R171, whose fuel covers the range. -/
theorem incrementalForm : Obligations.IncrementalForm := by
  refine ⟨fun c hi => ?_, fun p c e hp => ?_, fun c a l h hl => plan_eq_unitsFrom h hl, fun c a l => rfl⟩
  · split
    · next h =>
      rw [unitsFrom_of_lt h, nextUnit]
      rcases nextUnitSize_cases c hi with ⟨hs, hblock⟩ | ⟨hs, hno⟩ <;> rw [hs]
      · exact (if_pos hblock).symm
      · exact (if_neg hno).symm
    · next h => exact unitsFrom_of_le (Nat.le_of_not_lt h)
  · split
    · next h => exact chunksFrom_of_lt hp h
    · next h => exact chunksFrom_of_le p (Nat.le_of_not_lt h)

end Sys2Proof.Machine
end

section
/-! The obligations of spec/42_stream_writer.md about the accept step of WRITE_STREAM (R181, R182) and the status-polling
arbiter (R188, R191 to R195), and the commands outside the phases that send them. -/

namespace Sys2Proof.Machine

/-! ## How an episode is left (R188, R191, R195) -/

section
variable {s : State}

theorem leaveEpisode_of_erasePoll (hp : s.phase = .erasePoll) :
    leaveEpisode s = { s with phase := if s.ecur.toNat < s.eend.toNat then .eraseWren else .progWren } := by
  simp [leaveEpisode, hp, BitVec.lt_def]

theorem leaveEpisode_of_progPoll_left (hp : s.phase = .progPoll) (h : s.pcur.toNat < s.pend.toNat) :
    leaveEpisode s = { s with phase := .progWren } := by
  simp [leaveEpisode, hp, BitVec.lt_def, h]

theorem leaveEpisode_of_progPoll_done (hp : s.phase = .progPoll) (h : ¬ s.pcur.toNat < s.pend.toNat) :
    leaveEpisode s = respond s.reqLen s := by
  simp [leaveEpisode, hp, BitVec.lt_def, h]

theorem leaveEpisode_of_prePoll (hp : s.phase = .prePoll) (h0 : s.reqOp ≠ 0) :
    leaveEpisode s =
      { s with phase := if s.reqOp = 1 then .eraseWren else if s.reqOp = 2 then .idCmd else .uidCmd } := by
  have h3 : s.reqOp ≠ 1 → s.reqOp ≠ 2 → s.reqOp = 3 := by bv_omega
  simp only [leaveEpisode, hp]
  split
  · rfl
  · next h1 =>
    split
    · rfl
    · next h2 => rw [if_pos (h3 h1 h2)]

/-- Outside the polling phases, and in a pre-poll of no request, there is nothing to go on to. -/
theorem leaveEpisode_of_noEpisode (h : s.phase.inPoll = false ∨ s.phase = .prePoll ∧ s.reqOp = 0) :
    leaveEpisode s = s := by
  rcases h with hp | ⟨hp, h0⟩
  · cases hph : s.phase <;> simp_all [leaveEpisode, Phase.inPoll]
  · simp [leaveEpisode, hp, h0]

end

/-! ## The poll step on a byte (R193, R194) -/

theorem statusBusy_eq_false_iff (c : Cfg) (b : Byte) : statusBusy c b = false ↔ b &&& c.busyMask = 0 := by
  simp [statusBusy]

section
variable {s : State} {b : Byte}

theorem pollByte_of_notBusy (hb : statusBusy s.cfg b = false) :
    pollByte b s = leaveEpisode { s with maybeBusy := false, pollCnt := 0 } := by
  simp [pollByte, hb]

theorem pollByte_of_timeout (hb : statusBusy s.cfg b = true) (hc : s.pollCnt + 1 = s.cfg.pollMax) :
    pollByte b s = { s with rspStatus := 2, rspValue := 0, rspValid := true, phase := .idle } := by
  simp only [pollByte, hb, hc, if_true, raise, ErrorKind.code]

theorem pollByte_of_stillBusy (hb : statusBusy s.cfg b = true) (hc : s.pollCnt + 1 ≠ s.cfg.pollMax) :
    pollByte b s = { s with pollCnt := s.pollCnt + 1 } := by
  simp [pollByte, hb, hc]

/-- Settles O23: a byte is tested by the mask alone, and the count only while it means busy. -/
theorem pollStep : Obligations.PollStep := by
  intro s b e
  refine ⟨fun hb => ?_, fun hb => ?_, fun hb => ?_, rfl⟩
  · exact pollByte_of_notBusy ((statusBusy_eq_false_iff _ _).mpr hb)
  all_goals have hbusy : statusBusy s.cfg b = true := by simpa [statusBusy] using hb
  · exact pollByte_of_timeout hbusy
  · exact pollByte_of_stillBusy hbusy

end

/-! ## A status read -/

/-- The byte that a status read in `s` returns (R74). -/
def State.statusRead (s : State) : Byte := statusByte s.cfg s.devState s.input.statusBits

/-- The frame of a status read, with its outcome, on the bus of `s` (R74, R104). -/
def State.withStatusFrame (o : FrameOutcome) (s : State) : State :=
  { s with cs := false, bus := frameEvents ⟨[s.cfg.opc.rdsr], [], 1⟩ o ++ s.bus }

/-- A frame that the device answers without changing its state leaves the same whether a failed one was received or
not (R88). -/
theorem sendFrame_unchanged_of_fail {s : State} {e : TransportError} {r : Bool} (ht : s.input.transport = .fail e r)
    (d : Descriptor) (bytes : List Byte) (k : FrameOutcome → State → State) :
    sendFrame d (.ok ⟨s.devState, s.flash, bytes⟩) k s = .next (k (.err e) (busFrame d (.err e) s)) := by
  cases r with
  | true => rw [sendFrame_of_fail_received ht]
  | false => rw [sendFrame_of_fail_unreceived ht]

section
variable {s : State}

/-- A status read that fails ends the request (R193, R252). -/
theorem exec_rdsr_of_fail {e : TransportError} {r : Bool} (ht : s.input.transport = .fail e r) :
    exec .rdsr s = .next { s with
      cs := false, bus := frameEvents ⟨[s.cfg.opc.rdsr], [], 1⟩ (.err e) ++ s.bus
      rspStatus := 3, rspValue := 0, rspInfo := e, rspValid := true, phase := .idle } := by
  show sendFrame _ (.ok _) _ s = _
  rw [sendFrame_unchanged_of_fail ht, busFrame_eq]
  rfl

/-- A status read that succeeds is the poll step on the byte read. -/
theorem exec_rdsr_of_ok (ht : s.input.transport = .ok) :
    exec .rdsr s = .next (pollByte s.statusRead (s.withStatusFrame (.ok [s.statusRead]))) := by
  show sendFrame _ (.ok _) _ s = _
  rw [sendFrame_of_ok ht, busFrame_eq]
  rfl

variable (hl : s.cfg.Legal) (ht : s.input.transport = .ok)
include hl

theorem statusBusy_statusRead : statusBusy s.cfg s.statusRead = s.devState.busy := statusBusy_statusByte hl _ _

include ht

theorem exec_rdsr_of_notBusy (hb : s.devState.busy = false) :
    exec .rdsr s = .next
      (leaveEpisode { s.withStatusFrame (.ok [s.statusRead]) with maybeBusy := false, pollCnt := 0 }) :=
  (exec_rdsr_of_ok ht).trans (congrArg _ (pollByte_of_notBusy ((statusBusy_statusRead hl).trans hb)))

theorem exec_rdsr_of_timeout (hb : s.devState.busy = true) (hc : s.pollCnt + 1 = s.cfg.pollMax) :
    exec .rdsr s = .next { s.withStatusFrame (.ok [s.statusRead]) with
      rspStatus := 2, rspValue := 0, rspValid := true, phase := .idle } :=
  (exec_rdsr_of_ok ht).trans (congrArg _ (pollByte_of_timeout ((statusBusy_statusRead hl).trans hb) hc))

theorem exec_rdsr_of_stillBusy (hb : s.devState.busy = true) (hc : s.pollCnt + 1 ≠ s.cfg.pollMax) :
    exec .rdsr s = .next { s.withStatusFrame (.ok [s.statusRead]) with pollCnt := s.pollCnt + 1 } :=
  (exec_rdsr_of_ok ht).trans (congrArg _ (pollByte_of_stillBusy ((statusBusy_statusRead hl).trans hb) hc))

end

/-- Settles O22: the byte read tells whether the device is busy; not busy, the episode is left by its phase, and busy,
the count decides. -/
theorem pollOutcomes : Obligations.PollOutcomes := by
  intro s hl _
  refine ⟨fun ht => ⟨s.statusRead, ?_, ?_⟩, fun e r ht => exec_rdsr_of_fail ht⟩
  · rw [← statusBusy_statusRead hl, statusBusy_eq_false_iff]
  · rintro u rfl
    refine ⟨fun hb hp => ?_, fun hb hp hlt => ?_, fun hb hp hlt => ?_, fun hb hp h0 => ?_, exec_rdsr_of_timeout hl ht,
      exec_rdsr_of_stillBusy hl ht⟩ <;> refine (exec_rdsr_of_notBusy hl ht hb).trans (congrArg _ ?_)
    · exact leaveEpisode_of_erasePoll hp
    · exact leaveEpisode_of_progPoll_left hp hlt
    · exact leaveEpisode_of_progPoll_done hp hlt
    · exact leaveEpisode_of_prePoll hp h0

/-! ## The commands outside their phases -/

/-- After a write-enable outside its phases the sequencer stays where it is. -/
theorem afterWriteEnable_ok_busFrame_of_otherPhase {s : State} (he : s.phase ≠ .eraseWren) (hp : s.phase ≠ .progWren)
    (d : Descriptor) (bytes : List Byte) : afterWriteEnable (.ok bytes) (busFrame d (.ok bytes) s) = { s with
      cs := false, bus := frameEvents d (.ok bytes) ++ s.bus } := by
  rw [busFrame_eq]
  cases hph : s.phase <;> simp_all [afterWriteEnable]

/-- A frame after which the sequencer does not look at the phase is the same in every phase. -/
theorem sendFrame_anyPhase {k : FrameOutcome → State → State} {p : Phase}
    (hk : ∀ o u, k o { u with phase := p } = k o u) (d : Descriptor) (r : Except DeviceFault DeviceReply) (s : State) :
    sendFrame d r k { s with phase := p } = sendFrame d r k s := by
  cases r with
  | ok a => exact congrArg Host.Outcome.next (hk _ (busFrame d (s.input.transport.outcome a.bytes) (deliver a s)))
  | error f =>
    exact congrArg (ite _ _)
      (congrArg Host.Outcome.next (hk _ (busFrame d (s.input.transport.outcome []) s)))

theorem afterReadId_anyPhase (p : Phase) (o : FrameOutcome) (u : State) :
    afterReadId o { u with phase := p } = afterReadId o u := by
  cases o <;> rfl

theorem afterReadUniqueId_anyPhase (p : Phase) (o : FrameOutcome) (u : State) :
    afterReadUniqueId o { u with phase := p } = afterReadUniqueId o u := by
  cases o <;> rfl

/-- A write-enable that fails ends the request, whatever its phase (R186, R189, R252). -/
theorem exec_wren_of_fail {s : State} {e : TransportError} {r : Bool} (ht : s.input.transport = .fail e r)
    (hr : r = true → s.devState.busy = false) :
    exec .wren s = .next { s with
      cs := false, bus := frameEvents ⟨[s.cfg.opc.wren], [], 0⟩ (.err e) ++ s.bus
      devState := if r then .writeEnabled else s.devState
      rspStatus := 3, rspValue := 0, rspInfo := e, rspValid := true, phase := .idle } := by
  show sendFrame _ _ _ s = _
  cases r with
  | true =>
    rw [devWriteEnable_of_not_busy (hr rfl), sendFrame_of_fail_received ht, afterWriteEnable_err_busFrame]
    rfl
  | false =>
    rw [sendFrame_of_fail_unreceived ht, afterWriteEnable_err_busFrame]
    rfl

/-- Settles O26: the write-enable and the status read leave the phase where the sequencer has none to go on to, and what
follows an identification frame does not look at the phase. -/
theorem commandsOutsideTheirPhases : Obligations.CommandsOutsideTheirPhases := by
  intro s
  refine ⟨fun he hp => ⟨fun ht hb => ?_, fun e r ht hr => exec_wren_of_fail ht hr⟩,
    fun hp hl => ⟨fun ht => ?_, fun e r ht => exec_rdsr_of_fail ht⟩, fun p t => ⟨fun h => ?_, fun h => ?_⟩⟩
  · show sendFrame _ _ _ s = _
    rw [devWriteEnable_of_not_busy hb, sendFrame_of_ok ht]
    exact congrArg _ (afterWriteEnable_ok_busFrame_of_otherPhase (s := { s with devState := .writeEnabled }) he hp _ _)
  · refine ⟨s.statusRead, ?_⟩
    rintro u rfl
    refine ⟨fun hb => ?_, exec_rdsr_of_timeout hl ht, exec_rdsr_of_stillBusy hl ht⟩
    exact (exec_rdsr_of_notBusy hl ht hb).trans (congrArg _ (leaveEpisode_of_noEpisode hp))
  · exact (sendFrame_anyPhase (afterReadId_anyPhase p) _ _ s).trans h
  · exact (sendFrame_anyPhase (afterReadUniqueId_anyPhase p) _ _ s).trans h

/-! ## The accept step of WRITE_STREAM (R181, R182) -/

theorem floorTo_sector (x : Nat) : floorTo sectorSize x = x / 4096 * 4096 := rfl

theorem ceilTo_sector (x : Nat) : ceilTo sectorSize x = (x + 4095) / 4096 * 4096 := by
  simp [ceilTo, sectorSize]

section
variable {a l : U32} {s : State}

theorem acceptWrite_of_outOfBounds (h : s.cfg.capacity < a.toNat + l.toNat) :
    acceptWrite a l s = raise .rangeOutOfBounds s :=
  if_pos h

theorem acceptWrite_of_empty (h : a.toNat + l.toNat ≤ s.cfg.capacity) (h0 : l = 0) :
    acceptWrite a l s = respond 0 s := by
  rw [acceptWrite, if_neg (Nat.not_lt.mpr h), if_pos h0]

theorem acceptWrite_of_nonempty (h : a.toNat + l.toNat ≤ s.cfg.capacity) (h0 : l ≠ 0) :
    acceptWrite a l s = { s with
      ecur := BitVec.ofNat 33 (a.toNat / 4096 * 4096)
      eend := BitVec.ofNat 33 ((a.toNat + l.toNat + 4095) / 4096 * 4096)
      pcur := BitVec.ofNat 33 a.toNat
      pend := BitVec.ofNat 33 (a.toNat + l.toNat)
      pollCnt := 0
      phase := if s.maybeBusy then .prePoll else .eraseWren } := by
  rw [acceptWrite, if_neg (Nat.not_lt.mpr h), if_neg h0, floorTo_sector, ceilTo_sector]

end

/-- Settles O12: the bound first, then the empty request, then the cursors of the latched one. -/
theorem writeStreamAccepted : Obligations.WriteStreamAccepted := by
  intro s a l hp
  obtain ⟨hx, -⟩ := exec_request_idle hp a l
  exact ⟨fun h => hx.trans (congrArg _ (acceptWrite_of_outOfBounds h)),
    fun h h0 => hx.trans (congrArg _ (acceptWrite_of_empty h h0)),
    fun h h0 => hx.trans (congrArg _ (acceptWrite_of_nonempty h h0))⟩

end Sys2Proof.Machine
end

section
/-! The obligations of spec/42_stream_writer.md about the controller's turn inside a request: the erase and program steps
(R187, R190), no command while the device is busy (R196), the ways back to `IDLE` (R200). -/

namespace Sys2Proof.Machine

/-! ## The steps that send an address (R187, R190) -/

/-- The step of `ERASE_CMD` is the next unit's erase, which the device takes if it receives it. -/
theorem Invariant.eraseOutcomes {s : State} (h : Invariant s) (hp : s.phase = .eraseCmd) {size : Nat}
    (hs : size = nextUnitSize s.ecur.toNat s.eend.toNat) :
    EraseOutcomes (eraseInstr s.cfg size s.ecur.toNat) (eraseOpcode s.cfg size) size s.ecur.toNat s ∧
      s.takesErase size s.ecur.toNat ∧ (s.ecur + BitVec.ofNat 33 size).toNat = s.ecur.toNat + size := by
  have hcfg := ((configOk_iff s).mp h.config).1
  have haddr := legal_capacity_addressable hcfg
  have hcap32 := legal_capacity_le hcfg
  obtain ⟨-, hal, hee, hcap⟩ := h.controller.eraseCursors (congrArg Phase.inErase hp)
  obtain ⟨hu, ha, hb, -⟩ := nextUnit_bounds (h.controller.eraseLeft (.inr hp)) hal hee
  rw [← hs] at hu ha hb
  have hpos : 0 < size := by rcases hu with rfl | rfl <;> decide
  exact ⟨eraseOutcomes_of_exec (exec_eraseInstr hcfg hu (by omega)), ⟨h.latched (.inl hp), ha, hb.trans hcap⟩,
    toNat_cursor_add (by omega)⟩

/-- Settles O28: the outcomes of the next unit's erase, counted as a step; the cursor does not wrap. -/
theorem eraseStep : Obligations.EraseStep := by
  refine ⟨fun s h ha hp size d hsize hd => ?_, fun s size a hl hsec hblk => ?_⟩
  · obtain rfl : d = frameOpA s.cfg.addrBytes (eraseOpcode s.cfg size) s.ecur.toNat := hd
    obtain ⟨⟨hok, hfail, -⟩, htakes, hcur⟩ := h.eraseOutcomes hp hsize
    obtain ⟨-, -, -, -, hstep, -⟩ := eachPhaseRunsItsCommand s h ha
    rw [hstep hp, ← hsize]
    refine ⟨fun ht => ?_, fun e r ht => ?_⟩
    · obtain ⟨t, hx, heq, hflash⟩ := hok ht htakes
      have hecur : t.ecur = s.ecur + BitVec.ofNat 33 size := congrArg State.ecur heq
      refine ⟨t.tick, congrArg (onNext State.tick) hx, ?_, (congrArg BitVec.toNat hecur).trans hcur, hflash⟩
      rw [State.tick_ecur, hecur]
      exact congrArg State.tick heq
    · obtain ⟨t, hx, heq, hflash⟩ := hfail e r ht fun _ => htakes
      exact ⟨t.tick, congrArg (onNext State.tick) hx, congrArg State.tick heq, hflash⟩
  · have hs : ¬ (size = sectorSize ∨ size = blockSize) := not_or.mpr ⟨hsec, hblk⟩
    rw [commandStep_of_wellFormed (erase_otherSize_illFormed hl hs a),
      sendOp_of_encoderError (encodeOp_erase_otherSize _ hs a)]
    rfl

/-- The step of `PROG_CMD` is the next chunk's program, which the device takes if it receives it. -/
theorem Invariant.programOutcomes {s : State} (h : Invariant s) (hp : s.phase = .progCmd) {data : List Byte}
    (hd : data.length = nextChunkLen s.cfg.pageSize s.pcur.toNat s.pend.toNat) :
    ProgramOutcomes (programInstr s.cfg s.pcur.toNat data) s.pcur.toNat data s ∧
      s.takesProgram s.pcur.toNat data.length ∧
      (s.pcur + BitVec.ofNat 33 data.length).toNat = s.pcur.toNat + data.length := by
  have hcfg := ((configOk_iff s).mp h.config).1
  have haddr := legal_capacity_addressable hcfg
  have hcap32 := legal_capacity_le hcfg
  obtain ⟨-, -, -, hcap, -⟩ := h.controller.programCursors (congrArg Phase.inProgram hp)
  obtain ⟨hpos, hpage, hb⟩ := nextChunk_bounds (legal_pageSize hcfg).1 (h.controller.programLeft (.inr hp))
  rw [← hd] at hpos hpage hb
  exact ⟨programOutcomes_of_exec (exec_programInstr hcfg (by omega) data),
    ⟨h.latched (.inr hp), hpos, (Nat.le_add_left _ _).trans hpage, hpage, hb.trans hcap⟩, toNat_cursor_add (by omega)⟩

theorem bufRead_of_holds {s : State} {a n : Nat} (ha : s.reqAddr.toNat ≤ a)
    (hn : a - s.reqAddr.toNat + n ≤ s.buf.length) :
    s.bufRead a n = some ((s.buf.drop (a - s.reqAddr.toNat)).take n) :=
  if_pos ⟨ha, hn⟩

/-- Settles O29: the outcomes of the next chunk's program, counted as a step; the cursor does not wrap. -/
theorem programStep : Obligations.ProgramStep := by
  intro s h ha hp n data d hn hbuf hdata hd
  obtain ⟨hlow, -⟩ := h.controller.programCursors (congrArg Phase.inProgram hp)
  have hread := bufRead_of_holds hlow hbuf
  obtain rfl : data.length = n := hdata ▸ (bufRead_length hread).1
  rw [← hdata, hn] at hread
  obtain rfl : d = frameOpAD s.cfg.addrBytes s.cfg.opc.pp s.pcur.toNat data := hd
  obtain ⟨⟨hok, hfail, -⟩, htakes, hcur⟩ := h.programOutcomes hp hn
  obtain ⟨-, -, -, -, -, hstep⟩ := eachPhaseRunsItsCommand s h ha
  rw [hstep hp data hread]
  refine ⟨fun ht => ?_, fun e r ht => ?_⟩
  · obtain ⟨t, hx, heq, hflash⟩ := hok ht htakes
    have hpcur : t.pcur = s.pcur + BitVec.ofNat 33 data.length := congrArg State.pcur heq
    refine ⟨t.tick, congrArg (onNext State.tick) hx, ?_, (congrArg BitVec.toNat hpcur).trans hcur, hflash⟩
    rw [State.tick_pcur, hpcur]
    exact congrArg State.tick heq
  · obtain ⟨t, hx, heq, hflash⟩ := hfail e r ht fun _ => htakes
    exact ⟨t.tick, congrArg (onNext State.tick) hx, congrArg State.tick heq, hflash⟩

/-! ## A frame on every turn inside a request -/

/-- Outside `IDLE` a turn of the controller sends one of the command frames (R104). -/
theorem Invariant.controllerStep_sends {s t : State} (h : Invariant s) (hp : s.phase ≠ .idle)
    (ht : controllerStep s = .next t) : Sends s t := by
  have hcfg := ((configOk_iff s).mp h.config).1
  cases he : s.phase with
  | idle => exact absurd he hp
  | eraseWren => exact ⟨_, _, _, .writeEnable, (Machine.controllerStep_wren (.inl he)).symm.trans ht⟩
  | progWren => exact ⟨_, _, _, .writeEnable, (Machine.controllerStep_wren (.inr he)).symm.trans ht⟩
  | prePoll => exact ⟨_, _, _, .readStatus, (Machine.controllerStep_poll hcfg (.inl he)).symm.trans ht⟩
  | erasePoll => exact ⟨_, _, _, .readStatus, (Machine.controllerStep_poll hcfg (.inr (.inl he))).symm.trans ht⟩
  | progPoll => exact ⟨_, _, _, .readStatus, (Machine.controllerStep_poll hcfg (.inr (.inr he))).symm.trans ht⟩
  | idCmd => exact ⟨_, _, _, .readId, (controllerStep_idCmd hcfg he).symm.trans ht⟩
  | uidCmd => exact ⟨_, _, _, .readUniqueId, (controllerStep_uidCmd hcfg he).symm.trans ht⟩
  | eraseCmd =>
    obtain ⟨-, hal, hee, hcap⟩ := h.controller.eraseCursors (congrArg Phase.inErase he)
    rw [Machine.controllerStep_eraseCmd hcfg he ⟨h.controller.eraseLeft (.inr he), hal, hee, hcap⟩] at ht
    exact ⟨_, _, _, .erase _ _ _ _ (by unfold eraseOpcode; split <;> simp), ht⟩
  | progCmd =>
    obtain ⟨-, -, -, hcap, -⟩ := h.controller.programCursors (congrArg Phase.inProgram he)
    cases hb : s.bufRead s.pcur.toNat (nextChunkLen s.cfg.pageSize s.pcur.toNat s.pend.toNat) with
    | none => simp [controllerStep_progCmd_short he hb] at ht
    | some data =>
      rw [Machine.controllerStep_progCmd hcfg he ⟨h.controller.programLeft (.inr he), hcap⟩ hb] at ht
      exact ⟨_, _, _, .program _ _ _, ht⟩

/-- What the controller's turn in a request is, when the step goes on. -/
theorem Invariant.step_sends {s t : State} (h : Invariant s) (hp : s.phase ≠ .idle) (ha : s.agent = .controller)
    (hs : Machine.step s = .next t) : ∃ u, t = u.tick ∧ Sends s u := by
  rw [step_of_controller h.config ha] at hs
  obtain ⟨u, hu, rfl⟩ := onNext_eq_next hs
  exact ⟨u, rfl, h.controllerStep_sends hp hu⟩

/-! ## No command while the device is busy (R196) -/

theorem Phase.idle_or_poll_or_command (p : Phase) :
    p = .idle ∨ (p = .prePoll ∨ p = .erasePoll ∨ p = .progPoll) ∨ p.inCommand = true := by
  cases p <;> simp [Phase.inCommand]

/-- In a polling phase the frame on the bus is a status read. -/
theorem controllerStep_poll_frame {s t : State} (h : s.cfg.Legal)
    (hp : s.phase = .prePoll ∨ s.phase = .erasePoll ∨ s.phase = .progPoll) (ht : controllerStep s = .next t) :
    ∃ o, t.bus = frameEvents (frameOpR s.cfg.opc.rdsr 1) o ++ s.bus := by
  rw [Machine.controllerStep_poll h hp] at ht
  obtain ⟨o, u, rfl, hu, -⟩ := sendFrame_next_framed ht
  exact ⟨o, (afterStatus_bus o u).trans hu.bus⟩

theorem frameEvents_inj {d d' : Descriptor} {o o' : FrameOutcome} {es : List BusEvent}
    (h : frameEvents d o ++ es = frameEvents d' o' ++ es) : d = d' ∧ o = o' := by
  simpa [frameEvents] using List.append_cancel_right h

/-- Settles O38: a frame is the controller's turn outside `IDLE`; in a polling phase it is a status read, and in any
other the arbiter knows that the device is not busy. -/
theorem noCommandWhileBusy : Obligations.NoCommandWhileBusy := by
  intro s t d o hr hs hbus hd
  have h := hr.invariant
  have hcfg := ((configOk_iff s).mp h.config).1
  rcases oneFramePerStep s t hs with hb | ⟨-, -, -, -, ha, hi⟩
  · exact absurd (hbus.symm.trans hb) (frameEvents_append_ne d o s.bus)
  · rcases Phase.idle_or_poll_or_command s.phase with hp | hp | hp
    · exact absurd hp hi
    · rw [step_of_controller h.config ha] at hs
      obtain ⟨u, hu, rfl⟩ := onNext_eq_next hs
      obtain ⟨o', ho'⟩ := controllerStep_poll_frame hcfg hp hu
      obtain ⟨rfl, -⟩ := frameEvents_inj (hbus.symm.trans ho')
      exact absurd rfl hd
    · exact ⟨h.controller.commandNotBusy hp, h.not_busy hp⟩

/-! ## The ways back to `IDLE` (R200) -/

/-- A valid response of success, DeviceTimeout or TransportError. -/
def Answered (s : State) : Prop := s.rspValid = true ∧ (s.rspStatus = 0 ∨ s.rspStatus = 2 ∨ s.rspStatus = 3)

theorem answered_respond (v : U32) (s : State) : Answered (respond v s) := ⟨rfl, .inl rfl⟩

theorem answered_transportError (e : TransportError) (s : State) : Answered (raise (.transportError e) s) :=
  ⟨rfl, .inr (.inr rfl)⟩

theorem leaveEpisode_cases {s : State} (hp : s.phase ≠ .idle) :
    leaveEpisode s = respond s.reqLen s ∨ (leaveEpisode s).phase ≠ .idle := by
  unfold leaveEpisode
  split
  · right
    dsimp only
    split <;> simp
  · split
    · simp
    · exact .inl rfl
  · right
    repeat' split
    case isFalse => exact hp
    all_goals simp
  · exact .inr hp

theorem answered_pollByte {b : Byte} {s : State} (hp : s.phase ≠ .idle) (hi : (pollByte b s).phase = .idle) :
    Answered (pollByte b s) := by
  unfold pollByte at hi ⊢
  split
  · split
    · exact ⟨rfl, .inr (.inl rfl)⟩
    · next hb hc => exact absurd (by simpa [hb, hc] using hi) hp
  · next hb =>
    rw [if_neg hb] at hi
    rcases leaveEpisode_cases (s := { s with maybeBusy := false, pollCnt := 0 }) hp with he | he
    · rw [he]
      exact answered_respond _ _
    · exact absurd hi he

theorem afterWriteEnable_ok_ne_idle {s : State} (hp : s.phase ≠ .idle) (bytes : List Byte) :
    (afterWriteEnable (.ok bytes) s).phase ≠ .idle := by
  simp only [afterWriteEnable]
  split
  · simp
  · simp
  · exact hp

/-- What follows a frame returns to `IDLE` only with a response. -/
theorem CommandFrame.answered {s u : State} {d : Descriptor} {r : Except DeviceFault DeviceReply}
    {k : FrameOutcome → State → State} (h : CommandFrame s d r k) (hp : u.phase ≠ .idle) {o : FrameOutcome}
    (hi : (k o u).phase = .idle) : Answered (k o u) := by
  cases o with
  | err e => cases h <;> exact answered_transportError _ _
  | ok bytes =>
    cases h with
    | writeEnable => exact absurd hi (afterWriteEnable_ok_ne_idle hp bytes)
    | readStatus => exact answered_pollByte hp hi
    | erase => simp [afterErase] at hi
    | program => simp [afterProgram] at hi
    | readId | readUniqueId => exact answered_respond _ _

/-- Settles O43: the device's turn leaves the phase, and the controller's sends a frame, after which the request is over
only with a response. -/
theorem waysBackToIdle : Obligations.WaysBackToIdle := by
  intro s t h hp hs
  refine ⟨fun ha => ?_, fun ha hi => ?_⟩
  · rw [step_of_device h.config ha] at hs
    obtain rfl := Host.Outcome.next.inj hs
    exact deviceComplete_phase s
  · obtain ⟨u, rfl, d, r, k, hk, hu⟩ := h.step_sends hp ha hs
    rcases sendFrame_next hu with ⟨a, -, rfl⟩ | ⟨-, e, -, -, rfl⟩ <;> exact hk.answered (by simpa using hp) hi

end Sys2Proof.Machine
end

section
/-! The obligations of spec/42_stream_writer.md about a whole write: its end and its frames (R184 to R202), that it stays in
its rounded range however it ends (R203), and how many frames it can send (R201). -/

namespace Sys2Proof.Machine

/-! ## The end of a write (R197, R202) -/

/-- Settles O53: the array that a finished write leaves, at the request's bytes, in the margins, and outside. -/
theorem writeEndState : Obligations.WriteEndState := by
  intro s t a l data hinv h
  have hend := h.ended hinv
  have hin := hend.inside
  have hout := hend.outside
  rw [floorTo_sector, ceilTo_sector] at hin hout
  refine ⟨hend.value, hend.device, hend.quiet, fun i hi => hend.read hi, fun x hlo hhi => ?_, fun x hlo hhi => ?_, hout⟩
  · rw [hin x hlo (by omega), if_neg (by omega)]
  · rw [hin x (by omega) hhi, if_neg (by omega)]

/-- Settles O55: what is left of a write's frames when it ends is nothing. -/
theorem writeSendsItsPlan : Obligations.WriteSendsItsPlan := fun _ _ _ _ _ hinv h => (h.ended hinv).commands

/-! ## A write stays in its rounded range (R203) -/

/-- After a frame that the device accepts the array is as it was or as the device's reaction leaves it (R88). -/
theorem sendFrame_flash {s t : State} {d : Descriptor} {a : DeviceReply} {k : FrameOutcome → State → State}
    (hk : ∀ o u, (k o u).flash = u.flash) (h : sendFrame d (.ok a) k s = .next t) :
    t.flash = s.flash ∨ t.flash = a.flash := by
  rcases sendFrame_accepted h with rfl | ⟨e, rfl⟩
  · exact .inr (by rw [hk, busFrame_flash])
  · rw [hk, busFrame_flash, deliver_flash]
    split
    · exact .inr rfl
    · exact .inl rfl

theorem sendFrame_keeps_flash {s t : State} {d : Descriptor} {dev : DevState} {bytes : List Byte}
    {k : FrameOutcome → State → State} (hk : ∀ o u, (k o u).flash = u.flash)
    (h : sendFrame d (.ok ⟨dev, s.flash, bytes⟩) k s = .next t) : t.flash = s.flash :=
  or_self_iff.mp (sendFrame_flash hk h)

/-- `x` lies outside the rounded range of the write in progress in `s` (R163). -/
def State.outsideRange (s : State) (x : Nat) : Prop := x < s.roundedStart ∨ s.eend.toNat ≤ x

section
variable {s t : State} {x : Nat}

/-- The next unit lies in the rounded range. -/
theorem Invariant.eraseCmd_read_outside (h : Invariant s) (hp : s.phase = .eraseCmd) (hx : s.outsideRange x)
    (ht : controllerStep s = .next t) : t.flash.read x = s.flash.read x := by
  have hcur := (h.writing (.inl (congrArg Phase.inErase hp))).cursors
  have hlow := hcur.eraseLow
  obtain ⟨-, -, hend, -⟩ :=
    nextUnit_bounds (h.controller.eraseLeft (.inr hp)) hcur.aligned hcur.eraseEnd_aligned
  rw [h.controllerStep_eraseCmd hp rfl] at ht
  rcases sendFrame_flash (by simp) ht with hf | hf <;> rw [hf]
  exact Memory.read_forget_out _ _ _ _ (hx.imp (by omega) (by omega))

/-- The next chunk lies in the request, and so in the rounded range. -/
theorem Invariant.progCmd_read_outside (h : Invariant s) (hp : s.phase = .progCmd) (hx : s.outsideRange x)
    (ht : controllerStep s = .next t) : t.flash.read x = s.flash.read x := by
  have hcur := (h.writing (.inr (congrArg Phase.inProgram hp))).cursors
  have hlow := hcur.progLow
  have hends := hcur.ends
  have hee := hcur.eraseEnd
  have hpage := (legal_pageSize ((configOk_iff s).mp h.config).1).1
  obtain ⟨-, -, hend⟩ := nextChunk_bounds hpage (h.controller.programLeft (.inr hp))
  cases hb : s.bufRead s.pcur.toNat (nextChunkLen s.cfg.pageSize s.pcur.toNat s.pend.toNat) with
  | none => simp [controllerStep_progCmd_short hp hb] at ht
  | some data =>
    rw [← (bufRead_length hb).1] at hend
    rw [h.controllerStep_progCmd hp hb] at ht
    rcases sendFrame_flash (by simp) ht with hf | hf <;> rw [hf]
    simp only [State.outsideRange, State.roundedStart, floorTo_sector] at hx
    rw [ceilTo_sector] at hee
    exact Memory.read_forget_out _ _ _ _ (by omega)

/-- A turn of the controller in a write changes no byte outside the rounded range, however its frame ends. -/
theorem Invariant.controllerStep_read_outside (h : Invariant s) (hw : s.reqOp = 1) (hi : s.phase ≠ .idle)
    (hx : s.outsideRange x) (ht : controllerStep s = .next t) : t.flash.read x = s.flash.read x := by
  have hwren (hp : s.phase = .eraseWren ∨ s.phase = .progWren) : t.flash = s.flash :=
    sendFrame_keeps_flash (by simp) (h.controllerStep_wren hp ▸ ht)
  have hpoll (hp : s.phase = .prePoll ∨ s.phase = .erasePoll ∨ s.phase = .progPoll) : t.flash = s.flash :=
    sendFrame_keeps_flash (by simp) (h.controllerStep_poll hp ▸ ht)
  cases hp : s.phase with
  | idle => exact absurd hp hi
  | eraseCmd => exact h.eraseCmd_read_outside hp hx ht
  | progCmd => exact h.progCmd_read_outside hp hx ht
  | eraseWren => rw [hwren (.inl hp)]
  | progWren => rw [hwren (.inr hp)]
  | prePoll => rw [hpoll (.inl hp)]
  | erasePoll => rw [hpoll (.inr (.inl hp))]
  | progPoll => rw [hpoll (.inr (.inr hp))]
  | idCmd => simp [h.idOp hp] at hw
  | uidCmd => simp [h.uidOp hp] at hw

end

section
variable {a l : U32} {data : List Byte} {s₀ s t : State}

/-- The rounded range of a write in progress is that of its request (R163). -/
theorem Underway.outsideRange_iff (h : Underway a l data s₀ s) (x : Nat) :
    s.outsideRange x ↔ x < a.toNat / 4096 * 4096 ∨ (a.toNat + l.toNat + 4095) / 4096 * 4096 ≤ x := by
  have hcur := h.invariant.cursors h.active h.progress.write
  rw [State.outsideRange, State.roundedStart, hcur.eraseEnd, h.reqAddr, h.reqLen, floorTo_sector, ceilTo_sector]

/-- Every step of a write, also one that ends it, leaves a byte outside the rounded range as it was when the request was
accepted, unless the device was working on it then. -/
theorem Underway.step_read_outside (h : Underway a l data s₀ s) (hs : Machine.step s = .next t) {x : Nat}
    (hx : s.outsideRange x) (hc : s₀.devState.covers x = false) : t.flash.read x = s₀.flash.read x := by
  have hw := h.progress.write
  refine Eq.trans ?_ (h.progress.outside x hx hc)
  obtain ⟨-, u, rfl, ⟨-, rfl⟩ | ⟨-, rfl⟩ | ⟨-, hu⟩⟩ := step_next hs
  · rfl
  · have hcur := h.invariant.cursors h.active hw
    exact deviceComplete_read_uncovered (h.progress.uncovered_outside hcur hx hc)
  · exact h.invariant.controllerStep_read_outside (t := u) hw h.active hx hu

end

/-- Settles O57: at every point of a write its progress speaks of the bytes outside, and the step from there changes none
of them. -/
theorem writeStaysInItsRange : Obligations.WriteStaysInItsRange := by
  intro s m n t a l data hinv hp hm hmi hmn hn x hx hc
  have h := (hp.underway hinv hm hmi).within hmn
  exact h.step_read_outside hn ((h.outsideRange_iff x).mpr hx) hc

/-! ## The frames of a write are bounded (R201) -/

theorem frameCount_frameEvents (d : Descriptor) (o : FrameOutcome) (es : List BusEvent) :
    frameCount (frameEvents d o ++ es) = frameCount es + 1 :=
  Nat.add_comm 1 _

section
variable {s : State}

/-- The frames that the operations left can need, the next one's write-enable among them (R201). -/
def State.budget (s : State) : Nat := s.operationsLeft * s.framesPerOperation

/-! What is left before a write-enable, before the command it enables, and in an episode. -/

theorem framesLeft_of_wren (hp : s.phase = .eraseWren ∨ s.phase = .progWren) : s.framesLeft = s.budget := by
  rcases hp with hp | hp <;> simp only [State.framesLeft, hp, State.budget]

theorem framesLeft_of_command (hp : s.phase = .eraseCmd ∨ s.phase = .progCmd) : s.framesLeft = s.budget - 1 := by
  rcases hp with hp | hp <;> simp only [State.framesLeft, hp, State.budget]

theorem framesLeft_of_poll (hp : s.phase.inPoll = true) (hw : s.reqOp = 1) :
    s.framesLeft = s.cfg.pollMax - s.pollCnt + s.budget := by
  cases hph : s.phase <;> simp [hph, Phase.inPoll, State.framesLeft, State.budget, hw] at hp ⊢

end

section
variable {s : State} (h : Invariant s)
include h

/-- A unit erased is one operation less (R173, R201). -/
theorem Invariant.budget_of_eraseCmd (hp : s.phase = .eraseCmd) {size : Nat}
    (hs : size = nextUnitSize s.ecur.toNat s.eend.toNat) :
    s.budget = State.budget { s with ecur := s.ecur + BitVec.ofNat 33 size } + (2 + s.cfg.pollMax) := by
  obtain ⟨-, -, hcur⟩ := h.eraseOutcomes hp hs
  have hunits := unitsFrom_of_lt (h.controller.eraseLeft (.inr hp))
  simp only [State.budget, State.operationsLeft, State.framesPerOperation, hunits, hcur, ← hs, List.length_cons,
    Nat.succ_add, Nat.succ_mul]

/-- A chunk programmed is one operation less (R173, R201). -/
theorem Invariant.budget_of_progCmd (hp : s.phase = .progCmd) {data : List Byte}
    (hd : data.length = nextChunkLen s.cfg.pageSize s.pcur.toNat s.pend.toNat) :
    s.budget = State.budget { s with pcur := s.pcur + BitVec.ofNat 33 data.length } + (2 + s.cfg.pollMax) := by
  obtain ⟨-, -, hcur⟩ := h.programOutcomes hp hd
  have hpage := (legal_pageSize ((configOk_iff s).mp h.config).1).1
  have hchunks := chunksFrom_of_lt hpage (h.controller.programLeft (.inr hp))
  simp only [State.budget, State.operationsLeft, State.framesPerOperation, hchunks, hcur, ← hd, List.length_cons,
    ← Nat.add_assoc, Nat.succ_mul]

/-- An operation is left before its write-enable and before its command. -/
theorem Invariant.budget_pos (hp : (s.phase = .eraseWren ∨ s.phase = .eraseCmd) ∨ s.phase = .progWren ∨
    s.phase = .progCmd) : 2 ≤ s.budget := by
  refine (Nat.le_add_right 2 s.cfg.pollMax).trans (Nat.le_mul_of_pos_left _ ?_)
  rcases hp with hp | hp
  · have hu := unitsFrom_of_lt (h.controller.eraseLeft hp)
    simp [State.operationsLeft, hu]
  · have hpage := (legal_pageSize ((configOk_iff s).mp h.config).1).1
    have hu := chunksFrom_of_lt hpage (h.controller.programLeft hp)
    simp [State.operationsLeft, hu]

theorem Invariant.framesLeft_pos (hw : s.reqOp = 1) (hi : s.phase ≠ .idle) : 0 < s.framesLeft := by
  have hpoll := h.controller.pollBound
  cases hp : s.phase with
  | idle => exact absurd hp hi
  | prePoll | erasePoll | progPoll =>
    rw [framesLeft_of_poll (by rw [hp]; rfl) hw]
    omega
  | eraseWren | eraseCmd | progWren | progCmd =>
    have hb := h.budget_pos (by simp [hp])
    simp only [State.budget] at hb
    simp only [State.framesLeft, hp]
    omega
  | idCmd => simp [h.idOp hp] at hw
  | uidCmd => simp [h.uidOp hp] at hw

end

/-- A write starts before the write-enable of its first unit, after a pre-poll if the device may be busy. -/
theorem framesLeft_of_start {s : State} (hp : s.phase = if s.maybeBusy then .prePoll else .eraseWren)
    (hw : s.reqOp = 1) : s.framesLeft ≤ s.budget + s.cfg.pollMax := by
  cases hb : s.maybeBusy <;> simp only [hb, if_true, Bool.false_eq_true, if_false] at hp
  · rw [framesLeft_of_wren (.inl hp)]
    exact Nat.le_add_right _ _
  · rw [framesLeft_of_poll (by rw [hp]; rfl) hw]
    omega

/-- When a write starts, all of its units and chunks are left. -/
theorem budget_of_start {s : State} (he : s.ecur.toNat = s.roundedStart) (hp : s.pcur.toNat = s.reqAddr.toNat)
    (hw : WriteCursors s) :
    s.budget = ((unitsFrom s.roundedStart (ceilTo sectorSize (s.reqAddr.toNat + s.reqLen.toNat))).length +
      (pages s.cfg s.reqAddr.toNat s.reqLen.toNat).length) * (2 + s.cfg.pollMax) := by
  rw [State.budget, State.operationsLeft, State.framesPerOperation, pages, he, hp, hw.eraseEnd, hw.ends]

/-- An episode that ended not busy goes on before a write-enable, or ends the request. -/
theorem leaveEpisode_framesLeft {s : State} (hp : s.phase.inPoll = true) (hw : s.reqOp = 1) :
    (leaveEpisode s).framesLeft ≤ s.budget := by
  unfold leaveEpisode
  split
  · exact (framesLeft_of_wren (by dsimp only; split <;> simp)).le
  · split
    · exact (framesLeft_of_wren (.inr rfl)).le
    · exact Nat.zero_le _
  · rw [if_pos hw]
    exact (framesLeft_of_wren (.inl rfl)).le
  · cases hph : s.phase <;> simp_all [Phase.inPoll]

theorem deviceComplete_framesLeft (s : State) : (deviceComplete s).framesLeft = s.framesLeft := by
  simp [State.framesLeft, State.operationsLeft, State.framesPerOperation]

theorem WriteStep.frames {s u : State} (h : WriteStep s u) (hinv : Invariant s) (hw : s.reqOp = 1) :
    frameCount u.bus + u.framesLeft ≤ frameCount s.bus + s.framesLeft := by
  have hpoll := hinv.controller.pollBound
  cases h with
  | complete hb => rw [deviceComplete_framesLeft, deviceComplete_bus]
  | @enable p hp hb =>
    have hpos := hinv.budget_pos (hp.imp (.inl ·.1) (.inl ·.1))
    rw [frameCount_frameEvents, framesLeft_of_wren (s := s) (hp.imp And.left And.left), framesLeft_of_command]
    · show _ + (s.budget - 1) ≤ _
      omega
    · exact hp.imp And.right And.right
  | @erase hp size hs =>
    have hb := hinv.budget_of_eraseCmd hp hs
    rw [frameCount_frameEvents, framesLeft_of_command (s := s) (.inl hp)]
    show _ + (s.cfg.pollMax - 0 + State.budget { s with ecur := s.ecur + BitVec.ofNat 33 size }) ≤ _
    omega
  | @program hp data hbuf =>
    have hb := hinv.budget_of_progCmd hp (bufRead_length hbuf).1
    rw [frameCount_frameEvents, framesLeft_of_command (s := s) (.inr hp)]
    show _ + (s.cfg.pollMax - 0 + State.budget { s with pcur := s.pcur + BitVec.ofNat 33 data.length }) ≤ _
    omega
  | stillBusy hp b =>
    rw [frameCount_frameEvents, framesLeft_of_poll (s := s) hp hw, framesLeft_of_poll]
    · show _ + (s.cfg.pollMax - (s.pollCnt + 1) + s.budget) ≤ _
      omega
    · exact hp
    · exact hw
  | leave hp hb b =>
    refine (Nat.add_le_add_left (leaveEpisode_framesLeft ?_ ?_) _).trans ?_
    · exact hp
    · exact hw
    · rw [leaveEpisode_bus, frameCount_frameEvents, framesLeft_of_poll hp hw]
      show _ + s.budget ≤ _
      omega

/-! ## The frames from the acceptance on -/

theorem frameCount_step_le {s t : State} (hs : step s = .next t) : frameCount t.bus ≤ frameCount s.bus + 1 := by
  rcases oneFramePerStep s t hs with hb | ⟨d, o, hb, -⟩
  · exact hb ▸ Nat.le_succ _
  · rw [hb, frameCount_frameEvents]

section
variable {a l : U32} {data : List Byte} {s₀ s t : State}

/-- A step of a write uses up one of the frames left for each frame it sends; an abort sends one at most. -/
theorem Underway.step_frames (h : Underway a l data s₀ s) (hs : Machine.step s = .next t) :
    frameCount t.bus + t.framesLeft ≤ frameCount s.bus + s.framesLeft := by
  have hw := h.progress.write
  obtain ⟨u, rfl, hu | ⟨hidle, -⟩⟩ := step_write h.invariant hw h.active hs
  · exact hu.frames h.invariant hw
  · have hpos := h.invariant.framesLeft_pos hw h.active
    have hle := frameCount_step_le hs
    have hzero : u.tick.framesLeft = 0 := by simp only [State.framesLeft, State.tick_phase, hidle]
    omega

theorem Underway.within_frames (h : Underway a l data s₀ s) (hs : WithinRequest s t) :
    frameCount t.bus + t.framesLeft ≤ frameCount s.bus + s.framesLeft := by
  induction hs with
  | refl => exact Nat.le_refl _
  | step hst hstep hi ih => exact ((h.within hst).step_frames hstep).trans ih

/-- The accept step sends nothing and leaves the frames of all units and chunks, after a pre-poll if need be (R181). -/
theorem Presents.accepted_frames (hp : Presents a l data s₀) (h : Invariant s₀) (hs : Machine.step s₀ = .next t)
    (hi : t.phase ≠ .idle) :
    frameCount t.bus + t.framesLeft ≤ frameCount s₀.bus +
      ((unitsFrom (floorTo sectorSize a.toNat) (ceilTo sectorSize (a.toNat + l.toNat))).length +
        (pages s₀.cfg a.toNat l.toNat).length) * (2 + s₀.cfg.pollMax) + s₀.cfg.pollMax := by
  have hinv := h.step hs
  obtain ⟨rest, rfl⟩ := hp.accepted hs
  obtain ⟨hbound, hl0, heq⟩ := acceptWrite_of_active hi
  rw [heq] at hinv ⊢
  obtain ⟨hcur, hec, hpc⟩ :=
    writeCursors_of_accepted (s := State.tick _) ((configOk_iff _).mp hinv.config).1 hl0 hbound rfl rfl rfl rfl
  refine (Nat.add_le_add_left (framesLeft_of_start ?_ ?_) _).trans ?_
  · rfl
  · rfl
  · rw [budget_of_start hec hpc hcur, Nat.add_assoc]
    rfl

end

/-- Settles O56: the bound holds when the request is accepted, and no step raises what is sent and left; a turn of the
controller sends one frame. -/
theorem writeFramesAreBounded : Obligations.WriteFramesAreBounded := by
  intro s m n t a l data hinv hp hm hmi hmn hn
  have hstart := hp.underway hinv hm hmi
  have h := hstart.within hmn
  refine ⟨?_, fun ha => ?_⟩
  · have h0 := hp.accepted_frames hinv hm hmi
    have h1 := hstart.within_frames hmn
    have h2 := h.step_frames hn
    rw [floorTo_sector, ceilTo_sector] at h0
    omega
  · obtain ⟨u, rfl, hu⟩ := h.invariant.step_sends h.active ha hn
    obtain ⟨-, d, o, hb⟩ := hu.frame
    rw [State.tick_bus, hb, frameCount_frameEvents]

end Sys2Proof.Machine
end

section
/-! The obligations of spec/43_identification.md: the accept steps of the two queries (R221, R224), their exchanges (R222,
R223, R225), who writes the cache (R226, R227), and that a query leaves the device as it is (R228). -/

namespace Sys2Proof.Machine

/-! ## The accept steps (R221, R224) -/

/-- Settles O13: in `IDLE` the latched request is answered from the cache, or started. -/
theorem readIdAccepted : Obligations.ReadIdAccepted := by
  intro s a l hp
  obtain ⟨-, h, -⟩ := exec_request_idle hp a l
  exact ⟨fun hv => h.trans (congrArg _ (if_pos hv)), fun hv => h.trans (congrArg _ (if_neg (by simp [hv])))⟩

/-- Settles O14: in `IDLE` the latched request is answered from the cache, or started. -/
theorem readUniqueIdAccepted : Obligations.ReadUniqueIdAccepted := by
  intro s a l hp
  obtain ⟨-, -, h, -⟩ := exec_request_idle hp a l
  exact ⟨fun hv => h.trans (congrArg _ (if_pos hv)), fun hv => h.trans (congrArg _ (if_neg (by simp [hv])))⟩

/-! ## An identification frame, by the way it ends (R75 to R77, R88) -/

section
variable {s : State} (d : Descriptor) (ident : List Byte) (k : FrameOutcome → State → State)

/-- A device that is not busy answers its constant and keeps its state. -/
theorem sendFrame_identify_of_ok (ht : s.input.transport = .ok) (hb : s.devState.busy = false) :
    sendFrame d (devIdentify ident s) k s = .next (k (.ok ident) (busFrame d (.ok ident) s)) := by
  rw [devIdentify_of_not_busy hb, sendFrame_of_ok ht]

/-- A failed frame brings no bytes; a busy device must not receive it. -/
theorem sendFrame_identify_of_fail {e : TransportError} {r : Bool} (ht : s.input.transport = .fail e r)
    (hr : r = true → s.devState.busy = false) :
    sendFrame d (devIdentify ident s) k s = .next (k (.err e) (busFrame d (.err e) s)) := by
  cases r with
  | true => rw [devIdentify_of_not_busy (hr rfl), sendFrame_unchanged_of_fail ht]
  | false => rw [sendFrame_of_fail_unreceived ht]

theorem sendFrame_identify_of_busy (hr : s.input.transport.received = true) (hb : s.devState.busy = true) :
    sendFrame d (devIdentify ident s) k s = .fault (.device .commandWhileBusy) := by
  rw [devIdentify, if_pos hb, sendFrame_of_received_error hr]

end

/-! ## The exchanges (R222, R223, R225) -/

/-- At most four identification bytes fit the 32 bits of the code (R223). -/
theorem idCodeOf_toNat {bytes : List Byte} (h : bytes.length ≤ 4) : (idCodeOf bytes).toNat = fromBe bytes := by
  have hlt : fromBe bytes < 2 ^ 32 :=
    calc fromBe bytes < 256 ^ bytes.length := fromBe_lt bytes
      _ ≤ 256 ^ 4 := Nat.pow_le_pow_right (by omega) h
  rw [idCodeOf, BitVec.toNat_ofNat, Nat.mod_eq_of_lt hlt]

/-- Settles O24: each outcome of the read-id frame, and the code of the device's constant. -/
theorem readIdCommand : Obligations.ReadIdCommand := by
  intro s hc _
  obtain ⟨hl, hid, -⟩ := (configOk_iff s).mp hc
  have hlen : s.devId.length ≤ 4 := hid ▸ (legal_idLen hl).2
  refine ⟨fun ht hb => ⟨idCodeOf s.devId, idCodeOf_toNat hlen, ?_⟩, fun e r ht hr => ?_, fun ht hb => ?_⟩
  · refine (sendFrame_identify_of_ok _ _ _ ht hb).trans ?_
    rw [busFrame_eq]
    rfl
  · refine (sendFrame_identify_of_fail _ _ _ ht hr).trans ?_
    rw [busFrame_eq]
    rfl
  · exact sendFrame_identify_of_busy _ _ _ ht hb

/-- Settles O25: each outcome of the read-unique-id frame. -/
theorem readUniqueIdCommand : Obligations.ReadUniqueIdCommand := by
  intro s _
  refine ⟨fun ht hb => ?_, fun e r ht hr => ?_, fun ht hb => ?_⟩
  · refine (sendFrame_identify_of_ok _ _ _ ht hb).trans ?_
    rw [busFrame_eq]
    rfl
  · refine (sendFrame_identify_of_fail _ _ _ ht hr).trans ?_
    rw [busFrame_eq]
    rfl
  · exact sendFrame_identify_of_busy _ _ _ ht hb

/-! ## Who writes the cache (R226, R227) -/

/-- `ID_VALID`, `ID_RAW` and `ID_CODE` (R31). -/
def State.idCache (s : State) : Bool × List Byte × U32 := (s.idValid, s.idRaw, s.idCode)

/-- `UID_VALID` and `UID` (R32). -/
def State.uidCache (s : State) : Bool × List Byte := (s.uidValid, s.uid)

/-- `t` has both caches of `s`. -/
structure SameCaches (s t : State) : Prop where
  id  : t.idCache = s.idCache
  uid : t.uidCache = s.uidCache

theorem whenIdle_next {accept : State → State} {s t : State} (h : whenIdle accept s = .next t) :
    t = accept s ∨ t = s := by
  unfold whenIdle at h
  split at h
  · exact .inl (Host.Outcome.next.inj h).symm
  · exact .inr (Host.Outcome.next.inj h).symm

/-- What no request writes, in any phase: the caches, the array, the device (R25). -/
theorem request_keeps {i : Instr} {a l : U32} {s t : State}
    (hi : i = .writeStream a l ∨ i = .readId a l ∨ i = .readUniqueId a l ∨ i = .reservedOp0 a l)
    (h : exec i s = .next t) : SameCaches s t ∧ t.flash = s.flash ∧ t.devState = s.devState := by
  rcases hi with rfl | rfl | rfl | rfl <;>
    simp only [exec, execWriteStream, execReadId, execReadUniqueId, execReservedOp0] at h <;>
    rcases whenIdle_next h with rfl | rfl
  case inl.inl => exact ⟨⟨by simp [State.idCache], by simp [State.uidCache]⟩, by simp, by simp⟩
  case inr.inl.inl | inr.inr.inl.inl => split <;> exact ⟨⟨rfl, rfl⟩, rfl, rfl⟩
  all_goals exact ⟨⟨rfl, rfl⟩, rfl, rfl⟩

theorem acceptStep_sameCaches {s t : State} (h : acceptStep s = .next t) : SameCaches s t := by
  rcases acceptStep_next h with ⟨-, rfl⟩ | ⟨r, rest, -, -, he⟩
  · exact ⟨rfl, rfl⟩
  · obtain ⟨a, l, hw⟩ := decodeRequest_cases r.word
    obtain ⟨⟨hid, huid⟩, -⟩ := request_keeps hw he
    exact ⟨hid, huid⟩

/-- A frame by itself writes no cache: only what follows its outcome can. -/
theorem sendFrame_next_sameCaches {d : Descriptor} {r : Except DeviceFault DeviceReply}
    {k : FrameOutcome → State → State} {s t : State} (h : sendFrame d r k s = .next t) :
    ∃ o u, t = k o u ∧ SameCaches s u := by
  rcases sendFrame_next h with ⟨a, -, ht⟩ | ⟨-, e, -, -, ht⟩ <;>
    exact ⟨_, _, ht, by simp [State.idCache], by simp [State.uidCache]⟩

/-- A frame writes no cache, if what follows its outcome writes none. -/
theorem sendFrame_sameCaches {d : Descriptor} {r : Except DeviceFault DeviceReply}
    {k : FrameOutcome → State → State} {s t : State} (hk : ∀ o u, SameCaches u (k o u))
    (h : sendFrame d r k s = .next t) : SameCaches s t := by
  obtain ⟨o, u, rfl, hid, huid⟩ := sendFrame_next_sameCaches h
  exact ⟨(hk o u).id.trans hid, (hk o u).uid.trans huid⟩

/-- Read-id leaves the UID cache, and never clears the valid bit of its own (R222). -/
theorem execRdid_cache {s t : State} (h : execRdid s = .next t) :
    t.uidCache = s.uidCache ∧ (s.idValid = true → t.idValid = true) := by
  obtain ⟨o, u, rfl, hid, huid⟩ := sendFrame_next_sameCaches h
  have hv : u.idValid = s.idValid := congrArg Prod.fst hid
  cases o with
  | err e => exact ⟨huid, hv.trans⟩
  | ok bytes => exact ⟨huid, fun _ => rfl⟩

/-- Read-unique-id leaves the ID cache, and never clears the valid bit of its own (R225). -/
theorem execRuid_cache {s t : State} (h : execRuid s = .next t) :
    t.idCache = s.idCache ∧ (s.uidValid = true → t.uidValid = true) := by
  obtain ⟨o, u, rfl, hid, huid⟩ := sendFrame_next_sameCaches h
  have hv : u.uidValid = s.uidValid := congrArg Prod.fst huid
  cases o with
  | err e => exact ⟨hid, hv.trans⟩
  | ok bytes => exact ⟨hid, fun _ => rfl⟩

/-- Whatever the cursor, the erase step sends an erase or stops (R187). -/
theorem commandStep_nextUnit_sameCaches {s t : State} (hl : s.cfg.Legal) {c hi : Nat}
    (h : commandStep (.erase (nextUnitSize c hi) c) s = .next t) : SameCaches s t := by
  rcases commandStep_cases (.erase (nextUnitSize c hi) c) s with ⟨why, -, hr⟩ | ⟨hw, -⟩
  · simp [hr] at h
  · rw [commandStep_nextUnit hl hw] at h
    exact sendFrame_sameCaches (fun _ _ => ⟨by simp [State.idCache], by simp [State.uidCache]⟩) h

/-- Whatever the chunk, the program step sends a page-program or stops (R190). -/
theorem commandStep_pageProgram_sameCaches {s t : State} (hl : s.cfg.Legal) {a : Nat} {data : List Byte}
    (h : commandStep (.pageProgram a data) s = .next t) : SameCaches s t := by
  rcases commandStep_cases (.pageProgram a data) s with ⟨why, -, hr⟩ | ⟨hw, -⟩
  · simp [hr] at h
  · rw [commandStep_pageProgram hl hw] at h
    exact sendFrame_sameCaches (fun _ _ => ⟨by simp [State.idCache], by simp [State.uidCache]⟩) h

/-- The controller writes a cache only by an identification frame, in that frame's own phase. -/
theorem controllerStep_sameCaches {s t : State} (hl : s.cfg.Legal) (h : controllerStep s = .next t) :
    SameCaches s t ∨ (s.phase = .idCmd ∧ execRdid s = .next t) ∨ (s.phase = .uidCmd ∧ execRuid s = .next t) := by
  have hwren : ∀ o u, SameCaches u (afterWriteEnable o u) := fun _ _ =>
    ⟨by simp [State.idCache], by simp [State.uidCache]⟩
  have hstatus : ∀ o u, SameCaches u (afterStatus o u) := fun _ _ =>
    ⟨by simp [State.idCache], by simp [State.uidCache]⟩
  have hcommand : ∀ op, s.phaseOp = .ok (some op) → commandStep op s = .next t := fun op hop =>
    (controllerStep_of_op hop).symm.trans h
  cases hp : s.phase with
  | idle => exact .inl (acceptStep_sameCaches (controllerStep_idle hp ▸ h))
  | eraseWren => exact .inl (sendFrame_sameCaches hwren (controllerStep_wren (.inl hp) ▸ h))
  | progWren => exact .inl (sendFrame_sameCaches hwren (controllerStep_wren (.inr hp) ▸ h))
  | prePoll => exact .inl (sendFrame_sameCaches hstatus (controllerStep_poll hl (.inl hp) ▸ h))
  | erasePoll => exact .inl (sendFrame_sameCaches hstatus (controllerStep_poll hl (.inr (.inl hp)) ▸ h))
  | progPoll => exact .inl (sendFrame_sameCaches hstatus (controllerStep_poll hl (.inr (.inr hp)) ▸ h))
  | idCmd => exact .inr (.inl ⟨rfl, controllerStep_idCmd hl hp ▸ h⟩)
  | uidCmd => exact .inr (.inr ⟨rfl, controllerStep_uidCmd hl hp ▸ h⟩)
  | eraseCmd =>
    have hop : s.phaseOp = .ok (some (.erase (nextUnitSize s.ecur.toNat s.eend.toNat) s.ecur.toNat)) := by
      simp [State.phaseOp, hp, nextUnit]
    exact .inl (commandStep_nextUnit_sameCaches hl (hcommand _ hop))
  | progCmd =>
    cases hb : s.bufRead s.pcur.toNat (nextChunkLen s.cfg.pageSize s.pcur.toNat s.pend.toNat) with
    | none => simp [controllerStep_progCmd_short hp hb] at h
    | some data =>
      have hop : s.phaseOp = .ok (some (.pageProgram s.pcur.toNat data)) := by
        simp [State.phaseOp, hp, hb, nextChunk]
      exact .inl (commandStep_pageProgram_sameCaches hl (hcommand _ hop))

/-- A step of the controller or of the device writes a cache only by an identification frame, in that frame's own
phase. -/
theorem step_caches {s t : State} (h : step s = .next t) (ha : s.agent ≠ .reset) :
    (s.idValid = true → t.idValid = true) ∧ (s.uidValid = true → t.uidValid = true) ∧
      (s.phase ≠ .idCmd → t.idCache = s.idCache) ∧ (s.phase ≠ .uidCmd → t.uidCache = s.uidCache) := by
  obtain ⟨hc, u, rfl, hu⟩ := step_next h
  have hl := ((configOk_iff s).mp hc).1
  have hcases : SameCaches s u ∨ (s.phase = .idCmd ∧ execRdid s = .next u) ∨
      (s.phase = .uidCmd ∧ execRuid s = .next u) := by
    rcases hu with ⟨hr, -⟩ | ⟨-, rfl⟩ | ⟨-, hu⟩
    · exact absurd hr ha
    · exact .inl ⟨by simp [State.idCache], by simp [State.uidCache]⟩
    · exact controllerStep_sameCaches hl hu
  rcases hcases with ⟨hid, huid⟩ | ⟨hp, hu⟩ | ⟨hp, hu⟩
  · exact ⟨(congrArg Prod.fst hid).trans, (congrArg Prod.fst huid).trans, fun _ => hid, fun _ => huid⟩
  · obtain ⟨huid, hv⟩ := execRdid_cache hu
    exact ⟨hv, (congrArg Prod.fst huid).trans, fun hn => absurd hp hn, fun _ => huid⟩
  · obtain ⟨hid, hv⟩ := execRuid_cache hu
    exact ⟨(congrArg Prod.fst hid).trans, hv, fun _ => hid, fun hn => absurd hp hn⟩

/-- Settles O32, register by register. -/
theorem cacheWrittenByExchangeOnly : Obligations.CacheWrittenByExchangeOnly := by
  intro s t h ha
  obtain ⟨hidv, huidv, hid, huid⟩ := step_caches h ha
  simp only [State.idCache, State.uidCache, Prod.mk.injEq] at hid huid
  exact ⟨hidv, huidv, hid, huid⟩

/-! ## A query leaves the device as it is (R228) -/

/-- `t` has the array and the device's state of `s`, and a `MAYBE_BUSY` that has not been set. -/
structure DeviceLeft (s t : State) : Prop where
  flash    : t.flash = s.flash
  devState : t.devState = s.devState
  quiet    : s.maybeBusy = false → t.maybeBusy = false

theorem deviceLeft_afterStatus (o : FrameOutcome) (u : State) : DeviceLeft u (afterStatus o u) where
  flash := afterStatus_flash o u
  devState := afterStatus_devState o u
  quiet hq := by cases o <;> simp [afterStatus, pollByte_maybeBusy, hq]

theorem deviceLeft_afterReadId (o : FrameOutcome) (u : State) : DeviceLeft u (afterReadId o u) :=
  ⟨by simp, by simp, (afterReadId_maybeBusy o u).trans⟩

theorem deviceLeft_afterReadUniqueId (o : FrameOutcome) (u : State) : DeviceLeft u (afterReadUniqueId o u) :=
  ⟨by simp, by simp, (afterReadUniqueId_maybeBusy o u).trans⟩

/-- A frame that the device answers without changing its state leaves it, if what follows the outcome does. -/
theorem sendFrame_deviceLeft {s t : State} {d : Descriptor} {bytes : List Byte} {k : FrameOutcome → State → State}
    (hk : ∀ o u, DeviceLeft u (k o u)) (hb : ∀ o u, (k o u).bus = u.bus)
    (h : sendFrame d (.ok ⟨s.devState, s.flash, bytes⟩) k s = .next t) :
    DeviceLeft s t ∧ ∃ o, t.bus = frameEvents d o ++ s.bus := by
  obtain ⟨o, rfl⟩ : ∃ o, t = k o (busFrame d o s) := by
    rcases sendFrame_unchanged h with rfl | ⟨e, rfl⟩ <;> exact ⟨_, rfl⟩
  obtain ⟨hf, hd, hq⟩ := hk o (busFrame d o s)
  exact ⟨⟨hf, hd, hq⟩, o, (hb _ _).trans (framed_busFrame d o s).bus⟩

/-- A query in progress waits for the device, or is in its exchange (R22). -/
theorem Invariant.query_phase {s : State} (h : Invariant s) (hp : s.phase ≠ .idle) (hq : s.reqOp = 2 ∨ s.reqOp = 3) :
    s.phase = .prePoll ∨ s.phase = .idCmd ∨ s.phase = .uidCmd := by
  have hne : s.reqOp ≠ 1 := by rcases hq with hq | hq <;> simp [hq]
  have hw := mt h.writeOp hne
  cases he : s.phase <;> simp_all [Phase.inErase, Phase.inProgram]

/-- A request, accepted or held, leaves the device and the bus to the steps that follow it (R25). -/
theorem request_leavesDevice {i : Instr} {a l : U32} {s t : State}
    (hi : i = .writeStream a l ∨ i = .readId a l ∨ i = .readUniqueId a l ∨ i = .reservedOp0 a l)
    (h : exec i s = .next t) :
    t.flash = s.flash ∧ t.devState = s.devState ∧ t.maybeBusy = s.maybeBusy ∧ t.bus = s.bus := by
  obtain ⟨-, hf, hd⟩ := request_keeps hi h
  obtain ⟨hb, hm, -⟩ := request_frameless hi h
  exact ⟨hf, hd, hm, hb⟩

/-- Settles O44: a query's frames are a status read and its identification command, which a device that is not busy
answers without a change. -/
theorem queriesLeaveTheDevice : Obligations.QueriesLeaveTheDevice := by
  refine ⟨fun s t h hp hq ha hs => ?_, fun s t a l hx => hx.elim (request_leavesDevice (.inr (.inl rfl)))
    (request_leavesDevice (.inr (.inr (.inl rfl))))⟩
  have hl := ((configOk_iff s).mp h.config).1
  rw [step_of_controller h.config ha] at hs
  obtain ⟨u, hu, rfl⟩ := onNext_eq_next hs
  rcases h.query_phase hp hq with hph | hph | hph
  · rw [controllerStep_poll hl (.inl hph)] at hu
    obtain ⟨⟨hf, hd, hm⟩, o, hb⟩ := sendFrame_deviceLeft deviceLeft_afterStatus afterStatus_bus hu
    exact ⟨hf, hd, hm, _, o, hb, .inl rfl⟩
  · rw [controllerStep_idCmd hl hph, execRdid, h.devIdentify (.inl hph)] at hu
    obtain ⟨⟨hf, hd, hm⟩, o, hb⟩ := sendFrame_deviceLeft deviceLeft_afterReadId afterReadId_bus hu
    exact ⟨hf, hd, hm, _, o, hb, .inr (.inl rfl)⟩
  · rw [controllerStep_uidCmd hl hph, execRuid, h.devIdentify (.inr hph)] at hu
    obtain ⟨⟨hf, hd, hm⟩, o, hb⟩ := sendFrame_deviceLeft deviceLeft_afterReadUniqueId afterReadUniqueId_bus hu
    exact ⟨hf, hd, hm, _, o, hb, .inr (.inr rfl)⟩

end Sys2Proof.Machine
end

section
/-! The obligation of spec/60_exceptions.md about a failed frame: the abort sequence R252 follows every command frame that
ends with the transport's error (R246). -/

namespace Sys2Proof.Machine

/-- After a frame that failed, every command raises the transport's error (R246), whatever it noted before. -/
theorem CommandFrame.raises {s : State} {d : Descriptor} {r : Except DeviceFault DeviceReply}
    {k : FrameOutcome → State → State} (h : CommandFrame s d r k) (e : TransportError) (u : State) :
    ∃ v, k (.err e) u = raise (.transportError e) v := by
  cases h with
  | writeEnable | readStatus | readId | readUniqueId => exact ⟨u, rfl⟩
  | erase | program => exact ⟨{ u with maybeBusy := true }, rfl⟩

/-- A command frame with an error outcome on the bus ends the controller's step in the abort sequence (R246, R252). -/
theorem Sends.raises {s t : State} {d : Descriptor} {e : TransportError} (h : Sends s t)
    (hb : t.bus = frameEvents d (.err e) ++ s.bus) : ∃ v, t = raise (.transportError e) v := by
  obtain ⟨d', r, k, hk, hs⟩ := h
  obtain ⟨o, u, rfl, hu, -⟩ := sendFrame_next_framed hs
  obtain ⟨-, rfl⟩ := frameEvents_inj (hb.symm.trans ((hk.bus o u).trans hu.bus))
  exact hk.raises e u

/-- Settles O42: a reset and a step without a frame add nothing to the bus, so the frame is a command's, and its error is
raised. -/
theorem everyFrameErrorAborts : Obligations.EveryFrameErrorAborts := by
  intro s t d e h hb
  obtain ⟨u, rfl, ⟨-, rfl⟩ | hs | hf⟩ := step_next_frame h
  · exact absurd hb.symm (frameEvents_append_ne d (.err e) s.bus)
  · obtain ⟨v, rfl⟩ := hs.raises hb
    exact ⟨rfl, rfl, rfl, rfl, rfl⟩
  · exact absurd (hb.symm.trans hf.bus) (frameEvents_append_ne d (.err e) s.bus)

end Sys2Proof.Machine
end

section
/-! The obligations of spec/70_reset_and_hazards.md: the reset event (R280, R283) and the states a run starts in (R280 to
R285). -/

namespace Sys2Proof.Machine

/-! ## The reset event (R280, R283) -/

theorem step_of_reset {s : State} (hc : s.configOk = true) (ha : s.agent = .reset) :
    step s = .next (controllerReset s).tick := by
  simp [step, hc, agentStep, ha]

/-- Settles O31: a reset steps to the registers' reset values, and any other step keeps a cache that is valid. -/
theorem resetEvent : Obligations.ResetEvent := by
  constructor
  · intro s hc ha
    exact ⟨_, step_of_reset hc ha, by simp⟩
  · intro s t h ha
    obtain ⟨hid, huid, -, -⟩ := step_caches h ha
    exact ⟨hid, huid⟩

/-! ## The states a run starts in (R280 to R285) -/

/-- The reset state's device constants are as wide as its legal `CFG` says (R284). -/
theorem reset_configOk : State.reset.configOk = true := by decide

theorem launch_reset : Launch State.reset :=
  { config := reset_configOk
    phase := rfl, reqOp := rfl, reqAddr := rfl, reqLen := rfl
    pollCnt := rfl, maybeBusy := rfl
    idValid := rfl, uidValid := rfl
    rspValid := rfl, rspStatus := rfl, rspValue := rfl
    cs := rfl, launched := rfl, device := rfl
    idWidth := rfl, uidWidth := rfl
    flash := reset_flash_wf
    flashEnd := fun _ hc => absurd hc List.not_mem_nil }

/-- Settles O33: the reset state is a launch state, and so meets the invariant. -/
theorem resetIsALaunch : Obligations.ResetIsALaunch := ⟨launch_reset, launch_reset.invariant⟩

/-- Settles O34, from the invariant of a state in `IDLE` with empty caches and an idle device. -/
theorem launchHasInvariant : Obligations.LaunchHasInvariant := fun _ h => h.invariant

end Sys2Proof.Machine
end
